-- ==== Sys2Proof/Word.lean ====
section
/-! DEFINITION. The word types of the GF128 core and the command word as its eight 32-bit words (30_encoding.md R300). -/

namespace Sys2Proof

/-- One byte of linear memory (10_state.md R110). -/
abbrev Byte := BitVec 8

/-- One 32-bit word of a command word, or one register of the read port (30_encoding.md R300, 10_state.md R109). -/
abbrev Word := BitVec 32

/-- The 256-bit command word `CW` as its eight words `W0 … W7` (30_encoding.md R300). -/
structure CommandWord where
  /-- control: OPCODE, FORM, NEG and the reserved bits (R301) -/
  w0 : Word
  /-- DST -/
  w1 : Word
  /-- SRC_A -/
  w2 : Word
  /-- SRC_B -/
  w3 : Word
  /-- N0 -/
  w4 : Word
  /-- N1 -/
  w5 : Word
  /-- N2 -/
  w6 : Word
  /-- N3 -/
  w7 : Word
  deriving DecidableEq, Repr

end Sys2Proof
end

