-- ==== Sys2Proof/Config.lean ====
section
/-! DEFINITION. What is fixed for the hardware (00_scope.md R6) and the free values: constants with no body that stand for what the spec leaves unspecified. -/

namespace Sys2Proof.Config

/-- `SCRATCH_BASE`, the offset of the scratch slot (00_scope.md R6, 10_state.md R111). -/
def scratchBase : Nat := 0

/-- `SCRATCH_BYTES`, its size (00_scope.md R6, 10_state.md R111). -/
def scratchBytes : Nat := 16

/-- The least MEM_BYTES a block may have (00_scope.md R6). -/
def minMemBytes : Nat := 16

/-- The largest MEM_BYTES a block may have (00_scope.md R6). -/
def maxMemBytes : Nat := 2 ^ 32

/-- DESIGN CHOICE (log 1): the MEM_BYTES of the state after reset. The spec leaves MEM_BYTES OPEN; 0x1000 is the size its
own programs use (95_test_vectors.md). Every other state may carry any size. -/
def resetMemBytes : Nat := 0x1000

/-- FREE VALUE (log 2): what the byte of MEM at an offset holds after the given number of resets, until something writes it.
10_state.md R116: "unspecified: any value, and not assumed equal before and after reset". First argument: how many reset
events have struck; second: the offset. -/
opaque freeByte : Nat → Nat → Byte

/-- FREE VALUE (log 9): what the block's inverter gives for modulus P (first argument) and an element `a` (second) that has
no inverse modulo P, possible only when P is composite. 40_wide_integer.md R405: "no such y exists and the result is
unspecified". It is used reduced modulo P, since every stored element is in [0, P). -/
opaque freeInverse : Nat → Nat → Nat

/-- FREE VALUE (log 10): the lane (third argument) of a batch inversion modulo P (first) of an array (second) that holds an
element with no inverse. 93_implementation_defined.md U2: VINV, LAGRANGE and QBATCH included. Used reduced modulo P. -/
opaque freeBatchInverse : Nat → List Nat → Nat → Nat

/-- DEDUCED (log 11): moduli known to be prime for which ROOT uses the shortcut 46_roots_twiddle.md R501 allows for prime p.
The two large moduli the spec names (10_state.md R103): 2^128 − 159 and 2^64 − 59. -/
def certifiedPrimes : List Nat := [2 ^ 128 - 159, 2 ^ 64 - 59]

end Sys2Proof.Config
end

