-- ==== Sys2Proof/Syntax.lean ====
section
/-! DEFINITION. The commands of the GF128 core: one constructor per row of spec/opcode_table.json (30_encoding.md R305). -/

namespace Sys2Proof

/-- A command with its operands. Offsets and counts are unsigned 32-bit numbers used as they are, and every sum or product of
them is formed in unbounded integers (30_encoding.md R302, 20_memory.md R213), so they are `Nat`; `WellFormed` bounds them.
`dst`, `a`, `b` are DST, SRC_A, SRC_B; `n0 … n3` are N0 … N3. -/
inductive Instr where
  /-- SETMOD p (47_control.md R510) -/
  | setmod (p : Nat)
  /-- ACK (47_control.md R511) -/
  | ack
  /-- FADD (41_field_ops.md R420) -/
  | fadd (dst a b : Nat)
  /-- FSUB (R421) -/
  | fsub (dst a b : Nat)
  /-- FMUL (R422) -/
  | fmul (dst a b : Nat)
  /-- FDIV (R423) -/
  | fdiv (dst a b : Nat)
  /-- FEXP; `neg` is the NEG bit (R426) -/
  | fexp (neg : Bool) (dst a b : Nat)
  /-- FINV (R424) -/
  | finv (dst a : Nat)
  /-- FNEG (R425) -/
  | fneg (dst a : Nat)
  /-- VADD.VV (42_elementwise.md R431) -/
  | vaddVV (dst a b n0 n1 : Nat)
  /-- VADD.VS (R431) -/
  | vaddVS (dst a n0 : Nat)
  /-- VSUB.VV (R432) -/
  | vsubVV (dst a b n0 n1 : Nat)
  /-- VSUB.VS (R432) -/
  | vsubVS (dst a n0 : Nat)
  /-- VMUL.VV (R433) -/
  | vmulVV (dst a b n0 n1 : Nat)
  /-- VMUL.VS (R433) -/
  | vmulVS (dst a n0 : Nat)
  /-- VDIV.VV (R434) -/
  | vdivVV (dst a b n0 n1 : Nat)
  /-- VDIV.VS (R434) -/
  | vdivVS (dst a n0 : Nat)
  /-- VEXP.VV (R435) -/
  | vexpVV (dst a b n0 n1 : Nat)
  /-- VEXP.VS (R435) -/
  | vexpVS (dst a n0 : Nat)
  /-- VINV (R438) -/
  | vinv (dst a n0 : Nat)
  /-- VNEG (R436) -/
  | vneg (dst a n0 : Nat)
  /-- PSERIES (43_bulk.md R450) -/
  | pseries (dst b n0 : Nat)
  /-- MATMUL (R451) -/
  | matmul (dst a b n0 n1 n2 n3 : Nat)
  /-- COMBINE (R452) -/
  | combine (dst a b n0 n1 : Nat)
  /-- PADD (44_polynomial.md R460) -/
  | padd (dst a b n0 n1 : Nat)
  /-- PSUB (R461) -/
  | psub (dst a b n0 n1 : Nat)
  /-- PMUL (R462) -/
  | pmul (dst a b n0 n1 : Nat)
  /-- PDIV (R464) -/
  | pdiv (dst a b n0 n1 : Nat)
  /-- PEVAL (R465) -/
  | peval (dst a b n0 : Nat)
  /-- ZPOLY (R466) -/
  | zpoly (dst a n0 : Nat)
  /-- FFT (45_fft_interp.md R482) -/
  | fft (dst a b n0 n1 : Nat)
  /-- IFFT (R484) -/
  | ifft (dst a b n0 n1 : Nat)
  /-- LAGRANGE (R486) -/
  | lagrange (dst a b n0 n1 : Nat)
  /-- QBATCH (R488) -/
  | qbatch (dst a b n0 n1 : Nat)
  /-- PCYCLE (46_roots_twiddle.md R500) -/
  | pcycle (dst b n0 : Nat)
  /-- ROOT (R501) -/
  | root (dst n0 : Nat)
  deriving DecidableEq, Repr

end Sys2Proof
end

