-- ==== Sys2Proof/WellFormed.lean ====
section
/-! DEFINITION. Which terms of `Instr` are commands: every operand fits its field of the command word (30_encoding.md R302, R303). -/

namespace Sys2Proof

/-- An offset (DST, SRC_A, SRC_B) is an unsigned 32-bit number (30_encoding.md R302). -/
def offsetFits (o : Nat) : Bool := decide (o < 2 ^ 32)

/-- A count or dimension (N0 … N3) is an unsigned 32-bit number (30_encoding.md R302). -/
def countFits (n : Nat) : Bool := decide (n < 2 ^ 32)

/-- SETMOD's immediate is an unsigned 128-bit number (30_encoding.md R303). -/
def modulusFits (p : Nat) : Bool := decide (p < 2 ^ 128)

/-- Every operand of the command fits its field. -/
def Instr.wf : Instr → Bool
  | .setmod p => modulusFits p
  | .ack => true
  | .fadd d a b | .fsub d a b | .fmul d a b | .fdiv d a b | .fexp _ d a b =>
    offsetFits d && offsetFits a && offsetFits b
  | .finv d a | .fneg d a => offsetFits d && offsetFits a
  | .vaddVV d a b n m | .vsubVV d a b n m | .vmulVV d a b n m | .vdivVV d a b n m | .vexpVV d a b n m
  | .combine d a b n m | .padd d a b n m | .psub d a b n m | .pmul d a b n m | .pdiv d a b n m
  | .fft d a b n m | .ifft d a b n m | .lagrange d a b n m | .qbatch d a b n m =>
    offsetFits d && offsetFits a && offsetFits b && countFits n && countFits m
  | .vaddVS d a n | .vsubVS d a n | .vmulVS d a n | .vdivVS d a n | .vexpVS d a n
  | .vinv d a n | .vneg d a n | .zpoly d a n => offsetFits d && offsetFits a && countFits n
  | .pseries d b n | .pcycle d b n => offsetFits d && offsetFits b && countFits n
  | .matmul d a b n m k q =>
    offsetFits d && offsetFits a && offsetFits b && countFits n && countFits m && countFits k && countFits q
  | .peval d a b n => offsetFits d && offsetFits a && offsetFits b && countFits n
  | .root d n => offsetFits d && countFits n

/-- The command is well formed: it has an encoding. -/
abbrev Instr.WellFormed (i : Instr) : Prop := i.wf = true

end Sys2Proof
end

