-- ==== Sys2Proof/Decode.lean ====
section
/-! DEFINITION. From command words to commands and back (30_encoding.md): the fields of a word, the opcode map, the decoder,
which rejects every illegal word by the cause R306 names, the encoder, and the rows of the opcode table. -/

namespace Sys2Proof

/-- The words of a 256-bit command word: `Wi = CW[32i+31 : 32i]` (30_encoding.md R300). -/
def CommandWord.ofBits (cw : BitVec 256) : CommandWord :=
  ⟨cw.extractLsb' 0 32, cw.extractLsb' 32 32, cw.extractLsb' 64 32, cw.extractLsb' 96 32,
   cw.extractLsb' 128 32, cw.extractLsb' 160 32, cw.extractLsb' 192 32, cw.extractLsb' 224 32⟩

/-- The 256-bit number, W7 most significant (30_encoding.md R300). -/
def CommandWord.toBits (cw : CommandWord) : BitVec 256 :=
  cw.w7 ++ cw.w6 ++ cw.w5 ++ cw.w4 ++ cw.w3 ++ cw.w2 ++ cw.w1 ++ cw.w0

/-- Word `k` of the command word, `W0` for 0; there is no word above `W7` (30_encoding.md R300). -/
def CommandWord.word (cw : CommandWord) : Nat → Word
  | 0 => cw.w0
  | 1 => cw.w1
  | 2 => cw.w2
  | 3 => cw.w3
  | 4 => cw.w4
  | 5 => cw.w5
  | 6 => cw.w6
  | 7 => cw.w7
  | _ => 0

/-- OPCODE, `W0[7:0]` (30_encoding.md R301). -/
def CommandWord.opcodeField (cw : CommandWord) : Nat := cw.w0.toNat % 256

/-- FORM, `W0[8]` (30_encoding.md R301). -/
def CommandWord.formField (cw : CommandWord) : Bool := decide (cw.w0.toNat / 256 % 2 = 1)

/-- NEG, `W0[9]` (30_encoding.md R301). -/
def CommandWord.negField (cw : CommandWord) : Bool := decide (cw.w0.toNat / 512 % 2 = 1)

/-- The reserved bits, `W0[31:10]` (30_encoding.md R301). -/
def CommandWord.reservedField (cw : CommandWord) : Nat := cw.w0.toNat / 1024

/-- The 31 opcodes (30_encoding.md R305). -/
inductive Opcode where
  | setmod | ack | fadd | fsub | fmul | fdiv | fexp | finv | fneg | vadd | vsub | vmul | vdiv | vexp | vinv | vneg
  | pseries | matmul | combine | padd | psub | pmul | pdiv | peval | zpoly | fft | ifft | lagrange | qbatch | pcycle
  | root
  deriving DecidableEq, Repr

/-- The OPCODE value of each (30_encoding.md R305). -/
def Opcode.code : Opcode → Nat
  | .setmod => 0x01
  | .ack => 0x02
  | .fadd => 0x10
  | .fsub => 0x11
  | .fmul => 0x12
  | .fdiv => 0x13
  | .fexp => 0x14
  | .finv => 0x15
  | .fneg => 0x16
  | .vadd => 0x20
  | .vsub => 0x21
  | .vmul => 0x22
  | .vdiv => 0x23
  | .vexp => 0x24
  | .vinv => 0x25
  | .vneg => 0x26
  | .pseries => 0x30
  | .matmul => 0x31
  | .combine => 0x32
  | .padd => 0x40
  | .psub => 0x41
  | .pmul => 0x42
  | .pdiv => 0x43
  | .peval => 0x44
  | .zpoly => 0x45
  | .fft => 0x50
  | .ifft => 0x51
  | .lagrange => 0x52
  | .qbatch => 0x53
  | .pcycle => 0x54
  | .root => 0x55

/-- All 31 of them. -/
def Opcode.all : List Opcode := [
   .setmod, .ack, .fadd, .fsub, .fmul, .fdiv, .fexp, .finv, .fneg, .vadd, .vsub, .vmul, .vdiv, .vexp, .vinv, .vneg,
   .pseries, .matmul, .combine, .padd, .psub, .pmul, .pdiv, .peval, .zpoly, .fft, .ifft, .lagrange, .qbatch, .pcycle,
   .root]

/-- The opcode with this OPCODE value, if it is one of the 31 (30_encoding.md R305, R306 (a)). -/
def Opcode.ofCode (n : Nat) : Option Opcode := Opcode.all.find? (fun op => op.code == n)

/-- FORM may be 1 in VADD, VSUB, VMUL, VDIV and VEXP only (30_encoding.md R301). -/
def Opcode.hasForms : Opcode → Bool
  | .vadd | .vsub | .vmul | .vdiv | .vexp => true
  | _ => false

/-- NEG may be 1 in FEXP only (30_encoding.md R301). -/
def Opcode.hasNeg : Opcode → Bool
  | .fexp => true
  | _ => false

/-- The words, other than W0, that a command uses; the second argument is FORM (30_encoding.md R304, R305). -/
def Opcode.uses : Opcode → Bool → List Nat
  | .setmod, _ => [4, 5, 6, 7]
  | .ack, _ => []
  | .fadd, _ => [1, 2, 3]
  | .fsub, _ => [1, 2, 3]
  | .fmul, _ => [1, 2, 3]
  | .fdiv, _ => [1, 2, 3]
  | .fexp, _ => [1, 2, 3]
  | .finv, _ => [1, 2]
  | .fneg, _ => [1, 2]
  | .vadd, false => [1, 2, 3, 4, 5]
  | .vadd, true => [1, 2, 4]
  | .vsub, false => [1, 2, 3, 4, 5]
  | .vsub, true => [1, 2, 4]
  | .vmul, false => [1, 2, 3, 4, 5]
  | .vmul, true => [1, 2, 4]
  | .vdiv, false => [1, 2, 3, 4, 5]
  | .vdiv, true => [1, 2, 4]
  | .vexp, false => [1, 2, 3, 4, 5]
  | .vexp, true => [1, 2, 4]
  | .vinv, _ => [1, 2, 4]
  | .vneg, _ => [1, 2, 4]
  | .pseries, _ => [1, 3, 4]
  | .matmul, _ => [1, 2, 3, 4, 5, 6, 7]
  | .combine, _ => [1, 2, 3, 4, 5]
  | .padd, _ => [1, 2, 3, 4, 5]
  | .psub, _ => [1, 2, 3, 4, 5]
  | .pmul, _ => [1, 2, 3, 4, 5]
  | .pdiv, _ => [1, 2, 3, 4, 5]
  | .peval, _ => [1, 2, 3, 4]
  | .zpoly, _ => [1, 2, 4]
  | .fft, _ => [1, 2, 3, 4, 5]
  | .ifft, _ => [1, 2, 3, 4, 5]
  | .lagrange, _ => [1, 2, 3, 4, 5]
  | .qbatch, _ => [1, 2, 3, 4, 5]
  | .pcycle, _ => [1, 3, 4]
  | .root, _ => [1, 4]

/-- Some word the command does not use is not zero (30_encoding.md R304, R306 (e)). -/
def CommandWord.unusedNonZero (cw : CommandWord) (op : Opcode) (form : Bool) : Bool :=
  [1, 2, 3, 4, 5, 6, 7].any fun k => !(op.uses form).contains k && cw.word k != 0

/-- The command an opcode, FORM and NEG stand for, with its operands (30_encoding.md R302, R303, R305). -/
def Opcode.assemble (cw : CommandWord) : Opcode → Bool → Bool → Instr
  | .setmod, _, _ =>
    .setmod (cw.w4.toNat + cw.w5.toNat * 2 ^ 32 + cw.w6.toNat * 2 ^ 64 + cw.w7.toNat * 2 ^ 96)
  | .ack, _, _ => .ack
  | .fadd, _, _ => .fadd cw.w1.toNat cw.w2.toNat cw.w3.toNat
  | .fsub, _, _ => .fsub cw.w1.toNat cw.w2.toNat cw.w3.toNat
  | .fmul, _, _ => .fmul cw.w1.toNat cw.w2.toNat cw.w3.toNat
  | .fdiv, _, _ => .fdiv cw.w1.toNat cw.w2.toNat cw.w3.toNat
  | .fexp, _, neg => .fexp neg cw.w1.toNat cw.w2.toNat cw.w3.toNat
  | .finv, _, _ => .finv cw.w1.toNat cw.w2.toNat
  | .fneg, _, _ => .fneg cw.w1.toNat cw.w2.toNat
  | .vadd, false, _ => .vaddVV cw.w1.toNat cw.w2.toNat cw.w3.toNat cw.w4.toNat cw.w5.toNat
  | .vadd, true, _ => .vaddVS cw.w1.toNat cw.w2.toNat cw.w4.toNat
  | .vsub, false, _ => .vsubVV cw.w1.toNat cw.w2.toNat cw.w3.toNat cw.w4.toNat cw.w5.toNat
  | .vsub, true, _ => .vsubVS cw.w1.toNat cw.w2.toNat cw.w4.toNat
  | .vmul, false, _ => .vmulVV cw.w1.toNat cw.w2.toNat cw.w3.toNat cw.w4.toNat cw.w5.toNat
  | .vmul, true, _ => .vmulVS cw.w1.toNat cw.w2.toNat cw.w4.toNat
  | .vdiv, false, _ => .vdivVV cw.w1.toNat cw.w2.toNat cw.w3.toNat cw.w4.toNat cw.w5.toNat
  | .vdiv, true, _ => .vdivVS cw.w1.toNat cw.w2.toNat cw.w4.toNat
  | .vexp, false, _ => .vexpVV cw.w1.toNat cw.w2.toNat cw.w3.toNat cw.w4.toNat cw.w5.toNat
  | .vexp, true, _ => .vexpVS cw.w1.toNat cw.w2.toNat cw.w4.toNat
  | .vinv, _, _ => .vinv cw.w1.toNat cw.w2.toNat cw.w4.toNat
  | .vneg, _, _ => .vneg cw.w1.toNat cw.w2.toNat cw.w4.toNat
  | .pseries, _, _ => .pseries cw.w1.toNat cw.w3.toNat cw.w4.toNat
  | .matmul, _, _ => .matmul cw.w1.toNat cw.w2.toNat cw.w3.toNat cw.w4.toNat cw.w5.toNat cw.w6.toNat cw.w7.toNat
  | .combine, _, _ => .combine cw.w1.toNat cw.w2.toNat cw.w3.toNat cw.w4.toNat cw.w5.toNat
  | .padd, _, _ => .padd cw.w1.toNat cw.w2.toNat cw.w3.toNat cw.w4.toNat cw.w5.toNat
  | .psub, _, _ => .psub cw.w1.toNat cw.w2.toNat cw.w3.toNat cw.w4.toNat cw.w5.toNat
  | .pmul, _, _ => .pmul cw.w1.toNat cw.w2.toNat cw.w3.toNat cw.w4.toNat cw.w5.toNat
  | .pdiv, _, _ => .pdiv cw.w1.toNat cw.w2.toNat cw.w3.toNat cw.w4.toNat cw.w5.toNat
  | .peval, _, _ => .peval cw.w1.toNat cw.w2.toNat cw.w3.toNat cw.w4.toNat
  | .zpoly, _, _ => .zpoly cw.w1.toNat cw.w2.toNat cw.w4.toNat
  | .fft, _, _ => .fft cw.w1.toNat cw.w2.toNat cw.w3.toNat cw.w4.toNat cw.w5.toNat
  | .ifft, _, _ => .ifft cw.w1.toNat cw.w2.toNat cw.w3.toNat cw.w4.toNat cw.w5.toNat
  | .lagrange, _, _ => .lagrange cw.w1.toNat cw.w2.toNat cw.w3.toNat cw.w4.toNat cw.w5.toNat
  | .qbatch, _, _ => .qbatch cw.w1.toNat cw.w2.toNat cw.w3.toNat cw.w4.toNat cw.w5.toNat
  | .pcycle, _, _ => .pcycle cw.w1.toNat cw.w3.toNat cw.w4.toNat
  | .root, _, _ => .root cw.w1.toNat cw.w4.toNat

/-- Why a command word is illegal: the five causes of 30_encoding.md R306, in its order. -/
inductive Illegal where
  /-- (a) OPCODE is not one of the 31 values -/
  | unknownOpcode
  /-- (b) `W0[31:10]` ≠ 0 -/
  | reservedBits
  /-- (c) FORM = 1 where it does not apply -/
  | formBit
  /-- (d) NEG = 1 where it does not apply -/
  | negBit
  /-- (e) a word the command does not use is not zero -/
  | unusedWord
  deriving DecidableEq, Repr

/-- The decoder: total, with the checks of 30_encoding.md R306 in the order (a) to (e). -/
def decode (cw : CommandWord) : Except Illegal Instr :=
  match Opcode.ofCode cw.opcodeField with
  | none => .error .unknownOpcode
  | some op =>
    if cw.reservedField ≠ 0 then .error .reservedBits
    else if cw.formField && !op.hasForms then .error .formBit
    else if cw.negField && !op.hasNeg then .error .negBit
    else if cw.unusedNonZero op cw.formField then .error .unusedWord
    else .ok (op.assemble cw cw.formField cw.negField)

/-- The instruction the decoder reads from a word of `nbits` bits, every bit above them 0; bit 0 is bit 0 of W0. -/
def decodeTableWord (nbits w : Nat) : Option Instr :=
  match decode (CommandWord.ofBits (BitVec.ofNat 256 (w % 2 ^ nbits))) with
  | .ok i => some i
  | .error _ => none

/-- An operand as a 32-bit word. -/
def wordOf (n : Nat) : Word := BitVec.ofNat 32 n

/-- The command word of a command: W0 as its rule's *Encoding* gives it, the operands in the words of 30_encoding.md R305. -/
def encode : Instr → CommandWord
  | .setmod p =>
    ⟨0x00000001, 0, 0, 0, wordOf p, wordOf (p / 2 ^ 32), wordOf (p / 2 ^ 64), wordOf (p / 2 ^ 96)⟩
  | .ack => ⟨0x00000002, 0, 0, 0, 0, 0, 0, 0⟩
  | .fadd d a b => ⟨0x00000010, wordOf d, wordOf a, wordOf b, 0, 0, 0, 0⟩
  | .fsub d a b => ⟨0x00000011, wordOf d, wordOf a, wordOf b, 0, 0, 0, 0⟩
  | .fmul d a b => ⟨0x00000012, wordOf d, wordOf a, wordOf b, 0, 0, 0, 0⟩
  | .fdiv d a b => ⟨0x00000013, wordOf d, wordOf a, wordOf b, 0, 0, 0, 0⟩
  | .fexp neg d a b => ⟨if neg then 0x00000214 else 0x00000014, wordOf d, wordOf a, wordOf b, 0, 0, 0, 0⟩
  | .finv d a => ⟨0x00000015, wordOf d, wordOf a, 0, 0, 0, 0, 0⟩
  | .fneg d a => ⟨0x00000016, wordOf d, wordOf a, 0, 0, 0, 0, 0⟩
  | .vaddVV d a b n m => ⟨0x00000020, wordOf d, wordOf a, wordOf b, wordOf n, wordOf m, 0, 0⟩
  | .vaddVS d a n => ⟨0x00000120, wordOf d, wordOf a, 0, wordOf n, 0, 0, 0⟩
  | .vsubVV d a b n m => ⟨0x00000021, wordOf d, wordOf a, wordOf b, wordOf n, wordOf m, 0, 0⟩
  | .vsubVS d a n => ⟨0x00000121, wordOf d, wordOf a, 0, wordOf n, 0, 0, 0⟩
  | .vmulVV d a b n m => ⟨0x00000022, wordOf d, wordOf a, wordOf b, wordOf n, wordOf m, 0, 0⟩
  | .vmulVS d a n => ⟨0x00000122, wordOf d, wordOf a, 0, wordOf n, 0, 0, 0⟩
  | .vdivVV d a b n m => ⟨0x00000023, wordOf d, wordOf a, wordOf b, wordOf n, wordOf m, 0, 0⟩
  | .vdivVS d a n => ⟨0x00000123, wordOf d, wordOf a, 0, wordOf n, 0, 0, 0⟩
  | .vexpVV d a b n m => ⟨0x00000024, wordOf d, wordOf a, wordOf b, wordOf n, wordOf m, 0, 0⟩
  | .vexpVS d a n => ⟨0x00000124, wordOf d, wordOf a, 0, wordOf n, 0, 0, 0⟩
  | .vinv d a n => ⟨0x00000025, wordOf d, wordOf a, 0, wordOf n, 0, 0, 0⟩
  | .vneg d a n => ⟨0x00000026, wordOf d, wordOf a, 0, wordOf n, 0, 0, 0⟩
  | .pseries d b n => ⟨0x00000030, wordOf d, 0, wordOf b, wordOf n, 0, 0, 0⟩
  | .matmul d a b n m k q => ⟨0x00000031, wordOf d, wordOf a, wordOf b, wordOf n, wordOf m, wordOf k, wordOf q⟩
  | .combine d a b n m => ⟨0x00000032, wordOf d, wordOf a, wordOf b, wordOf n, wordOf m, 0, 0⟩
  | .padd d a b n m => ⟨0x00000040, wordOf d, wordOf a, wordOf b, wordOf n, wordOf m, 0, 0⟩
  | .psub d a b n m => ⟨0x00000041, wordOf d, wordOf a, wordOf b, wordOf n, wordOf m, 0, 0⟩
  | .pmul d a b n m => ⟨0x00000042, wordOf d, wordOf a, wordOf b, wordOf n, wordOf m, 0, 0⟩
  | .pdiv d a b n m => ⟨0x00000043, wordOf d, wordOf a, wordOf b, wordOf n, wordOf m, 0, 0⟩
  | .peval d a b n => ⟨0x00000044, wordOf d, wordOf a, wordOf b, wordOf n, 0, 0, 0⟩
  | .zpoly d a n => ⟨0x00000045, wordOf d, wordOf a, 0, wordOf n, 0, 0, 0⟩
  | .fft d a b n m => ⟨0x00000050, wordOf d, wordOf a, wordOf b, wordOf n, wordOf m, 0, 0⟩
  | .ifft d a b n m => ⟨0x00000051, wordOf d, wordOf a, wordOf b, wordOf n, wordOf m, 0, 0⟩
  | .lagrange d a b n m => ⟨0x00000052, wordOf d, wordOf a, wordOf b, wordOf n, wordOf m, 0, 0⟩
  | .qbatch d a b n m => ⟨0x00000053, wordOf d, wordOf a, wordOf b, wordOf n, wordOf m, 0, 0⟩
  | .pcycle d b n => ⟨0x00000054, wordOf d, 0, wordOf b, wordOf n, 0, 0, 0⟩
  | .root d n => ⟨0x00000055, wordOf d, 0, 0, wordOf n, 0, 0, 0⟩

/-- The mnemonic of a command, as spec/opcode_table.json spells it. -/
def Instr.mnemonic : Instr → String
  | .setmod _ => "SETMOD"
  | .ack => "ACK"
  | .fadd _ _ _ => "FADD"
  | .fsub _ _ _ => "FSUB"
  | .fmul _ _ _ => "FMUL"
  | .fdiv _ _ _ => "FDIV"
  | .fexp _ _ _ _ => "FEXP"
  | .finv _ _ => "FINV"
  | .fneg _ _ => "FNEG"
  | .vaddVV _ _ _ _ _ => "VADD.VV"
  | .vaddVS _ _ _ => "VADD.VS"
  | .vsubVV _ _ _ _ _ => "VSUB.VV"
  | .vsubVS _ _ _ => "VSUB.VS"
  | .vmulVV _ _ _ _ _ => "VMUL.VV"
  | .vmulVS _ _ _ => "VMUL.VS"
  | .vdivVV _ _ _ _ _ => "VDIV.VV"
  | .vdivVS _ _ _ => "VDIV.VS"
  | .vexpVV _ _ _ _ _ => "VEXP.VV"
  | .vexpVS _ _ _ => "VEXP.VS"
  | .vinv _ _ _ => "VINV"
  | .vneg _ _ _ => "VNEG"
  | .pseries _ _ _ => "PSERIES"
  | .matmul _ _ _ _ _ _ _ => "MATMUL"
  | .combine _ _ _ _ _ => "COMBINE"
  | .padd _ _ _ _ _ => "PADD"
  | .psub _ _ _ _ _ => "PSUB"
  | .pmul _ _ _ _ _ => "PMUL"
  | .pdiv _ _ _ _ _ => "PDIV"
  | .peval _ _ _ _ => "PEVAL"
  | .zpoly _ _ _ => "ZPOLY"
  | .fft _ _ _ _ _ => "FFT"
  | .ifft _ _ _ _ _ => "IFFT"
  | .lagrange _ _ _ _ _ => "LAGRANGE"
  | .qbatch _ _ _ _ _ => "QBATCH"
  | .pcycle _ _ _ => "PCYCLE"
  | .root _ _ => "ROOT"

/-- One row of spec/opcode_table.json. -/
structure OpcodeRow where
  /-- the row's name -/
  mnemonic : String
  /-- `match(M)`, of W0 -/
  w0Match : Word
  /-- `mask(M)`, of W0 -/
  w0Mask : Word
  /-- the numbers of M's must-be-zero words -/
  mustBeZero : List Nat
  deriving DecidableEq, Repr

/-- The 36 rows of spec/opcode_table.json (30_encoding.md R305). -/
def opcodeRows : List OpcodeRow :=
  [
    ⟨"SETMOD", 0x00000001, 0xFFFFFFFF, [1, 2, 3]⟩,
    ⟨"ACK", 0x00000002, 0xFFFFFFFF, [1, 2, 3, 4, 5, 6, 7]⟩,
    ⟨"FADD", 0x00000010, 0xFFFFFFFF, [4, 5, 6, 7]⟩,
    ⟨"FSUB", 0x00000011, 0xFFFFFFFF, [4, 5, 6, 7]⟩,
    ⟨"FMUL", 0x00000012, 0xFFFFFFFF, [4, 5, 6, 7]⟩,
    ⟨"FDIV", 0x00000013, 0xFFFFFFFF, [4, 5, 6, 7]⟩,
    ⟨"FEXP", 0x00000014, 0xFFFFFDFF, [4, 5, 6, 7]⟩,
    ⟨"FINV", 0x00000015, 0xFFFFFFFF, [3, 4, 5, 6, 7]⟩,
    ⟨"FNEG", 0x00000016, 0xFFFFFFFF, [3, 4, 5, 6, 7]⟩,
    ⟨"VADD.VV", 0x00000020, 0xFFFFFFFF, [6, 7]⟩,
    ⟨"VADD.VS", 0x00000120, 0xFFFFFFFF, [3, 5, 6, 7]⟩,
    ⟨"VSUB.VV", 0x00000021, 0xFFFFFFFF, [6, 7]⟩,
    ⟨"VSUB.VS", 0x00000121, 0xFFFFFFFF, [3, 5, 6, 7]⟩,
    ⟨"VMUL.VV", 0x00000022, 0xFFFFFFFF, [6, 7]⟩,
    ⟨"VMUL.VS", 0x00000122, 0xFFFFFFFF, [3, 5, 6, 7]⟩,
    ⟨"VDIV.VV", 0x00000023, 0xFFFFFFFF, [6, 7]⟩,
    ⟨"VDIV.VS", 0x00000123, 0xFFFFFFFF, [3, 5, 6, 7]⟩,
    ⟨"VEXP.VV", 0x00000024, 0xFFFFFFFF, [6, 7]⟩
  ] ++ [
    ⟨"VEXP.VS", 0x00000124, 0xFFFFFFFF, [3, 5, 6, 7]⟩,
    ⟨"VINV", 0x00000025, 0xFFFFFFFF, [3, 5, 6, 7]⟩,
    ⟨"VNEG", 0x00000026, 0xFFFFFFFF, [3, 5, 6, 7]⟩,
    ⟨"PSERIES", 0x00000030, 0xFFFFFFFF, [2, 5, 6, 7]⟩,
    ⟨"MATMUL", 0x00000031, 0xFFFFFFFF, []⟩,
    ⟨"COMBINE", 0x00000032, 0xFFFFFFFF, [6, 7]⟩,
    ⟨"PADD", 0x00000040, 0xFFFFFFFF, [6, 7]⟩,
    ⟨"PSUB", 0x00000041, 0xFFFFFFFF, [6, 7]⟩,
    ⟨"PMUL", 0x00000042, 0xFFFFFFFF, [6, 7]⟩,
    ⟨"PDIV", 0x00000043, 0xFFFFFFFF, [6, 7]⟩,
    ⟨"PEVAL", 0x00000044, 0xFFFFFFFF, [5, 6, 7]⟩,
    ⟨"ZPOLY", 0x00000045, 0xFFFFFFFF, [3, 5, 6, 7]⟩,
    ⟨"FFT", 0x00000050, 0xFFFFFFFF, [6, 7]⟩,
    ⟨"IFFT", 0x00000051, 0xFFFFFFFF, [6, 7]⟩,
    ⟨"LAGRANGE", 0x00000052, 0xFFFFFFFF, [6, 7]⟩,
    ⟨"QBATCH", 0x00000053, 0xFFFFFFFF, [6, 7]⟩,
    ⟨"PCYCLE", 0x00000054, 0xFFFFFFFF, [2, 5, 6, 7]⟩,
    ⟨"ROOT", 0x00000055, 0xFFFFFFFF, [2, 3, 5, 6, 7]⟩
  ]

/-- The decoder's rule of 30_encoding.md R305: `W0 & mask(M) = match(M)` and all of M's must-be-zero words are 0. -/
def OpcodeRow.admits (r : OpcodeRow) (cw : CommandWord) : Bool :=
  cw.w0 &&& r.w0Mask == r.w0Match && r.mustBeZero.all fun k => cw.word k == 0

end Sys2Proof
end

