-- ==== Sys2Proof/Machine/State.lean ====
section
/-! DEFINITION. The state of the GF128 core (10_state.md) with the actions of the outside world that are still to come, the
reasons a step can stop, and the state after reset. -/

namespace Sys2Proof.Machine

/-- The values of `STATE` (10_state.md R105). The value 3 is "never taken", so the type has three values
(93_implementation_defined.md U8). -/
inductive EngineState where
  /-- 0: a command may be issued -/
  | idle
  /-- 1: a command is executing -/
  | busy
  /-- 2: the last executed command failed and has not been acknowledged -/
  | error
  deriving DecidableEq, Repr

/-- The errors of 60_exceptions.md R601, by name. -/
inductive ErrorCode where
  | invalidArgument | dimensionMismatch | invalidDomain
  /-- kept for the source's taxonomy; no command raises it (R603) -/
  | outOfRange
  | notFound | illegalCommand | notConfigured | alreadyConfigured | badAddress | overlap | capacityExceeded
  deriving DecidableEq, Repr

/-- Linear memory (10_state.md R110) as the bytes that something has written since the last reset: pairs of offset and byte,
offsets strictly rising (`Memory.wf`). An offset that is not listed holds no known value (log 2). -/
abbrev Memory := List Host.Cell

/-- What the outside world does to the block, one action at a time (10_state.md R121 to R123, 70_reset_and_hazards.md R700). -/
inductive PortEvent where
  /-- the host presents a command word on the command port (R121) -/
  | command (cw : CommandWord)
  /-- the host writes bytes from an offset upwards on the memory port (R122) -/
  | write (offset : Nat) (bytes : List Byte)
  /-- the host reads `count` bytes from an offset upwards on the memory port (R122) -/
  | read (offset count : Nat)
  /-- the host reads a register by number on the read port (R123) -/
  | readRegister (number : Nat)
  /-- the reset input strikes (70_reset_and_hazards.md R700) -/
  | reset
  deriving DecidableEq, Repr

/-- What a read port has answered the host (10_state.md R122, R123). -/
inductive PortReply where
  /-- the bytes read from an offset upwards -/
  | bytes (offset : Nat) (values : List Byte)
  /-- the value of a register of the read port -/
  | register (number : Nat) (value : Word)
  deriving DecidableEq, Repr

/-- The block's state (10_state.md R102 to R111), MEM_BYTES, and the model's own fields. -/
structure State where
  /-- `STATE` (10_state.md R105) -/
  state : EngineState
  /-- `CONFIGURED` (R104) -/
  configured : Bool
  /-- `P`, the modulus (R102) -/
  p : BitVec 128
  /-- `ES`, the element size in bytes (R103) -/
  es : BitVec 5
  /-- `ERR` (R106) -/
  err : BitVec 8
  /-- `ERRINFO` (R107) -/
  errinfo : Word
  /-- `RLEN` (R108) -/
  rlen : Word
  /-- `MEM` (R110), the scratch slot included (R111) -/
  mem : Memory
  /-- MEM_BYTES, a parameter of the block the spec leaves OPEN (00_scope.md R6); no step changes it (log 1) -/
  memBytes : Nat
  /-- the model's own: how many reset events have struck; picks the free contents of MEM (log 3) -/
  resets : Nat
  /-- the model's own: the actions of the host and of the reset input still to come, the next one first (log 4) -/
  pending : List PortEvent
  /-- the model's own: what the read ports have answered, the newest first (log 5) -/
  seen : List PortReply
  deriving DecidableEq, Repr

/-- Why the machine stops with a fault. -/
inductive Fault where
  /-- Raised by the memory port (`hostWrite`, `hostRead`) for a byte at an offset ≥ MEM_BYTES, which does not exist:
  10_state.md R122, "A host access at an offset ≥ MEM_BYTES has no meaning; a model refuses it." Safe: the model stops
  where the spec gives the move no meaning (log 8). No command raises it. -/
  | hostOffsetBeyondMem
  deriving DecidableEq, Repr

/-- Why the machine refuses a step. -/
inductive Refusal where
  /-- Raised by an arm of `exec` that has no meaning yet, with the row's mnemonic. Safe. No arm is left that raises it. -/
  | notModelled (mnemonic : String)
  /-- Raised by the memory port (`hostWrite`, `hostRead`) while STATE = BUSY: 10_state.md R122, "While `STATE = BUSY` the host
  must not access MEM"; 93_implementation_defined.md U5, `refuse`. Safe (log 7). No command raises it. -/
  | hostMemWhileBusy
  deriving DecidableEq, Repr

/-- The state right after reset (10_state.md R116): every register as the table there gives it, and MEM unspecified, so
nothing is listed (log 2). `memBytes`, `resets`, `pending` and `seen` are the model's (log 1, 3, 4, 5). -/
def State.reset : State where
  state := .idle
  configured := false
  p := 0
  es := 0
  err := 0
  errinfo := 0
  rlen := 0
  mem := []
  memBytes := Config.resetMemBytes
  resets := 0
  pending := []
  seen := []

end Sys2Proof.Machine
end

