-- ==== Sys2Proof/Machine/Ops.lean ====
section
/-! DEFINITION. The named operations over memory and registers (20_memory.md), error entry and the return from it
(60_exceptions.md R610 to R612), and the stages every command goes through (60_exceptions.md R620). -/

namespace Sys2Proof.Machine

/-! ### Memory -/

/-- The canonical form of a memory: offsets strictly rising. An unlisted offset holds no value, so no entry can equal what an
unlisted one holds. -/
abbrev Memory.wf (m : Memory) : Prop := m.Pairwise fun c d => c.1 < d.1

/-- The byte listed at an offset, if one is. -/
def Memory.get? : Memory → Nat → Option Byte
  | [], _ => none
  | (k, b) :: m, a => if a = k then some b else Memory.get? m a

/-- Lists byte `b` at offset `a`, in place. -/
def Memory.set : Memory → Nat → Byte → Memory
  | [], a, b => [(a, b)]
  | (k, c) :: m, a, b =>
    if a < k then (a, b) :: (k, c) :: m
    else if a = k then (a, b) :: m
    else (k, c) :: Memory.set m a b

/-- `MEM[a]`: the listed byte, or the free value of a byte nothing has written since the last reset (10_state.md R116). -/
def State.byteAt (s : State) (a : Nat) : Byte := (s.mem.get? a).getD (Config.freeByte s.resets a)

/-- `MemRead(addr, n)`: the little-endian number of the `n` bytes from `addr` upwards (20_memory.md R202). -/
def State.memRead (s : State) : Nat → Nat → Nat
  | _, 0 => 0
  | addr, n + 1 => (s.byteAt addr).toNat + 256 * s.memRead (addr + 1) n

/-- `MemWrite(addr, n, v)`: byte `k` of `v` to `MEM[addr + k]` for k < n (20_memory.md R203). -/
def Memory.write : Memory → Nat → Nat → Nat → Memory
  | m, _, 0, _ => m
  | m, addr, n + 1, v => Memory.write (m.set addr (BitVec.ofNat 8 v)) (addr + 1) n (v / 256)

/-- `StoreF(base, i, v_i)` for every element of the list, from index 0 upwards (20_memory.md R207, R201). -/
def Memory.store (es : Nat) : Memory → Nat → List Nat → Memory
  | m, _, [] => m
  | m, base, v :: vs => Memory.store es (m.write base es v) (base + es) vs

/-! ### Byte ranges: the bounds check and the overlap check -/

/-- A run of consecutive bytes `[base, base + len)` of MEM (20_memory.md R211). -/
structure ByteRange where
  base : Nat
  len : Nat
  deriving DecidableEq, Repr

/-- `Region(base, n)`: the bytes of `n` elements (20_memory.md R211). -/
def region (es base n : Nat) : ByteRange := ⟨base, n * es⟩

/-- The scratch region `[0, 16)` (20_memory.md R211, 10_state.md R111). -/
def scratchRange : ByteRange := ⟨Config.scratchBase, Config.scratchBytes⟩

/-- A non-empty range that ends beyond MEM_BYTES (20_memory.md R212), in unbounded integers (R213). -/
def ByteRange.outOfBounds (r : ByteRange) (memBytes : Nat) : Bool :=
  decide (0 < r.len ∧ memBytes < r.base + r.len)

/-- Two non-empty ranges share a byte (20_memory.md R214). -/
def ByteRange.overlaps (r q : ByteRange) : Bool :=
  decide (0 < r.len ∧ 0 < q.len ∧ r.base < q.base + q.len ∧ q.base < r.base + r.len)

/-! ### Error entry, return and completion -/

/-- The value written to ERR for each error (60_exceptions.md R601). -/
def ErrorCode.code : ErrorCode → BitVec 8
  | .invalidArgument => 1
  | .dimensionMismatch => 2
  | .invalidDomain => 3
  | .outOfRange => 4
  | .notFound => 5
  | .illegalCommand => 8
  | .notConfigured => 9
  | .alreadyConfigured => 10
  | .badAddress => 11
  | .overlap => 12
  | .capacityExceeded => 13

/-- Error entry (60_exceptions.md R610): ERR, ERRINFO = W0 of the failing command, RLEN = 0, STATE = ERROR; nothing else. -/
def raise (e : ErrorCode) (w0 : Word) (s : State) : State :=
  { s with err := e.code, errinfo := w0, rlen := 0, state := .error }

/-- ERR <- 0; ERRINFO <- 0; STATE <- IDLE: the return from the ERROR state (60_exceptions.md R612), and what every
successful command does as well (R611). -/
def acknowledge (s : State) : State :=
  { s with err := 0, errinfo := 0, state := .idle }

/-- Successful completion of a data command (60_exceptions.md R611): the elements are stored at the destination, RLEN is
their number (10_state.md R108), and ERR, ERRINFO, STATE as every success leaves them. -/
def commit (dst : Nat) (vals : List Nat) (s : State) : State :=
  acknowledge { s with mem := s.mem.store s.es.toNat dst vals, rlen := BitVec.ofNat 32 vals.length }

/-- Stage 1 of 60_exceptions.md R620: a command runs only in IDLE. In BUSY the word is not accepted and has no effect
(10_state.md R121); in ERROR every word but ACK is dropped (60_exceptions.md R612). -/
def accept (run : State → State) (s : State) : State :=
  match s.state with
  | .idle => run s
  | .busy => s
  | .error => s

/-! ### The stages of a data command -/

/-- What a data command's rule fixes before it reads MEM: its own checks and its regions (00_scope.md R9). -/
structure Shape where
  /-- stage 4: the first of its own checks that fails, if one does -/
  check : Option ErrorCode
  /-- DST -/
  dst : Nat
  /-- how many elements its destination region has -/
  count : Nat
  /-- the offset and element count of each source region, SRC_A's before SRC_B's -/
  sources : List (Nat × Nat)
  /-- stage 5: the command's own rule has the bounds check fail, for a destination of 2^32 elements or more (log 18): ZPOLY
  (44_polynomial.md R466), MATMUL (43_bulk.md R451), QBATCH (45_fft_interp.md R488) -/
  tooMany : Bool
  deriving DecidableEq, Repr

/-- Stage 5 (20_memory.md R212): some non-empty region, destination or source, ends beyond MEM_BYTES; or the command's own rule
has the check fail for the number of its elements. DESIGN CHOICE (log 18): the latter decides where a destination of exactly 2^32
one-byte elements fills a MEM of 2^32 bytes, which R212 by itself lets pass. -/
def Shape.outOfBounds (sh : Shape) (es memBytes : Nat) : Bool :=
  sh.tooMany || ((sh.dst, sh.count) :: sh.sources).any fun r => (region es r.1 r.2).outOfBounds memBytes

/-- Stage 6 (20_memory.md R214): the destination region shares a byte with a source region or with the scratch slot. -/
def Shape.aliased (sh : Shape) (es : Nat) : Bool :=
  let d := region es sh.dst sh.count
  (sh.sources.any fun r => d.overlaps (region es r.1 r.2)) || d.overlaps scratchRange

/-- Stages 3 to 8 of 60_exceptions.md R620 for the data command `i`: configuration, its own checks, bounds, overlap,
evaluation (which reads MEM and may raise), commit. -/
def dataStages (i : Instr) (sh : Shape) (eval : State → Except ErrorCode (List Nat)) (s : State) : State :=
  let w0 := (encode i).w0
  if s.configured = false then raise .notConfigured w0 s
  else
    match sh.check with
    | some e => raise e w0 s
    | none =>
      if sh.outOfBounds s.es.toNat s.memBytes then raise .badAddress w0 s
      else if sh.aliased s.es.toNat then raise .overlap w0 s
      else
        match eval s with
        | .error e => raise e w0 s
        | .ok vals => commit sh.dst vals s

/-- A data command, presented on the command port. -/
def runData (i : Instr) (sh : Shape) (eval : State → Except ErrorCode (List Nat)) (s : State) :
    Host.Outcome State Fault Refusal :=
  .next (accept (dataStages i sh eval) s)

end Sys2Proof.Machine
end

