-- ==== Sys2Proof/Machine/Operands.lean ====
section
/-! DEFINITION. The operand forms: elements and arrays in MEM, reduced or raw, and the scratch slot (20_memory.md R200 to R209). -/

namespace Sys2Proof.Machine

/-- The modulus P as a number (10_state.md R102). -/
def State.modulus (s : State) : Nat := s.p.toNat

/-- The element size ES as a number (10_state.md R103). -/
def State.elemBytes (s : State) : Nat := s.es.toNat

/-- `LoadRaw(base, i)`: element `i` of the array at `base` as stored (20_memory.md R205). -/
def loadRaw (s : State) (base i : Nat) : Nat := s.memRead (base + i * s.elemBytes) s.elemBytes

/-- `LoadF(base, i)`: the element reduced modulo P (20_memory.md R206). -/
def loadF (s : State) (base i : Nat) : Nat := loadRaw s base i % s.modulus

/-- `LoadF(base, 0 .. n−1)`. -/
def loadArray (s : State) (base n : Nat) : List Nat := (List.range n).map (loadF s base)

/-- `LoadRaw(base, 0 .. n−1)`: an array of integers, not field elements (20_memory.md R205). -/
def loadRawArray (s : State) (base n : Nat) : List Nat := (List.range n).map (loadRaw s base)

/-- `Scratch()`: the whole 16-byte slot as an integer, whatever ES is (20_memory.md R209). -/
def scratch (s : State) : Nat := s.memRead Config.scratchBase Config.scratchBytes

/-- The scratch slot as a field operand: `Scratch() mod P` (20_memory.md R209). -/
def scratchF (s : State) : Nat := scratch s % s.modulus

/-- `row·cols + col` elements, row by row: a matrix operand with `cols` columns (20_memory.md R201). -/
def loadRows (s : State) (base rows cols : Nat) : List (List Nat) :=
  (List.range rows).map fun r => (List.range cols).map fun c => loadF s base (r * cols + c)

/-- A scalar command's regions: one element at DST and one at each source (41_field_ops.md R420, R424). -/
def scalarShape (dst : Nat) (sources : List Nat) : Shape := ⟨none, dst, 1, sources.map fun a => (a, 1), false⟩

/-- A failed check raises its error; a passed one nothing (60_exceptions.md R620 stage 4). -/
def require (ok : Bool) (e : ErrorCode) : Option ErrorCode := if ok then none else some e

/-- `n` is a power of two; 0 is not one (45_fft_interp.md R482, 46_roots_twiddle.md R501). -/
def isPowerOfTwo (n : Nat) : Bool := n == 2 ^ Nat.log2 n

/-- The results of the lanes, or the first error among them: "no partial results" (20_memory.md R223, 42_elementwise.md R435). -/
def collect : List (Except ErrorCode Nat) → Except ErrorCode (List Nat)
  | [] => .ok []
  | .error e :: _ => .error e
  | .ok v :: rest =>
    match collect rest with
    | .error e => .error e
    | .ok vs => .ok (v :: vs)

end Sys2Proof.Machine
end

