-- ==== Sys2Proof/Machine/Flags.lean ====
section
/-! DEFINITION. The block keeps no condition flags (10_state.md R112); its status bits are those of the STATUS register. This
file composes STATUS and the other registers of the read port (10_state.md R109). -/

namespace Sys2Proof.Machine

/-- The value of `STATE` (10_state.md R105). -/
def EngineState.code : EngineState → BitVec 2
  | .idle => 0
  | .busy => 1
  | .error => 2

/-- Register 0, STATUS: [1:0] STATE, [2] CONFIGURED, [7:3] zero, [15:8] ERR, [31:16] zero (10_state.md R109). -/
def statusRegister (s : State) : Word :=
  0#16 ++ s.err ++ 0#5 ++ BitVec.ofBool s.configured ++ s.state.code

/-- The register map of the read port; numbers above 7 read as 0 (10_state.md R109). -/
def readRegister (s : State) : Nat → Word
  | 0 => statusRegister s
  | 1 => s.errinfo
  | 2 => s.rlen
  | 3 => 0#27 ++ s.es
  | 4 => s.p.extractLsb' 0 32
  | 5 => s.p.extractLsb' 32 32
  | 6 => s.p.extractLsb' 64 32
  | 7 => s.p.extractLsb' 96 32
  | _ => 0

end Sys2Proof.Machine
end

