-- ==== Sys2Proof/Machine/WideInt.lean ====
section
/-! DEFINITION. The wide-integer primitives, L0 (40_wide_integer.md), each as the stated value on natural numbers (R406). -/

namespace Sys2Proof.Machine

/-- `add128(a, b) -> (sum, carry)` (40_wide_integer.md R400). -/
def add128 (a b : Nat) : Nat × Nat := ((a + b) % 2 ^ 128, (a + b) / 2 ^ 128)

/-- `sub128(a, b) -> (diff, borrow)`: `a − b = diff − borrow·2^128` (40_wide_integer.md R401). -/
def sub128 (a b : Nat) : Nat × Nat := ((a + 2 ^ 128 - b) % 2 ^ 128, if a < b then 1 else 0)

/-- `mul128x128(a, b) -> u256`, the exact product (40_wide_integer.md R402). -/
def mul128x128 (a b : Nat) : Nat := a * b

/-- `mod256_by_128(x, p)` (40_wide_integer.md R403). -/
def mod256by128 (x p : Nat) : Nat := x % p

/-- `mod128(x, p)`: `x mod p` (40_wide_integer.md R404). -/
def mod128 (x p : Nat) : Nat := x % p

/-- The extended Euclidean algorithm on signed accumulators (40_wide_integer.md R405): from remainders `r0, r1` and
accumulators `t0, t1`, the last non-zero remainder and its accumulator. The first argument bounds the steps; `r1 + 1` is
always enough, since the second remainder falls at every step. -/
def euclid : Nat → Nat → Nat → Int → Int → Nat × Int
  | 0, r0, _, t0, _ => (r0, t0)
  | fuel + 1, r0, r1, t0, t1 =>
    if r1 = 0 then (r0, t0) else euclid fuel r1 (r0 % r1) t1 (t0 - ((r0 / r1 : Nat) : Int) * t1)

/-- `modinv128(a, p)` (40_wide_integer.md R405): 0 for 0; the inverse of `a` modulo `p` where there is one; otherwise, which
needs a composite p, an unspecified value in [0, p) (93_implementation_defined.md U2, log 9). -/
def modinv128 (a p : Nat) : Nat :=
  if a = 0 then 0
  else
    let (g, t) := euclid (a + 1) p a 0 1
    if g = 1 then (t % (p : Int)).toNat else Config.freeInverse p a % p

end Sys2Proof.Machine
end

