-- ==== Sys2Proof/Machine/FieldFunctions.lean ====
section
/-! DEFINITION. The field functions, L1 (41_field_ops.md R410 to R418), on canonical elements of GF(p); and the source's own
recipes for add and sub, which agree with them on canonical elements (90_conflicts.md C3). -/

namespace Sys2Proof.Machine

/-- `add(x, y) = (x + y) mod p`: sum and carry joined, then reduced (41_field_ops.md R410, 40_wide_integer.md R404). -/
def fieldAdd (p x y : Nat) : Nat :=
  let (sum, carry) := add128 x y
  mod128 (carry * 2 ^ 128 + sum) p

/-- `sub(x, y) = (x − y) mod p` (41_field_ops.md R411). -/
def fieldSub (p x y : Nat) : Nat := mod128 (x + (p - y % p)) p

/-- `mul(x, y) = mod256_by_128(mul128x128(x, y), p)` (41_field_ops.md R412). -/
def fieldMul (p x y : Nat) : Nat := mod256by128 (mul128x128 x y) p

/-- `inv(x) = modinv128(x, p)`, with `inv(0) = 0` (41_field_ops.md R413). -/
def fieldInv (p x : Nat) : Nat := modinv128 x p

/-- `div(x, y) = mul(x, inv(y))` (41_field_ops.md R414). -/
def fieldDiv (p x y : Nat) : Nat := fieldMul p x (fieldInv p y)

/-- `neg(x) = (p − x) mod p` (41_field_ops.md R415). -/
def fieldNeg (p x : Nat) : Nat := mod128 (p - x % p) p

/-- The loop of right-to-left square-and-multiply (41_field_ops.md R417). The first argument bounds the rounds; `k` is always
enough, since `k` at least halves in each. -/
def powLoop (p : Nat) : Nat → Nat → Nat → Nat → Nat
  | 0, r, _, _ => r
  | fuel + 1, r, s, k =>
    if k = 0 then r
    else powLoop p fuel (if k % 2 = 1 then fieldMul p r s else r) (fieldMul p s s) (k / 2)

/-- `pow(b, m)` (41_field_ops.md R416, R417). -/
def fieldPow (p b m : Nat) : Nat := powLoop p m 1 b m

/-- `exp(b, e)` for a signed exponent (41_field_ops.md R418): a negative one inverts the base; 0 to the 0 is the one error. -/
def fieldExp (p b : Nat) (e : Int) : Except ErrorCode Nat :=
  let base := if e < 0 then fieldInv p b else b
  let m := e.natAbs
  if m = 0 ∧ base = 0 then .error .invalidArgument else .ok (fieldPow p base m)

/-- The source's recipe for `add` (41_field_ops.md R410): `add128`, then subtract p when carry or result ≥ p. -/
def addRecipe (p x y : Nat) : Nat :=
  let (sum, carry) := add128 x y
  if carry = 1 ∨ p ≤ sum then (sub128 sum p).1 else sum

/-- The source's recipe for `sub` (41_field_ops.md R411): `sub128`, then add p on borrow. -/
def subRecipe (p x y : Nat) : Nat :=
  let (diff, borrow) := sub128 x y
  if borrow = 1 then (add128 diff p).1 else diff

end Sys2Proof.Machine
end

