-- ==== Sys2Proof/Machine/Scalar.lean ====
section
/-! DEFINITION. The scalar commands (41_field_ops.md R420 to R426). -/

namespace Sys2Proof.Machine

/-- FADD (41_field_ops.md R420). -/
def execFadd (dst a b : Nat) (s : State) : Host.Outcome State Fault Refusal :=
  runData (.fadd dst a b) (scalarShape dst [a, b])
    (fun s => .ok [fieldAdd s.modulus (loadF s a 0) (loadF s b 0)]) s

/-- FSUB: SRC_A is the minuend (41_field_ops.md R421). -/
def execFsub (dst a b : Nat) (s : State) : Host.Outcome State Fault Refusal :=
  runData (.fsub dst a b) (scalarShape dst [a, b])
    (fun s => .ok [fieldSub s.modulus (loadF s a 0) (loadF s b 0)]) s

/-- FMUL (41_field_ops.md R422). -/
def execFmul (dst a b : Nat) (s : State) : Host.Outcome State Fault Refusal :=
  runData (.fmul dst a b) (scalarShape dst [a, b])
    (fun s => .ok [fieldMul s.modulus (loadF s a 0) (loadF s b 0)]) s

/-- FDIV: SRC_A is the dividend (41_field_ops.md R423). -/
def execFdiv (dst a b : Nat) (s : State) : Host.Outcome State Fault Refusal :=
  runData (.fdiv dst a b) (scalarShape dst [a, b])
    (fun s => .ok [fieldDiv s.modulus (loadF s a 0) (loadF s b 0)]) s

/-- The signed exponent of FEXP: the raw magnitude, negative when NEG = 1 (41_field_ops.md R426). -/
def signedExponent (neg : Bool) (m : Nat) : Int := if neg then -(m : Int) else m

/-- FEXP: the base reduced, the exponent raw (41_field_ops.md R426). -/
def execFexp (neg : Bool) (dst a b : Nat) (s : State) : Host.Outcome State Fault Refusal :=
  runData (.fexp neg dst a b) (scalarShape dst [a, b])
    (fun s => collect [fieldExp s.modulus (loadF s a 0) (signedExponent neg (loadRaw s b 0))]) s

/-- FINV (41_field_ops.md R424). -/
def execFinv (dst a : Nat) (s : State) : Host.Outcome State Fault Refusal :=
  runData (.finv dst a) (scalarShape dst [a]) (fun s => .ok [fieldInv s.modulus (loadF s a 0)]) s

/-- FNEG (41_field_ops.md R425). -/
def execFneg (dst a : Nat) (s : State) : Host.Outcome State Fault Refusal :=
  runData (.fneg dst a) (scalarShape dst [a]) (fun s => .ok [fieldNeg s.modulus (loadF s a 0)]) s

end Sys2Proof.Machine
end

