-- ==== Sys2Proof/Machine/Elementwise.lean ====
section
/-! DEFINITION. The elementwise array commands and batch inversion (42_elementwise.md). -/

namespace Sys2Proof.Machine

/-- The shape of a vv form (42_elementwise.md R430): equal lengths, or DIMENSION_MISMATCH; two source arrays. -/
def vvShape (dst a b n0 n1 : Nat) : Shape :=
  ⟨require (n0 == n1) .dimensionMismatch, dst, n0, [(a, n0), (b, n1)], false⟩

/-- The shape of a vs form (42_elementwise.md R430). The scratch slot, its second source, is checked against every
destination in any case (20_memory.md R214) and always in bounds (R212). -/
def vsShape (dst a n0 : Nat) : Shape := ⟨none, dst, n0, [(a, n0)], false⟩

/-- The shape of an elementwise command of one operand (42_elementwise.md R436, R438). -/
def unaryShape (dst a n0 : Nat) : Shape := ⟨none, dst, n0, [(a, n0)], false⟩

/-- The lanes of a vv form of a field function (42_elementwise.md R430). -/
def lanesVV (f : Nat → Nat → Nat → Nat) (a b n0 : Nat) (s : State) : Except ErrorCode (List Nat) :=
  .ok ((List.range n0).map fun i => f s.modulus (loadF s a i) (loadF s b i))

/-- The lanes of a vs form of a field function: the scratch slot reduced, the same for every lane (42_elementwise.md R430). -/
def lanesVS (f : Nat → Nat → Nat → Nat) (a n0 : Nat) (s : State) : Except ErrorCode (List Nat) :=
  .ok ((List.range n0).map fun i => f s.modulus (loadF s a i) (scratchF s))

/-- VADD.VV (42_elementwise.md R431). -/
def execVaddVV (dst a b n0 n1 : Nat) (s : State) : Host.Outcome State Fault Refusal :=
  runData (.vaddVV dst a b n0 n1) (vvShape dst a b n0 n1) (lanesVV fieldAdd a b n0) s

/-- VADD.VS (42_elementwise.md R431). -/
def execVaddVS (dst a n0 : Nat) (s : State) : Host.Outcome State Fault Refusal :=
  runData (.vaddVS dst a n0) (vsShape dst a n0) (lanesVS fieldAdd a n0) s

/-- VSUB.VV (42_elementwise.md R432). -/
def execVsubVV (dst a b n0 n1 : Nat) (s : State) : Host.Outcome State Fault Refusal :=
  runData (.vsubVV dst a b n0 n1) (vvShape dst a b n0 n1) (lanesVV fieldSub a b n0) s

/-- VSUB.VS: the scalar is subtracted from every lane (42_elementwise.md R432). -/
def execVsubVS (dst a n0 : Nat) (s : State) : Host.Outcome State Fault Refusal :=
  runData (.vsubVS dst a n0) (vsShape dst a n0) (lanesVS fieldSub a n0) s

/-- VMUL.VV (42_elementwise.md R433). -/
def execVmulVV (dst a b n0 n1 : Nat) (s : State) : Host.Outcome State Fault Refusal :=
  runData (.vmulVV dst a b n0 n1) (vvShape dst a b n0 n1) (lanesVV fieldMul a b n0) s

/-- VMUL.VS (42_elementwise.md R433). -/
def execVmulVS (dst a n0 : Nat) (s : State) : Host.Outcome State Fault Refusal :=
  runData (.vmulVS dst a n0) (vsShape dst a n0) (lanesVS fieldMul a n0) s

/-- VDIV.VV (42_elementwise.md R434). -/
def execVdivVV (dst a b n0 n1 : Nat) (s : State) : Host.Outcome State Fault Refusal :=
  runData (.vdivVV dst a b n0 n1) (vvShape dst a b n0 n1) (lanesVV fieldDiv a b n0) s

/-- VDIV.VS (42_elementwise.md R434). -/
def execVdivVS (dst a n0 : Nat) (s : State) : Host.Outcome State Fault Refusal :=
  runData (.vdivVS dst a n0) (vsShape dst a n0) (lanesVS fieldDiv a n0) s

/-- VEXP.VV: exponents raw and non-negative (42_elementwise.md R435). -/
def execVexpVV (dst a b n0 n1 : Nat) (s : State) : Host.Outcome State Fault Refusal :=
  runData (.vexpVV dst a b n0 n1) (vvShape dst a b n0 n1)
    (fun s => collect ((List.range n0).map fun i => fieldExp s.modulus (loadF s a i) (loadRaw s b i))) s

/-- VEXP.VS: the exponent is the raw scratch slot (42_elementwise.md R435). -/
def execVexpVS (dst a n0 : Nat) (s : State) : Host.Outcome State Fault Refusal :=
  runData (.vexpVS dst a n0) (vsShape dst a n0)
    (fun s => collect ((List.range n0).map fun i => fieldExp s.modulus (loadF s a i) (scratch s))) s

/-- VNEG (42_elementwise.md R436). -/
def execVneg (dst a n0 : Nat) (s : State) : Host.Outcome State Fault Refusal :=
  runData (.vneg dst a n0) (unaryShape dst a n0)
    (fun s => .ok ((loadArray s a n0).map (fieldNeg s.modulus))) s

/-- `batch_inv(v)` (42_elementwise.md R437): `w[i] = inv(v[i])`, zeros mapped to zero. Where some element has no inverse,
possible only for a composite P, the one inversion the source makes is of an element without an inverse, and every non-zero
lane is unspecified (93_implementation_defined.md U2, log 10). -/
def batchInv (p : Nat) (v : List Nat) : List Nat :=
  if v.all fun x => x == 0 || Nat.gcd x p == 1 then v.map (fieldInv p)
  else (List.range v.length).map fun i => if v.getD i 0 = 0 then 0 else Config.freeBatchInverse p v i % p

/-- VINV (42_elementwise.md R438). -/
def execVinv (dst a n0 : Nat) (s : State) : Host.Outcome State Fault Refusal :=
  runData (.vinv dst a n0) (unaryShape dst a n0) (fun s => .ok (batchInv s.modulus (loadArray s a n0))) s

/-- `nz(x)`: x, or 1 if x is 0 (42_elementwise.md R437). -/
def nz (x : Nat) : Nat := if x = 0 then 1 else x

/-- The forward pass of 42_elementwise.md R437: the products of the non-zero elements before each index, and after the last. -/
def prefixProducts (p : Nat) : Nat → List Nat → List Nat
  | acc, [] => [acc]
  | acc, x :: xs => acc :: prefixProducts p (fieldMul p acc (nz x)) xs

/-- The backward pass of 42_elementwise.md R437, over the pairs (v[i], pre[i]) from the last index down, with its running `k`. -/
def backwardPass (p : Nat) : Nat → List (Nat × Nat) → List Nat
  | _, [] => []
  | k, (x, pre) :: rest =>
    (if x = 0 then 0 else fieldMul p pre k) :: backwardPass p (fieldMul p k (nz x)) rest

/-- The source's own algorithm for `batch_inv` (42_elementwise.md R437): one field inversion, then a backward pass. Not used
by the commands; it is the design that `batchInv` states the result of. -/
def montgomeryBatchInv (p : Nat) (v : List Nat) : List Nat :=
  let pre := prefixProducts p 1 v
  (backwardPass p (fieldInv p (pre.getD v.length 0)) (v.zip pre).reverse).reverse

end Sys2Proof.Machine
end

