-- ==== Sys2Proof/Machine/Bulk.lean ====
section
/-! DEFINITION. Power series, matrix multiply and linear combination (43_bulk.md). -/

namespace Sys2Proof.Machine

/-- The `n` powers `c, c·s, c·s², …` (43_bulk.md R450). -/
def powerSeries (p s : Nat) : Nat → Nat → List Nat
  | 0, _ => []
  | n + 1, c => c :: powerSeries p s n (fieldMul p c s)

/-- PSERIES: the first power is the constant 1, whatever the seed (43_bulk.md R450). -/
def execPseries (dst b n0 : Nat) (s : State) : Host.Outcome State Fault Refusal :=
  runData (.pseries dst b n0) ⟨none, dst, n0, [(b, 1)], false⟩
    (fun s => .ok (powerSeries s.modulus (loadF s b 0) n0 1)) s

/-- `Σ_k f(k)` over k = 0 .. m−1, added up in the field from 0 (43_bulk.md R451, R452; the empty sum is 0, 00_scope.md R8). -/
def fieldSum (p m : Nat) (f : Nat → Nat) : Nat := (List.range m).foldl (fun acc k => fieldAdd p acc (f k)) 0

/-- MATMUL: C is N0 × N3, row-major (43_bulk.md R451); "n·q < 2^32 whenever the bounds check passes" (log 18). -/
def execMatmul (dst a b n0 n1 n2 n3 : Nat) (s : State) : Host.Outcome State Fault Refusal :=
  runData (.matmul dst a b n0 n1 n2 n3)
    ⟨require (n1 == n2) .dimensionMismatch, dst, n0 * n3, [(a, n0 * n1), (b, n2 * n3)],
      decide (2 ^ 32 ≤ n0 * n3)⟩
    (fun s => .ok ((List.range n0).flatMap fun i => (List.range n3).map fun j =>
      fieldSum s.modulus n1 fun k => fieldMul s.modulus (loadF s a (i * n1 + k)) (loadF s b (k * n3 + j)))) s

/-- COMBINE: the inner product (43_bulk.md R452). -/
def execCombine (dst a b n0 n1 : Nat) (s : State) : Host.Outcome State Fault Refusal :=
  runData (.combine dst a b n0 n1)
    ⟨require (n0 == n1) .dimensionMismatch, dst, 1, [(a, n0), (b, n1)], false⟩
    (fun s => .ok [fieldSum s.modulus n0 fun i => fieldMul s.modulus (loadF s a i) (loadF s b i)]) s

end Sys2Proof.Machine
end

