-- ==== Sys2Proof/Machine/Polynomial.lean ====
section
/-! DEFINITION. The polynomial kernels (44_polynomial.md). A polynomial is the list of its coefficients, index i for x^i. -/

namespace Sys2Proof.Machine

/-- Coefficient `i` of a polynomial, 0 above its length (44_polynomial.md R460). -/
def coeff (c : List Nat) (i : Nat) : Nat := c.getD i 0

/-- The coefficient-wise combination of two polynomials, the shorter padded with zeros (44_polynomial.md R460). -/
def padded (f : Nat → Nat → Nat) (a b : List Nat) : List Nat :=
  (List.range (max a.length b.length)).map fun i => f (coeff a i) (coeff b i)

/-- The shape of PADD and PSUB (44_polynomial.md R460). -/
def paddedShape (dst a b n0 n1 : Nat) : Shape := ⟨none, dst, max n0 n1, [(a, n0), (b, n1)], false⟩

/-- PADD (44_polynomial.md R460). -/
def execPadd (dst a b n0 n1 : Nat) (s : State) : Host.Outcome State Fault Refusal :=
  runData (.padd dst a b n0 n1) (paddedShape dst a b n0 n1)
    (fun s => .ok (padded (fieldAdd s.modulus) (loadArray s a n0) (loadArray s b n1))) s

/-- PSUB (44_polynomial.md R461). -/
def execPsub (dst a b n0 n1 : Nat) (s : State) : Host.Outcome State Fault Refusal :=
  runData (.psub dst a b n0 n1) (paddedShape dst a b n0 n1)
    (fun s => .ok (padded (fieldSub s.modulus) (loadArray s a n0) (loadArray s b n1))) s

/-- Schoolbook convolution, `r[t] = Σ_{i+j=t} a[i]·b[j]`, of length `a.len + b.len − 1` (44_polynomial.md R462). -/
def polyMul (p : Nat) (a b : List Nat) : List Nat :=
  (List.range (a.length + b.length - 1)).map fun t =>
    fieldSum p (t + 1) fun i => fieldMul p (coeff a i) (coeff b (t - i))

/-- PMUL (44_polynomial.md R462). -/
def execPmul (dst a b n0 n1 : Nat) (s : State) : Host.Outcome State Fault Refusal :=
  runData (.pmul dst a b n0 n1)
    ⟨require (n0 != 0 && n1 != 0) .invalidArgument, dst, n0 + n1 - 1, [(a, n0), (b, n1)], false⟩
    (fun s => .ok (polyMul s.modulus (loadArray s a n0) (loadArray s b n1))) s

/-- `last_nonzero(a)`: the largest index of a non-zero element, if there is one (44_polynomial.md R463). -/
def lastNonzero : List Nat → Option Nat
  | [] => none
  | x :: xs =>
    match lastNonzero xs with
    | some i => some (i + 1)
    | none => if x = 0 then none else some 0

/-- One step of the division of 44_polynomial.md R468: `r[d + j] <- sub(r[d + j], mul(b[j], q))` for j = 0 .. bpos. -/
def subtractShifted (p : Nat) (b : List Nat) (bpos q d : Nat) (r : List Nat) : List Nat :=
  (List.range r.length).map fun t =>
    if d ≤ t ∧ t ≤ d + bpos then fieldSub p (coeff r t) (fieldMul p (coeff b (t - d)) q) else coeff r t

/-- The steps of the division for d from `n − 1` down to 0, from the working copy `r`; the quotient's coefficients found so far
are in the last argument (44_polynomial.md R468). -/
def divSteps (p : Nat) (b : List Nat) (bpos : Nat) : Nat → List Nat → List Nat → List Nat
  | 0, _, out => out
  | d + 1, r, out =>
    let q := fieldDiv p (coeff r (bpos + d)) (coeff b bpos)
    divSteps p b bpos d (subtractShifted p b bpos q d r) (q :: out)

/-- `poly_div(a, b)`: the quotient, or INVALID_ARGUMENT for a zero divisor, a zero dividend or a dividend of lower degree
(44_polynomial.md R468). -/
def polyDiv (p : Nat) (a b : List Nat) : Except ErrorCode (List Nat) :=
  match lastNonzero b, lastNonzero a with
  | none, _ => .error .invalidArgument
  | some _, none => .error .invalidArgument
  | some bpos, some apos =>
    if apos < bpos then .error .invalidArgument
    else .ok (divSteps p b bpos (apos - bpos + 1) (a.take (apos + 1)) [])

/-- PDIV: the destination region is N0 elements whatever the quotient's length (44_polynomial.md R464). -/
def execPdiv (dst a b n0 n1 : Nat) (s : State) : Host.Outcome State Fault Refusal :=
  runData (.pdiv dst a b n0 n1)
    ⟨require (decide (n1 ≤ n0)) .invalidArgument, dst, n0, [(a, n0), (b, n1)], false⟩
    (fun s => polyDiv s.modulus (loadArray s a n0) (loadArray s b n1)) s

/-- `poly_eval(c, x) = Σ c[i]·x^i`, 0 for no coefficients, by Horner's rule (44_polynomial.md R469). -/
def polyEval (p : Nat) (c : List Nat) (x : Nat) : Nat :=
  c.foldr (fun ci acc => fieldAdd p (fieldMul p acc x) ci) 0

/-- PEVAL (44_polynomial.md R465). -/
def execPeval (dst a b n0 : Nat) (s : State) : Host.Outcome State Fault Refusal :=
  runData (.peval dst a b n0) ⟨none, dst, 1, [(a, n0), (b, 1)], false⟩
    (fun s => .ok [polyEval s.modulus (loadArray s a n0) (loadF s b 0)]) s

/-- `z(x)·(x − x_t)`: the update of 44_polynomial.md R470. -/
def timesLinear (p : Nat) (z : List Nat) (x : Nat) : List Nat :=
  (List.range (z.length + 1)).map fun i =>
    fieldSub p (if i = 0 then 0 else coeff z (i - 1)) (fieldMul p (coeff z i) x)

/-- `zpoly(xs)`: the coefficients of `Π (x − x_i)`, of length k + 1 (44_polynomial.md R470). -/
def vanishing (p : Nat) (xs : List Nat) : List Nat := xs.foldl (timesLinear p) [1]

/-- ZPOLY: "If N0 = 2^32 − 1 then N0 + 1 = 2^32 elements cannot fit in MEM and the bounds check fails", in a MEM of 2^32 bytes
too (44_polynomial.md R466, log 18). -/
def execZpoly (dst a n0 : Nat) (s : State) : Host.Outcome State Fault Refusal :=
  runData (.zpoly dst a n0) ⟨none, dst, n0 + 1, [(a, n0)], decide (2 ^ 32 ≤ n0 + 1)⟩
    (fun s => .ok (vanishing s.modulus (loadArray s a n0))) s

end Sys2Proof.Machine
end

