-- ==== Sys2Proof/Machine/Transform.lean ====
section
/-! DEFINITION. FFT, inverse FFT, Lagrange and quartic batch interpolation (45_fft_interp.md). -/

namespace Sys2Proof.Machine

/-- `rec(depth, offset)` of 45_fft_interp.md R481 with `step = 2^depth`; the level counts the butterflies above the 4-point
base case, so that `resultLength = 2^(level + 2)`. -/
def fftRec (p : Nat) (values roots : List Nat) : Nat → Nat → Nat → List Nat
  | 0, step, offset =>
    (List.range 4).map fun i =>
      ((List.range 4).map fun k => coeff values (offset + k * step) * coeff roots ((i * k) % 4 * step)).sum % p
  | level + 1, step, offset =>
    let even := fftRec p values roots level (2 * step) offset
    let odd := fftRec p values roots level (2 * step) (offset + step)
    let half := 2 ^ (level + 2)
    ((List.range half).map fun i => fieldAdd p (coeff even i) (fieldMul p (coeff odd i) (coeff roots (i * step))))
      ++ (List.range half).map fun i => fieldSub p (coeff even i) (fieldMul p (coeff odd i) (coeff roots (i * step)))

/-- `fft_core(values, roots)` on a domain of 2^k elements: case A for k = 0, case B for k = 1, case C from k = 2 on
(45_fft_interp.md R481). -/
def fftCore (p : Nat) (values roots : List Nat) : Nat → List Nat
  | 0 => [coeff values 0]
  | 1 =>
    let t := fieldMul p (coeff values 1) (coeff roots 0)
    [fieldAdd p (coeff values 0) t, fieldSub p (coeff values 0) t]
  | k + 2 => fftRec p values roots k 1 0

/-- The shape of FFT: the domain a power of two, the polynomial no longer than it, or INVALID_DOMAIN (45_fft_interp.md R482). -/
def fftShape (dst a b n0 n1 : Nat) : Shape :=
  ⟨require (isPowerOfTwo n1 && decide (n0 ≤ n1)) .invalidDomain, dst, n1, [(a, n0), (b, n1)], false⟩

/-- FFT: the polynomial zero-padded to the domain (45_fft_interp.md R482). -/
def execFft (dst a b n0 n1 : Nat) (s : State) : Host.Outcome State Fault Refusal :=
  runData (.fft dst a b n0 n1) (fftShape dst a b n0 n1)
    (fun s => .ok (fftCore s.modulus (loadArray s a n0 ++ List.replicate (n1 - n0) 0) (loadArray s b n1) (Nat.log2 n1))) s

/-- `rev`: `rev[0] = 1`, `rev[j] = roots[n − j]` (45_fft_interp.md R483). -/
def reversedRoots (roots : List Nat) : List Nat :=
  (List.range roots.length).map fun j => if j = 0 then 1 else coeff roots (roots.length - j)

/-- `ifft_core(roots, ys)` on a domain of 2^k elements (45_fft_interp.md R483). -/
def ifftCore (p : Nat) (roots ys : List Nat) (k : Nat) : List Nat :=
  let ninv := fieldInv p (2 ^ k % p)
  (fftCore p ys (reversedRoots roots) k).map fun t => fieldMul p t ninv

/-- The shape of IFFT: INVALID_DOMAIN before DIMENSION_MISMATCH (45_fft_interp.md R484, 60_exceptions.md R621). -/
def ifftShape (dst a b n0 n1 : Nat) : Shape :=
  ⟨if isPowerOfTwo n0 then require (n1 == n0) .dimensionMismatch else some .invalidDomain, dst, n0, [(a, n0), (b, n1)], false⟩

/-- IFFT: SRC_A is the roots array, SRC_B the values (45_fft_interp.md R484). -/
def execIfft (dst a b n0 n1 : Nat) (s : State) : Host.Outcome State Fault Refusal :=
  runData (.ifft dst a b n0 n1) (ifftShape dst a b n0 n1)
    (fun s => .ok (ifftCore s.modulus (loadArray s a n0) (loadArray s b n1) (Nat.log2 n0))) s

/-- `num_i = root(x) / (x − x_i)`; the division never raises here (45_fft_interp.md R485). -/
def lagrangeNumerator (p : Nat) (root : List Nat) (x : Nat) : List Nat :=
  match polyDiv p root [fieldNeg p x, 1] with
  | .ok q => q
  | .error _ => []

/-- `L[j] <- add(L[j], mul(f, num[j]))` for every j (45_fft_interp.md R485 step 5, R487). -/
def accumulate (p : Nat) (acc : List Nat) (f : Nat) (num : List Nat) : List Nat :=
  (List.range acc.length).map fun j => fieldAdd p (coeff acc j) (fieldMul p f (coeff num j))

/-- `lagrange(xs, ys)` (45_fft_interp.md R485). -/
def lagrange (p : Nat) (xs ys : List Nat) : List Nat :=
  let root := vanishing p xs
  let nums := xs.map (lagrangeNumerator p root)
  let invs := batchInv p ((nums.zip xs).map fun nx => polyEval p nx.1 nx.2)
  ((ys.zip invs).zip nums).foldl (fun acc t => accumulate p acc (fieldMul p t.1.1 t.1.2) t.2)
    (List.replicate xs.length 0)

/-- The shape of LAGRANGE (45_fft_interp.md R486). -/
def lagrangeShape (dst a b n0 n1 : Nat) : Shape :=
  ⟨require (n0 == n1) .dimensionMismatch, dst, n0, [(a, n0), (b, n1)], false⟩

/-- LAGRANGE: SRC_A the x-coordinates, SRC_B the y-coordinates (45_fft_interp.md R486). -/
def execLagrange (dst a b n0 n1 : Nat) (s : State) : Host.Outcome State Fault Refusal :=
  runData (.lagrange dst a b n0 n1) (lagrangeShape dst a b n0 n1)
    (fun s => .ok (lagrange s.modulus (loadArray s a n0) (loadArray s b n1))) s

/-- `eq_k(x) = Π_{j≠k} (x − x_j)` of a row of four, in expanded form (45_fft_interp.md R487). -/
def quarticCubic (p : Nat) (row : List Nat) (k : Nat) : List Nat :=
  let others := row.eraseIdx k
  let a := coeff others 0
  let b := coeff others 1
  let c := coeff others 2
  [fieldNeg p (fieldMul p (fieldMul p a b) c),
   fieldAdd p (fieldAdd p (fieldMul p a b) (fieldMul p a c)) (fieldMul p b c),
   fieldNeg p (fieldAdd p (fieldAdd p a b) c),
   1]

/-- The result row `Σ_k y_k·inv_k·eq_k` of one row; `invs` holds that row's four inverses (45_fft_interp.md R487). -/
def quarticRow (p : Nat) (xrow yrow invs : List Nat) : List Nat :=
  (List.range 4).foldl
    (fun acc k => accumulate p acc (fieldMul p (coeff yrow k) (coeff invs k)) (quarticCubic p xrow k)) [0, 0, 0, 0]

/-- `qbatch(X, Y)`, row after row: one batch inversion for all 4·m denominators (45_fft_interp.md R487). -/
def quarticBatch (p : Nat) (xrows yrows : List (List Nat)) : List Nat :=
  let dens := xrows.flatMap fun row => (List.range 4).map fun k => polyEval p (quarticCubic p row k) (coeff row k)
  let invs := batchInv p dens
  (List.range xrows.length).flatMap fun r =>
    quarticRow p (xrows.getD r []) (yrows.getD r []) ((invs.drop (4 * r)).take 4)

/-- QBATCH: N0 rows of four x-coordinates and of four y-coordinates (45_fft_interp.md R488); 4·N0 is "below 2^32 whenever the
bounds check passes" (log 18). -/
def execQbatch (dst a b n0 n1 : Nat) (s : State) : Host.Outcome State Fault Refusal :=
  runData (.qbatch dst a b n0 n1)
    ⟨require (n0 == n1) .dimensionMismatch, dst, 4 * n0, [(a, 4 * n0), (b, 4 * n1)],
      decide (2 ^ 32 ≤ 4 * n0)⟩
    (fun s => .ok (quarticBatch s.modulus (loadRows s a n0 4) (loadRows s b n1 4))) s

end Sys2Proof.Machine
end

