-- ==== Sys2Proof/Machine/Roots.lean ====
section
/-! DEFINITION. Power cycles and roots of unity (46_roots_twiddle.md). -/

namespace Sys2Proof.Machine

/-- The loop of 46_roots_twiddle.md R500 from the power `c` on: the powers before the next 1, if they fit the room left. -/
def cycleFrom (p w : Nat) : Nat → Nat → Option (List Nat)
  | 0, c => if c = 1 then some [] else none
  | room + 1, c => if c = 1 then some [] else (cycleFrom p w room (fieldMul p c w)).map (c :: ·)

/-- The power cycle of `w`, or CAPACITY_EXCEEDED when it is longer than the capacity (46_roots_twiddle.md R500). -/
def powerCycle (p w : Nat) : Nat → Except ErrorCode (List Nat)
  | 0 => .error .capacityExceeded
  | room + 1 =>
    match cycleFrom p w room w with
    | some rest => .ok (1 :: rest)
    | none => .error .capacityExceeded

/-- PCYCLE: the destination region is the whole capacity (46_roots_twiddle.md R500). -/
def execPcycle (dst b n0 : Nat) (s : State) : Host.Outcome State Fault Refusal :=
  runData (.pcycle dst b n0) ⟨none, dst, n0, [(b, 1)], false⟩
    (fun s => powerCycle s.modulus (loadF s b 0) n0) s

/-- `g^order = 1` and `g^(order/2) ≠ 1` (46_roots_twiddle.md R501). -/
def isRootOfOrder (p order g : Nat) : Bool := fieldPow p g order == 1 && fieldPow p g (order / 2) != 1

/-- The search of 46_roots_twiddle.md R501 over the given number of candidates from `i` on, in increasing order. -/
def rootSearch (p order : Nat) : Nat → Nat → Option Nat
  | 0, _ => none
  | fuel + 1, i =>
    let g := fieldPow p i ((p - 1) / order)
    if isRootOfOrder p order g then some g else rootSearch p order fuel (i + 1)

/-- ROOT's result as R501's pseudocode has it: 1 for order 1, otherwise the literal search over the candidates 2 .. P − 1. -/
def literalRoot (p order : Nat) : Option Nat :=
  if order = 1 then some 1 else rootSearch p order (p - 2) 2

/-- ROOT's result. For a modulus known to be prime it uses R501's shortcut "if order ≥ 2 and `(P − 1) mod order ≠ 0` the
command raises NOT_FOUND without any search"; the result is `literalRoot`'s (log 11). -/
def rootOfUnity (p order : Nat) : Option Nat :=
  if Config.certifiedPrimes.contains p && order != 1 && (p - 1) % order != 0 then none else literalRoot p order

/-- ROOT's one element, or NOT_FOUND (46_roots_twiddle.md R501). -/
def rootElements (p order : Nat) : Except ErrorCode (List Nat) :=
  match rootOfUnity p order with
  | some g => .ok [g]
  | none => .error .notFound

/-- ROOT (46_roots_twiddle.md R501). -/
def execRoot (dst n0 : Nat) (s : State) : Host.Outcome State Fault Refusal :=
  runData (.root dst n0) ⟨require (isPowerOfTwo n0) .invalidArgument, dst, 1, [], false⟩
    (fun s => rootElements s.modulus n0) s

end Sys2Proof.Machine
end

