-- ==== Sys2Proof/Machine/Control.lean ====
section
/-! DEFINITION. The control commands (47_control.md). -/

namespace Sys2Proof.Machine

/-- `bit_width(v)` for v ≥ 1: the least k with v < 2^k (00_scope.md R7). -/
def bitWidth (v : Nat) : Nat := Nat.log2 v + 1

/-- `ceil(bit_width(p)/8)` (10_state.md R103). -/
def elementSize (p : Nat) : Nat := (bitWidth p + 7) / 8

/-- A successful SETMOD: P, ES, CONFIGURED, RLEN = 0, and what every success writes (47_control.md R510). -/
def configure (p : Nat) (s : State) : State :=
  acknowledge { s with p := BitVec.ofNat 128 p, es := BitVec.ofNat 5 (elementSize p), configured := true, rlen := 0 }

/-- Stages 3, 4 and 8 of SETMOD (47_control.md R510, 60_exceptions.md R620). -/
def setmodStages (p : Nat) (s : State) : State :=
  let w0 := (encode (.setmod p)).w0
  if s.configured then raise .alreadyConfigured w0 s
  else if p < 2 then raise .invalidArgument w0 s
  else configure p s

/-- SETMOD (47_control.md R510). -/
def execSetmod (p : Nat) (s : State) : Host.Outcome State Fault Refusal := .next (accept (setmodStages p) s)

/-- ACK: in ERROR the return to IDLE, in IDLE a success that changes nothing; RLEN is kept (47_control.md R511,
60_exceptions.md R612). In BUSY it is not accepted, like every word (10_state.md R121). -/
def execAck (s : State) : Host.Outcome State Fault Refusal :=
  match s.state with
  | .busy => .next s
  | .idle => .next (acknowledge s)
  | .error => .next (acknowledge s)

end Sys2Proof.Machine
end

