-- ==== Sys2Proof/Machine/Dispatch.lean ====
section
/-! DEFINITION. One arm per command: the meaning of each row of spec/opcode_table.json, presented on the command port. -/

namespace Sys2Proof.Machine

/-- What the block does when the word of the command is presented to it (60_exceptions.md R620, R612, 10_state.md R121). -/
def exec (i : Instr) (s : State) : Host.Outcome State Fault Refusal :=
  match i with
  | .setmod p => Sys2Proof.Machine.execSetmod p s
  | .ack => Sys2Proof.Machine.execAck s
  | .fadd dst a b => Sys2Proof.Machine.execFadd dst a b s
  | .fsub dst a b => Sys2Proof.Machine.execFsub dst a b s
  | .fmul dst a b => Sys2Proof.Machine.execFmul dst a b s
  | .fdiv dst a b => Sys2Proof.Machine.execFdiv dst a b s
  | .fexp neg dst a b => Sys2Proof.Machine.execFexp neg dst a b s
  | .finv dst a => Sys2Proof.Machine.execFinv dst a s
  | .fneg dst a => Sys2Proof.Machine.execFneg dst a s
  | .vaddVV dst a b n0 n1 => Sys2Proof.Machine.execVaddVV dst a b n0 n1 s
  | .vaddVS dst a n0 => Sys2Proof.Machine.execVaddVS dst a n0 s
  | .vsubVV dst a b n0 n1 => Sys2Proof.Machine.execVsubVV dst a b n0 n1 s
  | .vsubVS dst a n0 => Sys2Proof.Machine.execVsubVS dst a n0 s
  | .vmulVV dst a b n0 n1 => Sys2Proof.Machine.execVmulVV dst a b n0 n1 s
  | .vmulVS dst a n0 => Sys2Proof.Machine.execVmulVS dst a n0 s
  | .vdivVV dst a b n0 n1 => Sys2Proof.Machine.execVdivVV dst a b n0 n1 s
  | .vdivVS dst a n0 => Sys2Proof.Machine.execVdivVS dst a n0 s
  | .vexpVV dst a b n0 n1 => Sys2Proof.Machine.execVexpVV dst a b n0 n1 s
  | .vexpVS dst a n0 => Sys2Proof.Machine.execVexpVS dst a n0 s
  | .vinv dst a n0 => Sys2Proof.Machine.execVinv dst a n0 s
  | .vneg dst a n0 => Sys2Proof.Machine.execVneg dst a n0 s
  | .pseries dst b n0 => Sys2Proof.Machine.execPseries dst b n0 s
  | .matmul dst a b n0 n1 n2 n3 => Sys2Proof.Machine.execMatmul dst a b n0 n1 n2 n3 s
  | .combine dst a b n0 n1 => Sys2Proof.Machine.execCombine dst a b n0 n1 s
  | .padd dst a b n0 n1 => Sys2Proof.Machine.execPadd dst a b n0 n1 s
  | .psub dst a b n0 n1 => Sys2Proof.Machine.execPsub dst a b n0 n1 s
  | .pmul dst a b n0 n1 => Sys2Proof.Machine.execPmul dst a b n0 n1 s
  | .pdiv dst a b n0 n1 => Sys2Proof.Machine.execPdiv dst a b n0 n1 s
  | .peval dst a b n0 => Sys2Proof.Machine.execPeval dst a b n0 s
  | .zpoly dst a n0 => Sys2Proof.Machine.execZpoly dst a n0 s
  | .fft dst a b n0 n1 => Sys2Proof.Machine.execFft dst a b n0 n1 s
  | .ifft dst a b n0 n1 => Sys2Proof.Machine.execIfft dst a b n0 n1 s
  | .lagrange dst a b n0 n1 => Sys2Proof.Machine.execLagrange dst a b n0 n1 s
  | .qbatch dst a b n0 n1 => Sys2Proof.Machine.execQbatch dst a b n0 n1 s
  | .pcycle dst b n0 => Sys2Proof.Machine.execPcycle dst b n0 s
  | .root dst n0 => Sys2Proof.Machine.execRoot dst n0 s

end Sys2Proof.Machine
end

