-- ==== Sys2Proof/Machine/Ports.lean ====
section
/-! DEFINITION. The block's ports and its reset input: what each action of the outside world does (10_state.md R121 to R123,
70_reset_and_hazards.md R700). -/

namespace Sys2Proof.Machine

/-- A command word on the command port (10_state.md R121): a legal one is executed; an illegal one raises ILLEGAL_COMMAND with
its own W0 in IDLE (30_encoding.md R306, 60_exceptions.md R620 stage 2) and is dropped in ERROR (R612). -/
def issue (cw : CommandWord) (s : State) : Host.Outcome State Fault Refusal :=
  match decode cw with
  | .ok i => exec i s
  | .error _ => .next (accept (raise .illegalCommand cw.w0) s)

/-- The bytes of the list into the memory from an offset upwards (10_state.md R122). -/
def Memory.writeBytes : Memory → Nat → List Byte → Memory
  | m, _, [] => m
  | m, a, b :: bs => Memory.writeBytes (m.set a b) (a + 1) bs

/-- The host writes bytes on the memory port (10_state.md R122). -/
def hostWrite (offset : Nat) (bytes : List Byte) (s : State) : Host.Outcome State Fault Refusal :=
  if s.state = .busy then .refused .hostMemWhileBusy
  else if (ByteRange.mk offset bytes.length).outOfBounds s.memBytes then .fault .hostOffsetBeyondMem
  else .next { s with mem := s.mem.writeBytes offset bytes }

/-- The host reads bytes on the memory port; the block does not change (10_state.md R122). -/
def hostRead (offset count : Nat) (s : State) : Host.Outcome State Fault Refusal :=
  if s.state = .busy then .refused .hostMemWhileBusy
  else if (ByteRange.mk offset count).outOfBounds s.memBytes then .fault .hostOffsetBeyondMem
  else .next { s with seen := .bytes offset ((List.range count).map fun k => s.byteAt (offset + k)) :: s.seen }

/-- The host reads a register, at any time, with no side effect on the block (10_state.md R123). -/
def hostReadRegister (number : Nat) (s : State) : Host.Outcome State Fault Refusal :=
  .next { s with seen := .register number (readRegister s number) :: s.seen }

/-- The reset event, in any state (70_reset_and_hazards.md R700): every register as after reset, MEM unspecified anew. MEM_BYTES
and what the outside world has done or still will do are not the block's to reset. -/
def applyReset (s : State) : State :=
  { State.reset with memBytes := s.memBytes, resets := s.resets + 1, pending := s.pending, seen := s.seen }

/-- One action of the outside world. -/
def perform (e : PortEvent) (s : State) : Host.Outcome State Fault Refusal :=
  match e with
  | .command cw => issue cw s
  | .write offset bytes => hostWrite offset bytes s
  | .read offset count => hostRead offset count s
  | .readRegister number => hostReadRegister number s
  | .reset => .next (applyReset s)

/-- The state with the next pending action taken off the list. -/
def State.withPending (s : State) (rest : List PortEvent) : State := { s with pending := rest }

/-- The command word that the table's word `w` of `nbits` bits stands for: every bit above them is 0 (30_encoding.md R300). -/
def tableWord (nbits w : Nat) : CommandWord := CommandWord.ofBits (BitVec.ofNat 256 (w % 2 ^ nbits))

end Sys2Proof.Machine
end

