-- ==== Sys2Proof/Machine/Step.lean ====
section
/-! DEFINITION. One step: the next action of the outside world is performed. The block has no program counter and fetches
nothing from memory (10_state.md R101, 20_memory.md R221): the order of commands is the order in which the host issues them. -/

namespace Sys2Proof.Machine

/-- One step. With nothing pending the block holds its state (10_state.md R112, 60_exceptions.md R645). -/
def step (s : State) : Host.Outcome State Fault Refusal :=
  match s.pending with
  | [] => .next s
  | e :: rest => perform e (s.withPending rest)

/-- The state in which the command port is presented the given word next. -/
def State.withFetchWord (s : State) (nbits w : Nat) : State :=
  s.withPending (.command (tableWord nbits w) :: s.pending)

end Sys2Proof.Machine
end

