-- ==== Sys2Proof/Safety.lean ====
section
/-! DEFINITION. What counts as a safe state of the block, when a command is admitted, and what a successful command leaves: the
terms the statements are written in. -/

namespace Sys2Proof

open Machine

/-- The codes a command can leave in ERR (60_exceptions.md R601): 4 is never raised (R603), 0 means no error. -/
def raisedCodes : List (BitVec 8) := [1, 2, 3, 5, 8, 9, 10, 11, 12, 13]

/-- The states the block can be in between commands. -/
structure Inv (s : State) : Prop where
  /-- 16 ≤ MEM_BYTES (00_scope.md R6) -/
  memBytes_ge : 16 ≤ s.memBytes
  /-- MEM_BYTES ≤ 2^32 (00_scope.md R6) -/
  memBytes_le : s.memBytes ≤ 2 ^ 32
  /-- the memory is in its canonical form -/
  mem_wf : s.mem.wf
  /-- only offsets below MEM_BYTES are listed (10_state.md R110) -/
  mem_below : ∀ c ∈ s.mem, c.1 < s.memBytes
  /-- a command is atomic, so BUSY is not seen between steps (10_state.md R105) -/
  not_busy : s.state ≠ .busy
  /-- a configured block holds a field instance (10_state.md R102 to R104) -/
  field : s.configured = true → 2 ≤ s.p.toNat ∧ s.es.toNat = elementSize s.p.toNat
  /-- an unconfigured block holds none (10_state.md R104, R116) -/
  no_field : s.configured = false → s.p = 0 ∧ s.es = 0
  /-- ERR and ERRINFO are 0 outside ERROR (10_state.md R106, R107) -/
  no_error : s.state ≠ .error → s.err = 0 ∧ s.errinfo = 0
  /-- in ERROR, ERR holds a code that is raised, and RLEN is 0 (10_state.md R106, R108) -/
  error : s.state = .error → s.err ∈ raisedCodes ∧ s.rlen = 0

/-- The block accepts data commands: it is between commands, in IDLE and configured (60_exceptions.md R620 stages 1, 3). -/
structure Ready (s : State) : Prop where
  inv : Inv s
  idle : s.state = .idle
  configured : s.configured = true

/-- `Region(base, n)` is empty or ends within MEM (20_memory.md R212). -/
abbrev Fits (s : State) (base n : Nat) : Prop := n * s.elemBytes = 0 ∨ base + n * s.elemBytes ≤ s.memBytes

/-- `Region(base, n)` and `Region(other, m)` share no byte (20_memory.md R214). -/
abbrev Apart (s : State) (base n other m : Nat) : Prop :=
  n * s.elemBytes = 0 ∨ m * s.elemBytes = 0 ∨ base + n * s.elemBytes ≤ other ∨ other + m * s.elemBytes ≤ base

/-- `Region(base, n)` is empty or starts above the scratch slot (20_memory.md R214). -/
abbrev OffScratch (s : State) (base n : Nat) : Prop := n * s.elemBytes = 0 ∨ 16 ≤ base

/-- Stages 5 and 6 of 60_exceptions.md R620 let a command pass: destination `Region(dst, n)`, and source regions. -/
abbrev Admitted (s : State) (dst n : Nat) (sources : List (Nat × Nat)) : Prop :=
  Fits s dst n ∧ OffScratch s dst n ∧ ∀ r ∈ sources, Fits s r.1 r.2 ∧ Apart s dst n r.1 r.2

/-- `t` is `s` after a successful data command that stored `vals` at `dst` (60_exceptions.md R611, 20_memory.md R215):
everything that changed, and that nothing else did. -/
structure Stored (s t : State) (dst : Nat) (vals : List Nat) : Prop where
  /-- STATE <- IDLE -/
  state : t.state = .idle
  /-- ERR <- 0 -/
  err : t.err = 0
  /-- ERRINFO <- 0 -/
  errinfo : t.errinfo = 0
  /-- RLEN is the number of elements written (10_state.md R108) -/
  rlen : t.rlen.toNat = vals.length
  /-- element i at DST reads as the i-th result -/
  elements : ∀ i (h : i < vals.length), loadRaw t dst i = vals[i]
  /-- every byte outside Region(DST, RLEN) reads as before -/
  memory : ∀ a, (a < dst ∨ dst + vals.length * s.elemBytes ≤ a) → t.byteAt a = s.byteAt a
  /-- CONFIGURED, P and ES are unchanged (10_state.md R102) -/
  configured : t.configured = s.configured
  p : t.p = s.p
  es : t.es = s.es
  /-- the model's own fields are unchanged -/
  memBytes : t.memBytes = s.memBytes
  resets : t.resets = s.resets
  pending : t.pending = s.pending
  seen : t.seen = s.seen

/-- The checks and regions of every data command, as its rule lists them under *Checks* and *Regions* (00_scope.md R9), and the
bound that R451, R466 and R488 set on the elements of a MATMUL, ZPOLY and QBATCH (log 18); nothing for SETMOD and ACK. -/
def Instr.shape : Instr → Option Shape
  | .setmod _ | .ack => none
  | .fadd d a b | .fsub d a b | .fmul d a b | .fdiv d a b | .fexp _ d a b => some ⟨none, d, 1, [(a, 1), (b, 1)], false⟩
  | .finv d a | .fneg d a => some ⟨none, d, 1, [(a, 1)], false⟩
  | .vaddVV d a b n m | .vsubVV d a b n m | .vmulVV d a b n m | .vdivVV d a b n m | .vexpVV d a b n m
  | .lagrange d a b n m =>
    some ⟨if n = m then none else some .dimensionMismatch, d, n, [(a, n), (b, m)], false⟩
  | .vaddVS d a n | .vsubVS d a n | .vmulVS d a n | .vdivVS d a n | .vexpVS d a n | .vinv d a n | .vneg d a n =>
    some ⟨none, d, n, [(a, n)], false⟩
  | .pseries d b n | .pcycle d b n => some ⟨none, d, n, [(b, 1)], false⟩
  | .matmul d a b n m k q =>
    some ⟨if m = k then none else some .dimensionMismatch, d, n * q, [(a, n * m), (b, k * q)],
      decide (2 ^ 32 ≤ n * q)⟩
  | .combine d a b n m => some ⟨if n = m then none else some .dimensionMismatch, d, 1, [(a, n), (b, m)], false⟩
  | .padd d a b n m | .psub d a b n m => some ⟨none, d, max n m, [(a, n), (b, m)], false⟩
  | .pmul d a b n m =>
    some ⟨if n = 0 ∨ m = 0 then some .invalidArgument else none, d, n + m - 1, [(a, n), (b, m)], false⟩
  | .pdiv d a b n m => some ⟨if n < m then some .invalidArgument else none, d, n, [(a, n), (b, m)], false⟩
  | .peval d a b n => some ⟨none, d, 1, [(a, n), (b, 1)], false⟩
  | .zpoly d a n => some ⟨none, d, n + 1, [(a, n)], decide (2 ^ 32 ≤ n + 1)⟩
  | .fft d a b n m =>
    some ⟨if (∃ k < m, m = 2 ^ k) ∧ n ≤ m then none else some .invalidDomain, d, m, [(a, n), (b, m)], false⟩
  | .ifft d a b n m =>
    some ⟨if ∃ k < n, n = 2 ^ k then if m = n then none else some .dimensionMismatch else some .invalidDomain,
      d, n, [(a, n), (b, m)], false⟩
  | .qbatch d a b n m =>
    some ⟨if n = m then none else some .dimensionMismatch, d, 4 * n, [(a, 4 * n), (b, 4 * m)],
      decide (2 ^ 32 ≤ 4 * n)⟩
  | .root d n => some ⟨if ∃ k < n, n = 2 ^ k then none else some .invalidArgument, d, 1, [], false⟩

/-- The command has the scratch slot as an operand: the `.VS` forms (20_memory.md R211, R215). -/
def Instr.readsScratch : Instr → Bool
  | .vaddVS _ _ _ | .vsubVS _ _ _ | .vmulVS _ _ _ | .vdivVS _ _ _ | .vexpVS _ _ _ => true
  | _ => false

/-- `z mod p` for an integer z, negative ones included (00_scope.md R7). -/
def residue (p : Nat) (z : Int) : Nat := (z % (p : Int)).toNat

/-- ω is a root of unity of order n = 2^k modulo p: ω^n = 1 and ω^(n/2) ≠ 1 (00_scope.md glossary); order 1 is 1
(46_roots_twiddle.md R501). -/
def RootOfUnity (p k w : Nat) : Prop := w ^ 2 ^ k % p = 1 ∧ (k ≠ 0 → w ^ 2 ^ (k - 1) % p ≠ 1)

/-- The causes (a) to (e) of 30_encoding.md R306, each for what it says of the word. -/
def IllegalCause (cw : CommandWord) : Illegal → Prop
  | .unknownOpcode => ∀ op : Opcode, op.code ≠ cw.opcodeField
  | .reservedBits => cw.w0.toNat / 2 ^ 10 ≠ 0
  | .formBit => cw.formField = true ∧ ¬(0x20 ≤ cw.opcodeField ∧ cw.opcodeField ≤ 0x24)
  | .negBit => cw.negField = true ∧ cw.opcodeField ≠ 0x14
  | .unusedWord => ∃ op : Opcode, op.code = cw.opcodeField ∧ ∃ k, 1 ≤ k ∧ k ≤ 7 ∧ k ∉ op.uses cw.formField ∧ cw.word k ≠ 0

/-- The command word is illegal: one of the causes holds (30_encoding.md R306). -/
def IllegalWord (cw : CommandWord) : Prop := ∃ c, IllegalCause cw c

/-- The place of a cause in the order (a) to (e) in which the checks are made (30_encoding.md R306). -/
def Illegal.rank : Illegal → Nat
  | .unknownOpcode => 0
  | .reservedBits => 1
  | .formBit => 2
  | .negBit => 3
  | .unusedWord => 4

end Sys2Proof
end

