-- ==== Sys2Proof/Certificates/Slice0/Obligations.lean ====
section
/-! DEFINITION. The statements about the GF128 core that are to be proved. -/

section

open Sys2Proof Sys2Proof.Machine

/-! ### Encoding -/

/-- Decoding the encoding of a well-formed command gives the command back (30_encoding.md R302, R303, R305). -/
def Obligations.DecodeOfEncode : Prop := ∀ i : Instr, i.WellFormed → decode (encode i) = .ok i

/-- A command word that decodes is the encoding of the command it decodes to, and that command is well formed
(30_encoding.md R304, R307: every other word is illegal). -/
def Obligations.EncodeOfDecode : Prop :=
  ∀ (cw : CommandWord) (i : Instr), decode cw = .ok i → i.WellFormed ∧ encode i = cw

/-- The decoder accepts exactly the words that pass the test of some row of spec/opcode_table.json, every such row carries the
mnemonic of the decoded command, and no word passes two rows (30_encoding.md R305). -/
def Obligations.DecoderFollowsOpcodeTable : Prop :=
  ∀ cw : CommandWord,
    ((∃ i, decode cw = .ok i) ↔ ∃ r ∈ opcodeRows, r.admits cw = true) ∧
    (∀ i r, decode cw = .ok i → r ∈ opcodeRows → r.admits cw = true → r.mnemonic = i.mnemonic) ∧
    (∀ r q, r ∈ opcodeRows → q ∈ opcodeRows → r.admits cw = true → q.admits cw = true → r = q)

/-- 30_encoding.md R306: a word for which one of the causes (a) to (e) holds raises ILLEGAL_COMMAND, changing nothing but STATE,
ERR, ERRINFO and RLEN; the all-zero word is one; the cause the decoder names is the first that holds, in the order (a) to (e); a
word for which none holds is a command and is executed. -/
def Obligations.IllegalWordRaises : Prop :=
  (∀ (s : State) (cw : CommandWord), s.state = .idle →
    (IllegalWord cw → issue cw s = .next { s with err := 8, errinfo := cw.w0, rlen := 0, state := .error }) ∧
    (¬IllegalWord cw → ∃ i, decode cw = .ok i ∧ issue cw s = exec i s)) ∧
  (∀ (cw : CommandWord) (c : Illegal), decode cw = .error c ↔
    IllegalCause cw c ∧ ∀ c' : Illegal, c'.rank < c.rank → ¬IllegalCause cw c') ∧
  IllegalWord ⟨0, 0, 0, 0, 0, 0, 0, 0⟩

/-- Words written out from the encodings of 30_encoding.md R305 (95_test_vectors.md part 3) decode to the commands they stand
for: at least one of each family, both FORM values, and FEXP with NEG. -/
def Obligations.SampleWordsDecode : Prop :=
  decodeTableWord 256 0xFFFFFFFFFFFFFFFFFFFFFFFFFFFFFF6100000000000000000000000000000001 =
    some (.setmod (2 ^ 128 - 159)) ∧
  decodeTableWord 256 0x0000000000000000000000000000000000000110000001000000020000000010 =
    some (.fadd 0x200 0x100 0x110) ∧
  decodeTableWord 256 0x0000000000000000000000000000000000000110000001000000020000000214 =
    some (.fexp true 0x200 0x100 0x110) ∧
  decodeTableWord 256 0x0000000000000000000000040000000400000140000001000000020000000020 =
    some (.vaddVV 0x200 0x100 0x140 4 4) ∧
  decodeTableWord 256 0x0000000000000000000000000000000400000000000001000000020000000122 =
    some (.vmulVS 0x200 0x100 4) ∧
  decodeTableWord 256 0x0000000100000002000000020000000200000140000001000000020000000031 =
    some (.matmul 0x200 0x100 0x140 2 2 2 1) ∧
  decodeTableWord 256 0x0000000000000000000000020000000300000140000001000000020000000043 =
    some (.pdiv 0x200 0x100 0x140 3 2) ∧
  decodeTableWord 256 0x0000000000000000000000040000000400000140000001000000020000000051 =
    some (.ifft 0x200 0x100 0x140 4 4) ∧
  decodeTableWord 256 0x0000000000000000000000000000000400000100000000000000020000000054 =
    some (.pcycle 0x200 0x100 4) ∧
  decodeTableWord 256 0x0000000000000000000000000000000000000110000001000000020000000110 = none

/-! ### Steps, ports and reset -/

/-- When the next action is a command word that decodes, the step is `exec` of that command in the state with the word taken off
the port; `withFetchWord` of a well-formed command's word makes the next step run it in the very state; with nothing pending a
step changes nothing (model's choice, log 6). -/
def Obligations.StepRunsDecodedCommand : Prop :=
  (∀ (s : State) (cw : CommandWord) (i : Instr) (rest : List PortEvent),
    s.pending = .command cw :: rest → decode cw = .ok i → step s = exec i (s.withPending rest)) ∧
  (∀ (s : State) (i : Instr), i.WellFormed → step (s.withFetchWord 256 (encode i).toBits.toNat) = exec i s) ∧
  (∀ s : State, s.pending = [] → step s = .next s)

/-- The memory port (10_state.md R122): bytes written are read back, and no other byte or register changes; a read reports the
bytes and changes nothing of the block; an access past MEM_BYTES and an access while BUSY are refused. The model's choices in it:
the form of the two stops (logs 7 and 8), that an access of several bytes is stopped as a whole (log 13), and that the bytes read
are put at the head of the list `seen` (log 5). -/
def Obligations.HostMemoryPort : Prop :=
  ∀ (s : State) (a n : Nat) (bs : List Byte),
    (s.state = .busy →
      hostWrite a bs s = .refused .hostMemWhileBusy ∧ hostRead a n s = .refused .hostMemWhileBusy) ∧
    (s.state ≠ .busy → bs ≠ [] → s.memBytes < a + bs.length → hostWrite a bs s = .fault .hostOffsetBeyondMem) ∧
    (s.state ≠ .busy → n ≠ 0 → s.memBytes < a + n → hostRead a n s = .fault .hostOffsetBeyondMem) ∧
    (s.state ≠ .busy → bs = [] ∨ a + bs.length ≤ s.memBytes →
      ∃ t, hostWrite a bs s = .next t ∧ t = { s with mem := t.mem } ∧
        (∀ k (h : k < bs.length), t.byteAt (a + k) = bs[k]) ∧
        ∀ x, x < a ∨ a + bs.length ≤ x → t.byteAt x = s.byteAt x) ∧
    (s.state ≠ .busy → n = 0 ∨ a + n ≤ s.memBytes →
      hostRead a n s =
        .next { s with seen := .bytes a ((List.range n).map fun k => s.byteAt (a + k)) :: s.seen })

/-- A register read can be made in any state and changes nothing of the block (10_state.md R123); that its reply is put at the
head of the list `seen` is the model's choice (log 5). The map of registers 0 to 7, and 0 above, is that of R109. -/
def Obligations.RegisterReadPort : Prop :=
  ∀ (s : State) (n : Nat),
    hostReadRegister n s = .next { s with seen := .register n (readRegister s n) :: s.seen } ∧
    (readRegister s 0).extractLsb' 0 2 = s.state.code ∧
    (readRegister s 0).extractLsb' 2 1 = BitVec.ofBool s.configured ∧
    (readRegister s 0).extractLsb' 3 5 = 0 ∧
    (readRegister s 0).extractLsb' 8 8 = s.err ∧
    (readRegister s 0).extractLsb' 16 16 = 0 ∧
    readRegister s 1 = s.errinfo ∧
    readRegister s 2 = s.rlen ∧
    (readRegister s 3).toNat = s.es.toNat ∧
    readRegister s 7 ++ readRegister s 6 ++ readRegister s 5 ++ readRegister s 4 = s.p ∧
    (7 < n → readRegister s n = 0)

/-- 10_state.md R116: the registers after reset, and a memory in which every byte is the free value of a byte that nothing has
written (log 2); and the block is then IDLE with STATUS reading 0. -/
def Obligations.ResetState : Prop :=
  State.reset.state = .idle ∧ State.reset.configured = false ∧ State.reset.p = 0 ∧ State.reset.es = 0 ∧
  State.reset.err = 0 ∧ State.reset.errinfo = 0 ∧ State.reset.rlen = 0 ∧ statusRegister State.reset = 0 ∧
  ∀ a, State.reset.byteAt a = Config.freeByte 0 a

/-- The reset event (70_reset_and_hazards.md R700), in any state: the registers as after reset, and every byte of MEM a free value
of its own, not the one it had (log 2, log 3); so nothing of the registers and the memory from before survives. -/
def Obligations.ResetEventForgets : Prop :=
  ∀ (s : State) (rest : List PortEvent), s.pending = .reset :: rest →
    ∃ t, step s = .next t ∧ t.state = .idle ∧ t.configured = false ∧ t.p = 0 ∧ t.es = 0 ∧ t.err = 0 ∧ t.errinfo = 0 ∧
      t.rlen = 0 ∧ t.memBytes = s.memBytes ∧ t.pending = rest ∧ t.seen = s.seen ∧ t.resets = s.resets + 1 ∧
      (∀ a, t.byteAt a = Config.freeByte (s.resets + 1) a) ∧
      ∀ s' : State, s'.pending = s.pending → s'.memBytes = s.memBytes → s'.seen = s.seen → s'.resets = s.resets →
        step s' = .next t

/-! ### Invariants and whole-machine rules -/

/-- The state after reset meets the invariant. -/
def Obligations.ResetMeetsInv : Prop := Inv State.reset

/-- Every step keeps the invariant: the memory stays canonical and below MEM_BYTES, P and ES stay a field instance exactly while
CONFIGURED, ERR and ERRINFO are 0 outside ERROR, and in ERROR a raised code stands with RLEN = 0 (10_state.md R102 to R108). -/
def Obligations.StepKeepsInv : Prop := ∀ s t : State, Inv s → step s = .next t → Inv t

/-- No word on the command port stops the machine: from every state, whatever the word, a next state follows
(60_exceptions.md R600, R610, R612; 10_state.md R121). -/
def Obligations.CommandPortNeverStops : Prop := ∀ (s : State) (cw : CommandWord), ∃ t, issue cw s = .next t

/-- 60_exceptions.md R610, R602: when a word accepted in IDLE leaves the block in ERROR, exactly ERR, ERRINFO, RLEN and STATE have
changed, ERRINFO to the word's W0 and RLEN to 0, and ERR to the code of an error, as 60_exceptions.md R601 numbers them. -/
def Obligations.ErrorEntry : Prop :=
  (ErrorCode.invalidArgument.code = 1 ∧ ErrorCode.dimensionMismatch.code = 2 ∧ ErrorCode.invalidDomain.code = 3 ∧
    ErrorCode.outOfRange.code = 4 ∧ ErrorCode.notFound.code = 5 ∧ ErrorCode.illegalCommand.code = 8 ∧
    ErrorCode.notConfigured.code = 9 ∧ ErrorCode.alreadyConfigured.code = 10 ∧ ErrorCode.badAddress.code = 11 ∧
    ErrorCode.overlap.code = 12 ∧ ErrorCode.capacityExceeded.code = 13) ∧
  ∀ (s t : State) (cw : CommandWord), s.state = .idle → issue cw s = .next t → t.state = .error →
    ∃ e : ErrorCode, t = { s with err := e.code, errinfo := cw.w0, rlen := 0, state := .error }

/-- 60_exceptions.md R612, 10_state.md R121: in ERROR the ACK word returns to IDLE and every other word changes nothing; in BUSY no
word has an effect. -/
def Obligations.WordsDroppedOutsideIdle : Prop :=
  ∀ (s : State) (cw : CommandWord),
    (s.state = .busy → issue cw s = .next s) ∧
    (s.state = .error → cw ≠ ⟨0x00000002, 0, 0, 0, 0, 0, 0, 0⟩ → issue cw s = .next s) ∧
    (s.state = .error →
      issue ⟨0x00000002, 0, 0, 0, 0, 0, 0, 0⟩ s = .next { s with err := 0, errinfo := 0, state := .idle })

/-- The order of checks of a data command in IDLE (60_exceptions.md R620): configuration, its own check, bounds, overlap, and only
then an evaluation, which succeeds or raises one of the data-dependent errors. The bounds check is 20_memory.md R212's, and it fails
for ZPOLY (44_polynomial.md R466), MATMUL (43_bulk.md R451) and QBATCH (45_fft_interp.md R488) with 2^32 result elements or more.
The model's choice (log 18, DESIGN CHOICE): where ES = 1, DST = 0, MEM_BYTES = 2^32 and a command has exactly 2^32 result elements,
these three raise BAD_ADDRESS by their own rules, which R212's comparison alone would let pass, and PMUL, whose rule says nothing
of it, passes by R212 and raises OVERLAP. -/
def Obligations.StageOrder : Prop :=
  ∀ (s : State) (i : Instr) (sh : Shape), Inv s → s.state = .idle → i.shape = some sh →
    (s.configured = false → exec i s = .next (raise .notConfigured (encode i).w0 s)) ∧
    (s.configured = true → ∀ e, sh.check = some e → exec i s = .next (raise e (encode i).w0 s)) ∧
    (s.configured = true → sh.check = none →
      ¬(sh.tooMany = false ∧ Fits s sh.dst sh.count ∧ ∀ r ∈ sh.sources, Fits s r.1 r.2) →
      exec i s = .next (raise .badAddress (encode i).w0 s)) ∧
    (s.configured = true → sh.check = none →
      (sh.tooMany = false ∧ Fits s sh.dst sh.count ∧ ∀ r ∈ sh.sources, Fits s r.1 r.2) →
      ¬(OffScratch s sh.dst sh.count ∧ ∀ r ∈ sh.sources, Apart s sh.dst sh.count r.1 r.2) →
      exec i s = .next (raise .overlap (encode i).w0 s)) ∧
    (s.configured = true → sh.check = none → Admitted s sh.dst sh.count sh.sources →
      (∃ t vals, exec i s = .next t ∧ Stored s t sh.dst vals ∧ vals.length ≤ sh.count) ∨
      ∃ e, exec i s = .next (raise e (encode i).w0 s) ∧ e ∈ [.invalidArgument, .notFound, .capacityExceeded])

/-- 10_state.md R102 to R104, 70_reset_and_hazards.md R701: P, ES and CONFIGURED change only by the reset event and by a SETMOD
word accepted in IDLE while CONFIGURED = 0, which sets P to a legal modulus. -/
def Obligations.FieldWrittenOnceBetweenResets : Prop :=
  ∀ s t : State, step s = .next t →
    (t.p = s.p ∧ t.es = s.es ∧ t.configured = s.configured) ∨
    (∃ rest, s.pending = .reset :: rest ∧ t.p = 0 ∧ t.es = 0 ∧ t.configured = false) ∨
    ∃ q rest, s.pending = .command (encode (.setmod q)) :: rest ∧ s.state = .idle ∧ s.configured = false ∧
      2 ≤ q ∧ q < 2 ^ 128 ∧ t.p.toNat = q ∧ t.configured = true

/-- 20_memory.md R215: whatever a data command does, the bytes outside `Region(DST, RLEN)` read as before, and RLEN is no more
than its destination region has room for. -/
def Obligations.OnlyDestinationWritten : Prop :=
  ∀ (s t : State) (i : Instr) (sh : Shape), Inv s → s.state = .idle → i.shape = some sh → exec i s = .next t →
    t.rlen.toNat ≤ sh.count ∧
    ∀ a, a < sh.dst ∨ sh.dst + t.rlen.toNat * s.elemBytes ≤ a → t.byteAt a = s.byteAt a

/-- 20_memory.md R214: no command writes a byte of any of its own operands or of the scratch slot, and SETMOD and ACK write no byte
at all. -/
def Obligations.OperandsAndScratchNeverWritten : Prop :=
  ∀ (s t : State) (i : Instr), Inv s → exec i s = .next t →
    (∀ a, a < 16 → t.byteAt a = s.byteAt a) ∧
    (∀ sh, i.shape = some sh → ∀ r ∈ sh.sources, ∀ a, r.1 ≤ a → a < r.1 + r.2 * s.elemBytes → t.byteAt a = s.byteAt a) ∧
    (i.shape = none → ∀ a, t.byteAt a = s.byteAt a)

/-- 20_memory.md R207: every element a successful data command stores is canonical, in [0, P). -/
def Obligations.StoredElementsCanonical : Prop :=
  ∀ (s t : State) (i : Instr) (sh : Shape), Inv s → s.state = .idle → i.shape = some sh → exec i s = .next t →
    t.state = .idle → ∀ k, k < t.rlen.toNat → loadRaw t sh.dst k < s.modulus

/-- 20_memory.md R215, 70_reset_and_hazards.md R717: a data command reads only its source regions, and the scratch slot in the
`.VS` forms. Two states with the same registers, MEM_BYTES and bytes there, whatever the rest of MEM, end with the same registers
and the same elements at DST. -/
def Obligations.ResultDependsOnOperandsOnly : Prop :=
  ∀ (s s' t t' : State) (i : Instr) (sh : Shape), Inv s → Inv s' → i.shape = some sh → s.state = .idle →
    s'.state = s.state → s'.configured = s.configured → s'.p = s.p → s'.es = s.es → s'.memBytes = s.memBytes →
    (∀ r ∈ sh.sources, ∀ a, r.1 ≤ a → a < r.1 + r.2 * s.elemBytes → s'.byteAt a = s.byteAt a) →
    (i.readsScratch = true → ∀ a, a < 16 → s'.byteAt a = s.byteAt a) →
    exec i s = .next t → exec i s' = .next t' →
    t'.state = t.state ∧ t'.err = t.err ∧ t'.errinfo = t.errinfo ∧ t'.rlen = t.rlen ∧
      ∀ k, k < t.rlen.toNat → loadRaw t' sh.dst k = loadRaw t sh.dst k

/-! ### Memory accesses -/

/-- 20_memory.md R202: `MemRead(addr, n)` is the sum of the bytes times 2^(8k), below 2^(8n). -/
def Obligations.MemReadIsLittleEndianSum : Prop :=
  ∀ (s : State) (addr n : Nat),
    s.memRead addr n = ∑ k ∈ Finset.range n, (s.byteAt (addr + k)).toNat * 2 ^ (8 * k) ∧ s.memRead addr n < 2 ^ (8 * n)

/-- 20_memory.md R203: `MemWrite(addr, n, v)` sets byte addr + k to bits 8k+7..8k of v, and changes nothing else; that the
memory is a list in a canonical form, which is kept, is the model's own representation (log 2). -/
def Obligations.MemWriteSetsBytes : Prop :=
  ∀ (s : State) (addr n v : Nat),
    (∀ k, k < n → State.byteAt { s with mem := s.mem.write addr n v } (addr + k) = BitVec.ofNat 8 (v / 2 ^ (8 * k))) ∧
    (∀ a, a < addr ∨ addr + n ≤ a → State.byteAt { s with mem := s.mem.write addr n v } a = s.byteAt a) ∧
    (s.mem.wf → (s.mem.write addr n v).wf)

/-- 20_memory.md R205, R206, R209: LoadRaw reads ES bytes at base + i·ES, LoadF is that modulo P, and the scratch slot is bytes 0
to 15 whatever ES is, so that its value needs all 16. -/
def Obligations.OperandLoads : Prop :=
  ∀ (s : State) (base i : Nat),
    loadRaw s base i =
      ∑ k ∈ Finset.range s.es.toNat, (s.byteAt (base + i * s.es.toNat + k)).toNat * 2 ^ (8 * k) ∧
    loadF s base i = loadRaw s base i % s.p.toNat ∧
    scratch s = ∑ k ∈ Finset.range 16, (s.byteAt k).toNat * 2 ^ (8 * k) ∧
    scratchF s = scratch s % s.p.toNat

/-! ### Wide integers and field functions -/

/-- 40_wide_integer.md R400, R401: add128 and sub128 wrap modulo 2^128 and report the wrap. -/
def Obligations.WideAddSubExact : Prop :=
  ∀ a b : Nat, a < 2 ^ 128 → b < 2 ^ 128 →
    ((add128 a b).1 = (a + b) % 2 ^ 128 ∧ (add128 a b).2 = (a + b) / 2 ^ 128 ∧ (add128 a b).2 ≤ 1 ∧
      a + b = (add128 a b).2 * 2 ^ 128 + (add128 a b).1) ∧
    ((sub128 a b).1 = residue (2 ^ 128) ((a : Int) - b) ∧ (sub128 a b).2 = (if a < b then 1 else 0) ∧
      (a : Int) - b = (sub128 a b).1 - (sub128 a b).2 * 2 ^ 128)

/-- 40_wide_integer.md R405, 41_field_ops.md R413: for a prime p, inv(0) = 0 and inv(a) for 0 < a < p is the unique y in [0, p)
with a·y ≡ 1; it is an involution. For any p ≥ 2 the same holds of every a coprime to p. That the result is in [0, p) also for
an a with a common factor with a composite p is the model's free value (log 9), as 93_implementation_defined.md U2 bounds it. -/
def Obligations.InverseIsTheInverse : Prop :=
  ∀ p a : Nat, 2 ≤ p → a < p →
    fieldInv p a < p ∧ (a = 0 → fieldInv p a = 0) ∧
    (Nat.Coprime a p → a * fieldInv p a % p = 1 ∧ ∀ y, y < p → a * y % p = 1 → y = fieldInv p a) ∧
    (p.Prime → a ≠ 0 → a * fieldInv p a % p = 1) ∧ (p.Prime → fieldInv p (fieldInv p a) = a)

/-- 41_field_ops.md R410, R411: add and sub are the residues of the sum and the difference, and the source's recipes on 128-bit
words with carry and borrow give exactly them on canonical elements. -/
def Obligations.AddSubRecipesAgree : Prop :=
  ∀ p x y : Nat, 2 ≤ p → p < 2 ^ 128 → x < p → y < p →
    fieldAdd p x y = (x + y) % p ∧ addRecipe p x y = (x + y) % p ∧
    fieldSub p x y = residue p ((x : Int) - y) ∧ subRecipe p x y = residue p ((x : Int) - y)

/-- 41_field_ops.md R416, R417: right-to-left square-and-multiply computes `b^m mod p` for every m ≥ 0. -/
def Obligations.SquareAndMultiplyIsPower : Prop := ∀ p b m : Nat, 2 ≤ p → b < p → fieldPow p b m = b ^ m % p

/-- 41_field_ops.md R419: the algebraic laws of the field functions on canonical elements, for a prime p. -/
def Obligations.FieldLaws : Prop :=
  ∀ p x y z : Nat, p.Prime → x < p → y < p → z < p →
    fieldAdd p x (fieldNeg p x) = 0 ∧ fieldAdd p x 0 = x ∧
    fieldAdd p (fieldAdd p x y) z = fieldAdd p x (fieldAdd p y z) ∧
    (x ≠ 0 → fieldMul p x (fieldInv p x) = 1) ∧ fieldInv p 0 = 0 ∧ fieldMul p x 1 = x ∧
    fieldMul p (fieldMul p x y) z = fieldMul p x (fieldMul p y z) ∧
    fieldMul p x (fieldAdd p y z) = fieldAdd p (fieldMul p x y) (fieldMul p x z) ∧
    (x ≠ 0 → fieldExp p x ((p : Int) - 1) = .ok 1) ∧
    ∀ a b : Int, (x = 0 → a ≠ 0 ∧ b ≠ 0 ∧ a + b ≠ 0) →
      ∃ u v w, fieldExp p x a = .ok u ∧ fieldExp p x b = .ok v ∧ fieldExp p x (a + b) = .ok w ∧ w = fieldMul p u v

/-- 42_elementwise.md R437: for a prime p the source's batch inversion, one field inversion and two passes of multiplications,
gives exactly the elementwise inverses, zeros mapped to zero; and the model's `batchInv` is that list. -/
def Obligations.MontgomeryBatchInversion : Prop :=
  ∀ (p : Nat) (v : List Nat), p.Prime → (∀ x ∈ v, x < p) →
    montgomeryBatchInv p v = v.map (fieldInv p) ∧ batchInv p v = v.map (fieldInv p)

/-! ### Control commands -/

/-- 47_control.md R510: SETMOD. The two errors; and success: P, ES, CONFIGURED and RLEN, with ES = ceil(bit_width(p)/8), nothing
else changed; a malformed SETMOD word is illegal. -/
def Obligations.SetmodConfigures : Prop :=
  (∀ (s : State) (q : Nat), s.state = .idle → q < 2 ^ 128 →
    (s.configured = true → exec (.setmod q) s = .next (raise .alreadyConfigured 0x00000001 s)) ∧
    (s.configured = false → q < 2 → exec (.setmod q) s = .next (raise .invalidArgument 0x00000001 s)) ∧
    (s.configured = false → 2 ≤ q →
      ∃ t, exec (.setmod q) s = .next t ∧
        t = { s with p := BitVec.ofNat 128 q, es := t.es, configured := true, rlen := 0, err := 0, errinfo := 0, state := .idle } ∧
        t.p.toNat = q ∧ 1 ≤ t.es.toNat ∧ t.es.toNat ≤ 16 ∧ q < 2 ^ (8 * t.es.toNat) ∧
        (t.es.toNat = 1 ∨ 2 ^ (8 * (t.es.toNat - 1)) ≤ q))) ∧
  ∀ (s : State) (cw : CommandWord), s.state = .idle → cw.opcodeField = 0x01 →
    (cw.w0 ≠ 0x00000001 ∨ cw.w1 ≠ 0 ∨ cw.w2 ≠ 0 ∨ cw.w3 ≠ 0) →
    issue cw s = .next (raise .illegalCommand cw.w0 s)

/-- 47_control.md R511: ACK. In ERROR and in IDLE it completes, writing ERR, ERRINFO and STATE only; it does not need CONFIGURED;
a malformed ACK word is illegal in IDLE and dropped in ERROR. -/
def Obligations.AckAcknowledges : Prop :=
  (∀ s : State, s.state ≠ .busy → exec .ack s = .next { s with err := 0, errinfo := 0, state := .idle }) ∧
  ∀ (s : State) (cw : CommandWord), cw.opcodeField = 0x02 → cw ≠ ⟨0x00000002, 0, 0, 0, 0, 0, 0, 0⟩ →
    (s.state = .idle → issue cw s = .next (raise .illegalCommand cw.w0 s)) ∧ (s.state = .error → issue cw s = .next s)

/-! ### Scalar commands -/

/-- FADD and FSUB complete with the residue of the sum and of the difference (41_field_ops.md R420, R421). -/
def Obligations.FaddFsubComplete : Prop :=
  ∀ (s : State) (dst a b : Nat), Ready s → Admitted s dst 1 [(a, 1), (b, 1)] →
    (∃ t, exec (.fadd dst a b) s = .next t ∧ Stored s t dst [(loadF s a 0 + loadF s b 0) % s.modulus]) ∧
    ∃ t, exec (.fsub dst a b) s = .next t ∧ Stored s t dst [residue s.modulus ((loadF s a 0 : Int) - loadF s b 0)]

/-- FMUL and FNEG complete with the residue of the product and of the negation (41_field_ops.md R422, R425). -/
def Obligations.FmulFnegComplete : Prop :=
  (∀ (s : State) (dst a b : Nat), Ready s → Admitted s dst 1 [(a, 1), (b, 1)] →
    ∃ t, exec (.fmul dst a b) s = .next t ∧ Stored s t dst [loadF s a 0 * loadF s b 0 % s.modulus]) ∧
  ∀ (s : State) (dst a : Nat), Ready s → Admitted s dst 1 [(a, 1)] →
    ∃ t, exec (.fneg dst a) s = .next t ∧ Stored s t dst [residue s.modulus (-(loadF s a 0 : Int))]

/-- FINV and FDIV complete with a canonical result (41_field_ops.md R424, R423): the inverse, or 0 for 0; the quotient, or 0 for
the divisor 0. Of an operand with a common factor with a composite P only canonicity is said (a free value, log 9). -/
def Obligations.FinvFdivComplete : Prop :=
  (∀ (s : State) (dst a : Nat), Ready s → Admitted s dst 1 [(a, 1)] →
    ∃ t r, exec (.finv dst a) s = .next t ∧ Stored s t dst [r] ∧ r < s.modulus ∧
      (loadF s a 0 = 0 → r = 0) ∧ (Nat.Coprime (loadF s a 0) s.modulus → loadF s a 0 * r % s.modulus = 1)) ∧
  ∀ (s : State) (dst a b : Nat), Ready s → Admitted s dst 1 [(a, 1), (b, 1)] →
    ∃ t r, exec (.fdiv dst a b) s = .next t ∧ Stored s t dst [r] ∧ r < s.modulus ∧
      (loadF s b 0 = 0 → r = 0) ∧
      (Nat.Coprime (loadF s b 0) s.modulus → loadF s b 0 * r % s.modulus = loadF s a 0)

/-- FEXP (41_field_ops.md R426): the exponent is the raw element at SRC_B, not reduced. 0 to the 0 raises INVALID_ARGUMENT;
otherwise it completes with the power, or with NEG the power of the inverse. -/
def Obligations.FexpCompletes : Prop :=
  ∀ (s : State) (neg : Bool) (dst a b : Nat), Ready s → Admitted s dst 1 [(a, 1), (b, 1)] →
    (loadF s a 0 = 0 → loadRaw s b 0 = 0 →
      exec (.fexp neg dst a b) s = .next (raise .invalidArgument (if neg then 0x00000214 else 0x00000014) s)) ∧
    (loadF s a 0 ≠ 0 ∨ loadRaw s b 0 ≠ 0 →
      ∃ t r, exec (.fexp neg dst a b) s = .next t ∧ Stored s t dst [r] ∧ r < s.modulus ∧
        (neg = false → r = loadF s a 0 ^ loadRaw s b 0 % s.modulus) ∧
        (loadRaw s b 0 = 0 → r = 1) ∧ (loadF s a 0 = 0 → r = 0) ∧
        (neg = true → Nat.Coprime (loadF s a 0) s.modulus → r * loadF s a 0 ^ loadRaw s b 0 % s.modulus = 1))

/-! ### Elementwise commands -/

/-- VADD, VSUB and VMUL, both forms, complete with the residues lane by lane; the vs form uses the whole scratch slot modulo P in
every lane (42_elementwise.md R430 to R433). -/
def Obligations.ElementwiseAddSubMulComplete : Prop :=
  (∀ (s : State) (dst a b n : Nat), Ready s → Admitted s dst n [(a, n), (b, n)] →
    (∃ t, exec (.vaddVV dst a b n n) s = .next t ∧
      Stored s t dst ((List.range n).map fun i => (loadF s a i + loadF s b i) % s.modulus)) ∧
    (∃ t, exec (.vsubVV dst a b n n) s = .next t ∧
      Stored s t dst ((List.range n).map fun i => residue s.modulus ((loadF s a i : Int) - loadF s b i))) ∧
    ∃ t, exec (.vmulVV dst a b n n) s = .next t ∧
      Stored s t dst ((List.range n).map fun i => loadF s a i * loadF s b i % s.modulus)) ∧
  ∀ (s : State) (dst a n : Nat), Ready s → Admitted s dst n [(a, n)] →
    (∃ t, exec (.vaddVS dst a n) s = .next t ∧
      Stored s t dst ((List.range n).map fun i => (loadF s a i + scratch s) % s.modulus)) ∧
    (∃ t, exec (.vsubVS dst a n) s = .next t ∧
      Stored s t dst ((List.range n).map fun i => residue s.modulus ((loadF s a i : Int) - scratch s))) ∧
    ∃ t, exec (.vmulVS dst a n) s = .next t ∧
      Stored s t dst ((List.range n).map fun i => loadF s a i * scratch s % s.modulus)

/-- VDIV, both forms, completes with N0 canonical quotients; a zero divisor gives 0 in its lane and no error
(42_elementwise.md R434). Of a divisor with a common factor with a composite P only canonicity is said (log 9). -/
def Obligations.ElementwiseDivCompletes : Prop :=
  (∀ (s : State) (dst a b n : Nat), Ready s → Admitted s dst n [(a, n), (b, n)] →
    ∃ t r, exec (.vdivVV dst a b n n) s = .next t ∧ Stored s t dst ((List.range n).map r) ∧
      ∀ i, i < n → r i < s.modulus ∧ (loadF s b i = 0 → r i = 0) ∧
        (Nat.Coprime (loadF s b i) s.modulus → loadF s b i * r i % s.modulus = loadF s a i)) ∧
  ∀ (s : State) (dst a n : Nat), Ready s → Admitted s dst n [(a, n)] →
    ∃ t r, exec (.vdivVS dst a n) s = .next t ∧ Stored s t dst ((List.range n).map r) ∧
      ∀ i, i < n → r i < s.modulus ∧ (scratch s % s.modulus = 0 → r i = 0) ∧
        (Nat.Coprime (scratch s) s.modulus → scratch s * r i % s.modulus = loadF s a i)

/-- VEXP, both forms (42_elementwise.md R435): raw exponents. A lane with 0 to the 0 makes the whole command raise
INVALID_ARGUMENT; otherwise it completes with the powers lane by lane. -/
def Obligations.ElementwiseExpCompletes : Prop :=
  (∀ (s : State) (dst a b n : Nat), Ready s → Admitted s dst n [(a, n), (b, n)] →
    ((∃ i, i < n ∧ loadF s a i = 0 ∧ loadRaw s b i = 0) →
      exec (.vexpVV dst a b n n) s = .next (raise .invalidArgument 0x00000024 s)) ∧
    ((∀ i, i < n → loadF s a i ≠ 0 ∨ loadRaw s b i ≠ 0) →
      ∃ t, exec (.vexpVV dst a b n n) s = .next t ∧
        Stored s t dst ((List.range n).map fun i => loadF s a i ^ loadRaw s b i % s.modulus))) ∧
  ∀ (s : State) (dst a n : Nat), Ready s → Admitted s dst n [(a, n)] →
    ((∃ i, i < n ∧ loadF s a i = 0 ∧ scratch s = 0) →
      exec (.vexpVS dst a n) s = .next (raise .invalidArgument 0x00000124 s)) ∧
    ((∀ i, i < n → loadF s a i ≠ 0 ∨ scratch s ≠ 0) →
      ∃ t, exec (.vexpVS dst a n) s = .next t ∧
        Stored s t dst ((List.range n).map fun i => loadF s a i ^ scratch s % s.modulus))

/-- VNEG completes with the negations (42_elementwise.md R436); VINV with N0 canonical elements, zeros for zeros, and, where every
non-zero element is coprime to P, the inverses (R437, R438). -/
def Obligations.VnegVinvComplete : Prop :=
  ∀ (s : State) (dst a n : Nat), Ready s → Admitted s dst n [(a, n)] →
    (∃ t, exec (.vneg dst a n) s = .next t ∧
      Stored s t dst ((List.range n).map fun i => residue s.modulus (-(loadF s a i : Int)))) ∧
    ∃ t r, exec (.vinv dst a n) s = .next t ∧ Stored s t dst ((List.range n).map r) ∧
      (∀ i, i < n → r i < s.modulus ∧ (loadF s a i = 0 → r i = 0)) ∧
      ((∀ i, i < n → loadF s a i = 0 ∨ Nat.Coprime (loadF s a i) s.modulus) →
        ∀ i, i < n → loadF s a i ≠ 0 → loadF s a i * r i % s.modulus = 1)

/-! ### Bulk commands -/

/-- PSERIES completes with the first N0 powers of the seed; the first is 1, whatever the seed (43_bulk.md R450). -/
def Obligations.PseriesCompletes : Prop :=
  ∀ (s : State) (dst b n : Nat), Ready s → Admitted s dst n [(b, 1)] →
    ∃ t, exec (.pseries dst b n) s = .next t ∧
      Stored s t dst ((List.range n).map fun i => if i = 0 then 1 else loadF s b 0 ^ i % s.modulus)

/-- MATMUL completes with the row-major product; element (i, j) is `Σ_k A[i,k]·B[k,j] mod P` (43_bulk.md R451). -/
def Obligations.MatmulCompletes : Prop :=
  ∀ (s : State) (dst a b n m q : Nat), Ready s → Admitted s dst (n * q) [(a, n * m), (b, m * q)] →
    ∃ t vals, exec (.matmul dst a b n m m q) s = .next t ∧ Stored s t dst vals ∧ vals.length = n * q ∧
      ∀ i j, i < n → j < q →
        loadRaw t dst (i * q + j) = (∑ k ∈ Finset.range m, loadF s a (i * m + k) * loadF s b (k * q + j)) % s.modulus

/-- COMBINE completes with the inner product, 0 for empty arrays (43_bulk.md R452). -/
def Obligations.CombineCompletes : Prop :=
  ∀ (s : State) (dst a b n : Nat), Ready s → Admitted s dst 1 [(a, n), (b, n)] →
    ∃ t, exec (.combine dst a b n n) s = .next t ∧
      Stored s t dst [(∑ i ∈ Finset.range n, loadF s a i * loadF s b i) % s.modulus]

/-! ### Polynomial commands -/

/-- PADD and PSUB complete with max(N0, N1) coefficients, the shorter polynomial padded with zeros (44_polynomial.md R460, R461). -/
def Obligations.PaddPsubComplete : Prop :=
  ∀ (s : State) (dst a b n m : Nat), Ready s → Admitted s dst (max n m) [(a, n), (b, m)] →
    (∃ t, exec (.padd dst a b n m) s = .next t ∧
      Stored s t dst ((List.range (max n m)).map fun i =>
        ((if i < n then loadF s a i else 0) + (if i < m then loadF s b i else 0)) % s.modulus)) ∧
    ∃ t, exec (.psub dst a b n m) s = .next t ∧
      Stored s t dst ((List.range (max n m)).map fun i =>
        residue s.modulus ((if i < n then (loadF s a i : Int) else 0) - (if i < m then (loadF s b i : Int) else 0)))

/-- PMUL completes with N0 + N1 − 1 coefficients, the t-th the sum of the products with i + j = t (44_polynomial.md R462). -/
def Obligations.PmulCompletes : Prop :=
  ∀ (s : State) (dst a b n m : Nat), Ready s → n ≠ 0 → m ≠ 0 → Admitted s dst (n + m - 1) [(a, n), (b, m)] →
    ∃ t, exec (.pmul dst a b n m) s = .next t ∧
      Stored s t dst ((List.range (n + m - 1)).map fun d =>
        (∑ i ∈ Finset.range n, ∑ j ∈ Finset.range m, if i + j = d then loadF s a i * loadF s b j else 0) % s.modulus)

/-- PDIV (44_polynomial.md R464, R468). With A and B the two polynomials, zero above their lengths: it raises INVALID_ARGUMENT when
B is zero, or A has no coefficient at or above the degree d of B; otherwise, with e the degree of A, it completes with e − d + 1
coefficients, which for a prime P are the quotient: A = B·Q + rem with rem of degree below d. -/
def Obligations.PdivCompletes : Prop :=
  ∀ (s : State) (dst a b n m : Nat), Ready s → m ≤ n → Admitted s dst n [(a, n), (b, m)] →
    let A := fun i => if i < n then loadF s a i else 0
    let B := fun i => if i < m then loadF s b i else 0
    ((∀ j, B j = 0) → exec (.pdiv dst a b n m) s = .next (raise .invalidArgument 0x00000043 s)) ∧
    ∀ d, B d ≠ 0 → (∀ j, d < j → B j = 0) →
      ((∀ i, d ≤ i → A i = 0) → exec (.pdiv dst a b n m) s = .next (raise .invalidArgument 0x00000043 s)) ∧
      ∀ e, d ≤ e → A e ≠ 0 → (∀ i, e < i → A i = 0) →
        ∃ t vals, exec (.pdiv dst a b n m) s = .next t ∧ Stored s t dst vals ∧ vals.length = e - d + 1 ∧
          (∀ v ∈ vals, v < s.modulus) ∧
          (s.modulus.Prime → ∃ rem : Nat → Nat, (∀ i, d ≤ i → rem i = 0) ∧
            ∀ i, A i = (∑ j ∈ Finset.range (i + 1), B j * vals.getD (i - j) 0 + rem i) % s.modulus)

/-- PEVAL completes with the value of the polynomial at the point, 0 for no coefficients (44_polynomial.md R465, R469). -/
def Obligations.PevalCompletes : Prop :=
  ∀ (s : State) (dst a b n : Nat), Ready s → Admitted s dst 1 [(a, n), (b, 1)] →
    ∃ t, exec (.peval dst a b n) s = .next t ∧
      Stored s t dst [(∑ i ∈ Finset.range n, loadF s a i * loadF s b 0 ^ i) % s.modulus]

/-- ZPOLY completes with the N0 + 1 coefficients of `Π (x − x_i)` (44_polynomial.md R466, R470); for N0 = 2^32 − 1 the bounds check
fails (R466), wherever the regions are and however large MEM is (the model's choice of R466 over R212 where MEM_BYTES = 2^32: log 18,
DESIGN CHOICE). -/
def Obligations.ZpolyCompletes : Prop :=
  (∀ (s : State) (dst a : Nat), Ready s →
    exec (.zpoly dst a (2 ^ 32 - 1)) s = .next (raise .badAddress 0x00000045 s)) ∧
  ∀ (s : State) (dst a n : Nat), Ready s → Admitted s dst (n + 1) [(a, n)] →
    ∃ t vals, exec (.zpoly dst a n) s = .next t ∧ Stored s t dst vals ∧ vals.length = n + 1 ∧
      ∀ i, i ≤ n → vals.getD i 0 < s.modulus ∧
        ((vals.getD i 0 : Nat) : ZMod s.modulus) =
          (∏ j ∈ Finset.range n, (Polynomial.X - Polynomial.C ((loadF s a j : Nat) : ZMod s.modulus))).coeff i

/-! ### FFT and interpolation -/

/-- FFT completes with what the recursion of 45_fft_interp.md R481 computes from the zero-padded polynomial v and the roots array w
as stored, power cycle or not (R480, R482): cases A and B, and for n ≥ 4 a function of depth, offset and index that satisfies the
base case and the two combine equations of the rule, at depth 0 and offset 0. -/
def Obligations.FftFollowsRecursion : Prop :=
  ∀ (s : State) (dst a b n k : Nat), Ready s → n ≤ 2 ^ k → Admitted s dst (2 ^ k) [(a, n), (b, 2 ^ k)] →
    ∃ t vals, exec (.fft dst a b n (2 ^ k)) s = .next t ∧ Stored s t dst vals ∧ vals.length = 2 ^ k ∧
      let v := fun i => if i < n then loadF s a i else 0
      let w := fun i => loadF s b i
      (k = 0 → vals = [v 0]) ∧
      (k = 1 → vals = [(v 0 + v 1 * w 0) % s.modulus, residue s.modulus ((v 0 : Int) - v 1 * w 0)]) ∧
      (2 ≤ k → ∃ rec : Nat → Nat → Nat → Nat,
        (∀ offset i, i < 4 → rec (k - 2) offset i =
          (∑ j ∈ Finset.range 4, v (offset + j * 2 ^ (k - 2)) * w (i * j % 4 * 2 ^ (k - 2))) % s.modulus) ∧
        (∀ depth offset i, depth + 3 ≤ k → i < 2 ^ (k - depth - 1) →
          rec depth offset i =
            (rec (depth + 1) offset i + rec (depth + 1) (offset + 2 ^ depth) i * w (i * 2 ^ depth)) % s.modulus ∧
          rec depth offset (i + 2 ^ (k - depth - 1)) =
            residue s.modulus
              ((rec (depth + 1) offset i : Int) - rec (depth + 1) (offset + 2 ^ depth) i * w (i * 2 ^ depth))) ∧
        ∀ i, i < 2 ^ k → vals.getD i 0 = rec 0 0 i)

/-- 45_fft_interp.md R489 (a): for a prime P and a roots array that is the power cycle of a root of unity of order n = 2^k, FFT
stores the value of the polynomial at each root. -/
def Obligations.FftEvaluatesAtRoots : Prop :=
  ∀ (s : State) (dst a b n k w : Nat), Ready s → s.modulus.Prime → n ≤ 2 ^ k →
    Admitted s dst (2 ^ k) [(a, n), (b, 2 ^ k)] → RootOfUnity s.modulus k w →
    (∀ i, i < 2 ^ k → loadF s b i = w ^ i % s.modulus) →
    ∃ t, exec (.fft dst a b n (2 ^ k)) s = .next t ∧
      Stored s t dst ((List.range (2 ^ k)).map fun i =>
        (∑ j ∈ Finset.range n, loadF s a j * loadF s b i ^ j) % s.modulus)

/-- IFFT completes with the transform of ys over the reversed roots, whose first entry is the constant 1, each result times the
inverse of n modulo P (45_fft_interp.md R483, R484). -/
def Obligations.IfftCompletes : Prop :=
  ∀ (s : State) (dst a b k : Nat), Ready s → Admitted s dst (2 ^ k) [(a, 2 ^ k), (b, 2 ^ k)] →
    ∃ t, exec (.ifft dst a b (2 ^ k) (2 ^ k)) s = .next t ∧
      Stored s t dst
        ((fftCore s.modulus (loadArray s b (2 ^ k))
            ((List.range (2 ^ k)).map fun j => if j = 0 then 1 else loadF s a (2 ^ k - j)) k).map
          fun x => x * fieldInv s.modulus (2 ^ k % s.modulus) % s.modulus)

/-- 45_fft_interp.md R489 (b): for a prime P and the power cycle of a root of unity of order n = 2^k, IFFT of the values a
canonical coefficient list takes at the roots stores that list. -/
def Obligations.IfftInvertsFft : Prop :=
  ∀ (s : State) (dst a b k w : Nat) (c : List Nat), Ready s → s.modulus.Prime →
    Admitted s dst (2 ^ k) [(a, 2 ^ k), (b, 2 ^ k)] → RootOfUnity s.modulus k w →
    (∀ i, i < 2 ^ k → loadF s a i = w ^ i % s.modulus) → c.length = 2 ^ k → (∀ x ∈ c, x < s.modulus) →
    (∀ i, i < 2 ^ k → loadF s b i = (∑ j ∈ Finset.range (2 ^ k), c.getD j 0 * (w ^ i) ^ j) % s.modulus) →
    ∃ t, exec (.ifft dst a b (2 ^ k) (2 ^ k)) s = .next t ∧ Stored s t dst c

/-- LAGRANGE completes with N0 canonical coefficients (45_fft_interp.md R486), for a prime P those of R485's sum over the points of
y_i · inv(den_i) · Π_{m≠i} (X − x_m) with den_i = Π_{m≠i} (x_i − x_m) and inv(0) = 0, so that a point whose x is repeated
contributes nothing. -/
def Obligations.LagrangeFormula : Prop :=
  ∀ (s : State) (dst a b n : Nat), Ready s → Admitted s dst n [(a, n), (b, n)] →
    ∃ t vals, exec (.lagrange dst a b n n) s = .next t ∧ Stored s t dst vals ∧ vals.length = n ∧
      (∀ v ∈ vals, v < s.modulus) ∧
      (s.modulus.Prime →
        let x := fun i => ((loadF s a i : Nat) : ZMod s.modulus)
        let y := fun i => ((loadF s b i : Nat) : ZMod s.modulus)
        ∀ j, j < n → ((vals.getD j 0 : Nat) : ZMod s.modulus) =
          (∑ i ∈ Finset.range n,
            Polynomial.C (y i * (∏ m ∈ (Finset.range n).erase i, (x i - x m))⁻¹) *
              ∏ m ∈ (Finset.range n).erase i, (Polynomial.X - Polynomial.C (x m))).coeff j)

/-- 45_fft_interp.md R485: for a prime P and distinct x values, the polynomial LAGRANGE stores takes the value y_i at every x_i. -/
def Obligations.LagrangeInterpolates : Prop :=
  ∀ (s : State) (dst a b n : Nat), Ready s → s.modulus.Prime → Admitted s dst n [(a, n), (b, n)] →
    (∀ i j, i < n → j < n → loadF s a i = loadF s a j → i = j) →
    ∃ t vals, exec (.lagrange dst a b n n) s = .next t ∧ Stored s t dst vals ∧ vals.length = n ∧
      ∀ i, i < n → (∑ j ∈ Finset.range n, vals.getD j 0 * loadF s a i ^ j) % s.modulus = loadF s b i

/-- QBATCH completes with 4·N0 canonical coefficients (45_fft_interp.md R488), for a prime P row after row what `lagrange` gives for
the row's four points (R487), rows with a repeated x included. -/
def Obligations.QbatchIsRowwiseLagrange : Prop :=
  ∀ (s : State) (dst a b n : Nat), Ready s → Admitted s dst (4 * n) [(a, 4 * n), (b, 4 * n)] →
    ∃ t vals, exec (.qbatch dst a b n n) s = .next t ∧ Stored s t dst vals ∧ vals.length = 4 * n ∧
      (∀ v ∈ vals, v < s.modulus) ∧
      (s.modulus.Prime →
        vals = (List.range n).flatMap fun r =>
          lagrange s.modulus ((List.range 4).map fun k => loadF s a (4 * r + k))
            ((List.range 4).map fun k => loadF s b (4 * r + k)))

/-! ### Roots of unity -/

/-- PCYCLE (46_roots_twiddle.md R500): with L the least j ≥ 1 with w^j ≡ 1, if L ≤ N0 it completes with the powers below L; if
there is no such j among 1 .. N0 it raises CAPACITY_EXCEEDED. -/
def Obligations.PcycleCompletes : Prop :=
  ∀ (s : State) (dst b n : Nat), Ready s → Admitted s dst n [(b, 1)] →
    (∀ l, 1 ≤ l → l ≤ n → loadF s b 0 ^ l % s.modulus = 1 → (∀ j, 1 ≤ j → j < l → loadF s b 0 ^ j % s.modulus ≠ 1) →
      ∃ t, exec (.pcycle dst b n) s = .next t ∧
        Stored s t dst ((List.range l).map fun i => loadF s b 0 ^ i % s.modulus)) ∧
    ((∀ j, 1 ≤ j → j ≤ n → loadF s b 0 ^ j % s.modulus ≠ 1) →
      exec (.pcycle dst b n) s = .next (raise .capacityExceeded 0x00000054 s))

/-- ROOT (46_roots_twiddle.md R501), for every P, prime or not: order 1 stores 1; for order n = 2^k ≥ 2 it stores
`g = i^floor((P−1)/n) mod P` for the least i in 2 .. P − 1 with g^n = 1 and g^(n/2) ≠ 1, and raises NOT_FOUND when there is no
such i. -/
def Obligations.RootCompletes : Prop :=
  ∀ (s : State) (dst : Nat), Ready s → Admitted s dst 1 [] →
    (∃ t, exec (.root dst 1) s = .next t ∧ Stored s t dst [1]) ∧
    ∀ k, 1 ≤ k →
      let g := fun i => i ^ ((s.modulus - 1) / 2 ^ k) % s.modulus
      let good := fun i => 2 ≤ i ∧ i < s.modulus ∧ g i ^ 2 ^ k % s.modulus = 1 ∧ g i ^ 2 ^ (k - 1) % s.modulus ≠ 1
      (∀ i, good i → (∀ j, j < i → ¬good j) → ∃ t, exec (.root dst (2 ^ k)) s = .next t ∧ Stored s t dst [g i]) ∧
      ((∀ i, ¬good i) → exec (.root dst (2 ^ k)) s = .next (raise .notFound 0x00000055 s))

/-- 46_roots_twiddle.md R501: the shortcut the model takes for the moduli it lists as prime gives what the literal search gives,
for every power-of-two order. -/
def Obligations.RootShortcutIsLiteral : Prop := ∀ p k : Nat, rootOfUnity p (2 ^ k) = literalRoot p (2 ^ k)

/-- 46_roots_twiddle.md R502: for a prime p and n = 2^k dividing p − 1, ROOT finds a root g of order n, the power cycle of g has
exactly n elements, the j-th g^j, and for n ≥ 2 element n/2 is p − 1. -/
def Obligations.FftDomainFromRoot : Prop :=
  ∀ p k : Nat, p.Prime → 2 ^ k ∣ p - 1 →
    ∃ g, rootOfUnity p (2 ^ k) = some g ∧ RootOfUnity p k g ∧
      ∀ room, 2 ^ k ≤ room →
        powerCycle p g room = .ok ((List.range (2 ^ k)).map fun j => g ^ j % p) ∧
        (k ≠ 0 → g ^ 2 ^ (k - 1) % p = p - 1)

end
end

