-- ==== Sys2Proof/Laws/State.lean ====
section
/-! SUPPORT. One lemma per field per update of the state, true by rfl, so that no later proof unfolds a record update. -/

namespace Sys2Proof.Machine

/-! ### `raise` -/

@[simp] theorem raise_state (e : ErrorCode) (w : Word) (s : State) : (raise e w s).state = .error := rfl
@[simp] theorem raise_configured (e : ErrorCode) (w : Word) (s : State) : (raise e w s).configured = s.configured := rfl
@[simp] theorem raise_p (e : ErrorCode) (w : Word) (s : State) : (raise e w s).p = s.p := rfl
@[simp] theorem raise_es (e : ErrorCode) (w : Word) (s : State) : (raise e w s).es = s.es := rfl
@[simp] theorem raise_err (e : ErrorCode) (w : Word) (s : State) : (raise e w s).err = e.code := rfl
@[simp] theorem raise_errinfo (e : ErrorCode) (w : Word) (s : State) : (raise e w s).errinfo = w := rfl
@[simp] theorem raise_rlen (e : ErrorCode) (w : Word) (s : State) : (raise e w s).rlen = 0 := rfl
@[simp] theorem raise_mem (e : ErrorCode) (w : Word) (s : State) : (raise e w s).mem = s.mem := rfl
@[simp] theorem raise_memBytes (e : ErrorCode) (w : Word) (s : State) : (raise e w s).memBytes = s.memBytes := rfl
@[simp] theorem raise_resets (e : ErrorCode) (w : Word) (s : State) : (raise e w s).resets = s.resets := rfl
@[simp] theorem raise_pending (e : ErrorCode) (w : Word) (s : State) : (raise e w s).pending = s.pending := rfl
@[simp] theorem raise_seen (e : ErrorCode) (w : Word) (s : State) : (raise e w s).seen = s.seen := rfl

/-! ### `acknowledge` -/

@[simp] theorem acknowledge_state (s : State) : (acknowledge s).state = .idle := rfl
@[simp] theorem acknowledge_configured (s : State) : (acknowledge s).configured = s.configured := rfl
@[simp] theorem acknowledge_p (s : State) : (acknowledge s).p = s.p := rfl
@[simp] theorem acknowledge_es (s : State) : (acknowledge s).es = s.es := rfl
@[simp] theorem acknowledge_err (s : State) : (acknowledge s).err = 0 := rfl
@[simp] theorem acknowledge_errinfo (s : State) : (acknowledge s).errinfo = 0 := rfl
@[simp] theorem acknowledge_rlen (s : State) : (acknowledge s).rlen = s.rlen := rfl
@[simp] theorem acknowledge_mem (s : State) : (acknowledge s).mem = s.mem := rfl
@[simp] theorem acknowledge_memBytes (s : State) : (acknowledge s).memBytes = s.memBytes := rfl
@[simp] theorem acknowledge_resets (s : State) : (acknowledge s).resets = s.resets := rfl
@[simp] theorem acknowledge_pending (s : State) : (acknowledge s).pending = s.pending := rfl
@[simp] theorem acknowledge_seen (s : State) : (acknowledge s).seen = s.seen := rfl

/-! ### `commit` -/

@[simp] theorem commit_state (dst : Nat) (vals : List Nat) (s : State) : (commit dst vals s).state = .idle := rfl
@[simp] theorem commit_configured (dst : Nat) (vals : List Nat) (s : State) : (commit dst vals s).configured = s.configured := rfl
@[simp] theorem commit_p (dst : Nat) (vals : List Nat) (s : State) : (commit dst vals s).p = s.p := rfl
@[simp] theorem commit_es (dst : Nat) (vals : List Nat) (s : State) : (commit dst vals s).es = s.es := rfl
@[simp] theorem commit_err (dst : Nat) (vals : List Nat) (s : State) : (commit dst vals s).err = 0 := rfl
@[simp] theorem commit_errinfo (dst : Nat) (vals : List Nat) (s : State) : (commit dst vals s).errinfo = 0 := rfl
@[simp] theorem commit_rlen (dst : Nat) (vals : List Nat) (s : State) : (commit dst vals s).rlen = BitVec.ofNat 32 vals.length := rfl
@[simp] theorem commit_mem (dst : Nat) (vals : List Nat) (s : State) : (commit dst vals s).mem = s.mem.store s.es.toNat dst vals := rfl
@[simp] theorem commit_memBytes (dst : Nat) (vals : List Nat) (s : State) : (commit dst vals s).memBytes = s.memBytes := rfl
@[simp] theorem commit_resets (dst : Nat) (vals : List Nat) (s : State) : (commit dst vals s).resets = s.resets := rfl
@[simp] theorem commit_pending (dst : Nat) (vals : List Nat) (s : State) : (commit dst vals s).pending = s.pending := rfl
@[simp] theorem commit_seen (dst : Nat) (vals : List Nat) (s : State) : (commit dst vals s).seen = s.seen := rfl

/-! ### `configure` -/

@[simp] theorem configure_state (q : Nat) (s : State) : (configure q s).state = .idle := rfl
@[simp] theorem configure_configured (q : Nat) (s : State) : (configure q s).configured = true := rfl
@[simp] theorem configure_p (q : Nat) (s : State) : (configure q s).p = BitVec.ofNat 128 q := rfl
@[simp] theorem configure_es (q : Nat) (s : State) : (configure q s).es = BitVec.ofNat 5 (elementSize q) := rfl
@[simp] theorem configure_err (q : Nat) (s : State) : (configure q s).err = 0 := rfl
@[simp] theorem configure_errinfo (q : Nat) (s : State) : (configure q s).errinfo = 0 := rfl
@[simp] theorem configure_rlen (q : Nat) (s : State) : (configure q s).rlen = 0 := rfl
@[simp] theorem configure_mem (q : Nat) (s : State) : (configure q s).mem = s.mem := rfl
@[simp] theorem configure_memBytes (q : Nat) (s : State) : (configure q s).memBytes = s.memBytes := rfl
@[simp] theorem configure_resets (q : Nat) (s : State) : (configure q s).resets = s.resets := rfl
@[simp] theorem configure_pending (q : Nat) (s : State) : (configure q s).pending = s.pending := rfl
@[simp] theorem configure_seen (q : Nat) (s : State) : (configure q s).seen = s.seen := rfl

/-! ### `applyReset` -/

@[simp] theorem applyReset_state (s : State) : (applyReset s).state = .idle := rfl
@[simp] theorem applyReset_configured (s : State) : (applyReset s).configured = false := rfl
@[simp] theorem applyReset_p (s : State) : (applyReset s).p = 0 := rfl
@[simp] theorem applyReset_es (s : State) : (applyReset s).es = 0 := rfl
@[simp] theorem applyReset_err (s : State) : (applyReset s).err = 0 := rfl
@[simp] theorem applyReset_errinfo (s : State) : (applyReset s).errinfo = 0 := rfl
@[simp] theorem applyReset_rlen (s : State) : (applyReset s).rlen = 0 := rfl
@[simp] theorem applyReset_mem (s : State) : (applyReset s).mem = [] := rfl
@[simp] theorem applyReset_memBytes (s : State) : (applyReset s).memBytes = s.memBytes := rfl
@[simp] theorem applyReset_resets (s : State) : (applyReset s).resets = s.resets + 1 := rfl
@[simp] theorem applyReset_pending (s : State) : (applyReset s).pending = s.pending := rfl
@[simp] theorem applyReset_seen (s : State) : (applyReset s).seen = s.seen := rfl

/-! ### `withPending` -/

@[simp] theorem withPending_state (rest : List PortEvent) (s : State) : (s.withPending rest).state = s.state := rfl
@[simp] theorem withPending_configured (rest : List PortEvent) (s : State) : (s.withPending rest).configured = s.configured := rfl
@[simp] theorem withPending_p (rest : List PortEvent) (s : State) : (s.withPending rest).p = s.p := rfl
@[simp] theorem withPending_es (rest : List PortEvent) (s : State) : (s.withPending rest).es = s.es := rfl
@[simp] theorem withPending_err (rest : List PortEvent) (s : State) : (s.withPending rest).err = s.err := rfl
@[simp] theorem withPending_errinfo (rest : List PortEvent) (s : State) : (s.withPending rest).errinfo = s.errinfo := rfl
@[simp] theorem withPending_rlen (rest : List PortEvent) (s : State) : (s.withPending rest).rlen = s.rlen := rfl
@[simp] theorem withPending_mem (rest : List PortEvent) (s : State) : (s.withPending rest).mem = s.mem := rfl
@[simp] theorem withPending_memBytes (rest : List PortEvent) (s : State) : (s.withPending rest).memBytes = s.memBytes := rfl
@[simp] theorem withPending_resets (rest : List PortEvent) (s : State) : (s.withPending rest).resets = s.resets := rfl
@[simp] theorem withPending_pending (rest : List PortEvent) (s : State) : (s.withPending rest).pending = rest := rfl
@[simp] theorem withPending_seen (rest : List PortEvent) (s : State) : (s.withPending rest).seen = s.seen := rfl

/-! ### Operands read through the updates that leave MEM alone -/

@[simp] theorem byteAt_raise (e : ErrorCode) (w : Word) (s : State) (a : Nat) : (raise e w s).byteAt a = s.byteAt a := rfl
@[simp] theorem byteAt_acknowledge (s : State) (a : Nat) : (acknowledge s).byteAt a = s.byteAt a := rfl
@[simp] theorem byteAt_configure (q : Nat) (s : State) (a : Nat) : (configure q s).byteAt a = s.byteAt a := rfl
@[simp] theorem byteAt_withPending (rest : List PortEvent) (s : State) (a : Nat) :
    (s.withPending rest).byteAt a = s.byteAt a := rfl

/-! ### `accept` -/

theorem accept_idle {run : State → State} {s : State} (h : s.state = .idle) : accept run s = run s := by
  simp [accept, h]

theorem accept_not_idle {run : State → State} {s : State} (h : s.state ≠ .idle) : accept run s = s := by
  cases hs : s.state <;> simp_all [accept]

end Sys2Proof.Machine
end

