-- ==== Sys2Proof/Laws/Memory.lean ====
section
/-! SUPPORT. The laws of memory: what a read gives after a write, and that every operation keeps the canonical form. -/

namespace Sys2Proof.Machine

/-! ### One byte -/

@[simp] theorem get?_nil (a : Nat) : Memory.get? [] a = none := rfl

theorem get?_cons (k : Nat) (c : Byte) (m : Memory) (a : Nat) :
    Memory.get? ((k, c) :: m) a = if a = k then some c else Memory.get? m a := rfl

/-- A read after a write: the written byte at its offset, every other byte as before. -/
@[simp] theorem get?_set (m : Memory) (a : Nat) (b : Byte) (x : Nat) :
    (m.set a b).get? x = if x = a then some b else m.get? x := by
  induction m with
  | nil => simp [Memory.set, get?_cons]
  | cons c m ih =>
    obtain ⟨k, c⟩ := c
    simp only [Memory.set]
    split
    · simp [get?_cons]
    · split
      · rename_i h; subst h; simp only [get?_cons]; split <;> simp_all
      · simp only [get?_cons, ih]; split <;> split <;> simp_all

/-- The offsets listed after a write are those listed before and the written one. -/
theorem mem_set {m : Memory} {a : Nat} {b : Byte} {c : Host.Cell} (h : c ∈ m.set a b) : c = (a, b) ∨ c ∈ m := by
  induction m with
  | nil => simpa [Memory.set] using h
  | cons d m ih =>
    obtain ⟨k, d⟩ := d
    simp only [Memory.set] at h
    split at h
    · simpa using h
    · split at h
      · simp only [List.mem_cons] at h ⊢; tauto
      · simp only [List.mem_cons] at h ⊢
        rcases h with h | h
        · exact .inr (.inl h)
        · rcases ih h with h | h <;> tauto

/-- A write keeps the canonical form. -/
theorem wf_set {m : Memory} (h : m.wf) (a : Nat) (b : Byte) : (m.set a b).wf := by
  induction m with
  | nil => simp [Memory.set]
  | cons d m ih =>
    obtain ⟨k, d⟩ := d
    obtain ⟨hk, hm⟩ := List.pairwise_cons.1 h
    simp only [Memory.set]
    split
    · rename_i hak
      refine List.pairwise_cons.2 ⟨fun c hc => ?_, h⟩
      rcases List.mem_cons.1 hc with rfl | hc
      · exact hak
      · exact hak.trans (hk c hc)
    · split
      · rename_i hak; subst hak; exact List.pairwise_cons.2 ⟨hk, hm⟩
      · refine List.pairwise_cons.2 ⟨fun c hc => ?_, ih hm⟩
        rcases mem_set hc with rfl | hc
        · show k < a; omega
        · exact hk c hc

/-! ### `MemWrite`, `StoreF`, and the host's writes -/

/-- What an operation that writes bytes into the memory keeps: the canonical form, and every listed offset is an old one or
lies in the written range `[lo, hi)`. -/
structure Keeps (m m' : Memory) (lo hi : Nat) : Prop where
  wf : m.wf → m'.wf
  within : ∀ c ∈ m', c ∈ m ∨ (lo ≤ c.1 ∧ c.1 < hi)
  outside : ∀ a, (a < lo ∨ hi ≤ a) → m'.get? a = m.get? a

theorem Keeps.refl (m : Memory) (lo hi : Nat) : Keeps m m lo hi := ⟨id, fun _ h => .inl h, fun _ _ => rfl⟩

theorem Keeps.trans {m m' m'' : Memory} {lo hi lo' hi' l h : Nat} (h₁ : Keeps m m' lo hi) (h₂ : Keeps m' m'' lo' hi')
    (hl : l ≤ lo) (hl' : l ≤ lo') (hh : hi ≤ h) (hh' : hi' ≤ h) : Keeps m m'' l h := by
  refine ⟨fun w => h₂.wf (h₁.wf w), fun c hc => ?_, fun a ha => ?_⟩
  · rcases h₂.within c hc with hc | hc
    · rcases h₁.within c hc with hc | hc
      · exact .inl hc
      · exact .inr ⟨by omega, by omega⟩
    · exact .inr ⟨by omega, by omega⟩
  · rw [h₂.outside a (by omega), h₁.outside a (by omega)]

theorem keeps_set (m : Memory) (a : Nat) (b : Byte) : Keeps m (m.set a b) a (a + 1) := by
  refine ⟨fun w => wf_set w a b, fun c hc => ?_, fun x hx => ?_⟩
  · rcases mem_set hc with rfl | hc
    · exact .inr ⟨le_refl _, Nat.lt_succ_self _⟩
    · exact .inl hc
  · rw [get?_set, if_neg (by omega)]

theorem keeps_write (m : Memory) (addr n v : Nat) : Keeps m (m.write addr n v) addr (addr + n) := by
  induction n generalizing m addr v with
  | zero => exact Keeps.refl m _ _
  | succ n ih =>
    exact (keeps_set m addr _).trans (ih (m.set addr _) (addr + 1) (v / 256)) (le_refl _) (by omega) (by omega) (by omega)

theorem keeps_store (es : Nat) (m : Memory) (base : Nat) (vals : List Nat) :
    Keeps m (m.store es base vals) base (base + vals.length * es) := by
  induction vals generalizing m base with
  | nil => exact Keeps.refl m _ _
  | cons v vals ih =>
    have hlen : (v :: vals).length * es = vals.length * es + es := by simp [Nat.succ_mul]
    exact (keeps_write m base es v).trans (ih (m.write base es v) (base + es)) (le_refl _) (by omega) (by omega) (by omega)

theorem keeps_writeBytes (m : Memory) (a : Nat) (bs : List Byte) : Keeps m (m.writeBytes a bs) a (a + bs.length) := by
  induction bs generalizing m a with
  | nil => exact Keeps.refl m _ _
  | cons b bs ih =>
    exact (keeps_set m a b).trans (ih (m.set a b) (a + 1)) (le_refl _) (by omega) (by simp) (by simp; omega)

/-! ### Reading what was written -/

/-- `MemRead` depends on the bytes it reads and on nothing else. -/
theorem memRead_congr {s t : State} {addr n : Nat} (h : ∀ a, addr ≤ a → a < addr + n → t.byteAt a = s.byteAt a) :
    t.memRead addr n = s.memRead addr n := by
  induction n generalizing addr with
  | zero => rfl
  | succ n ih =>
    simp only [State.memRead]
    rw [h addr (le_refl _) (by omega), ih fun a h₁ h₂ => h a (by omega) (by omega)]

theorem memRead_lt (s : State) (addr n : Nat) : s.memRead addr n < 256 ^ n := by
  induction n generalizing addr with
  | zero => simp [State.memRead]
  | succ n ih =>
    have h₁ := ih (addr + 1)
    have h₂ := (s.byteAt addr).isLt
    simp only [State.memRead, Nat.pow_succ]
    omega

/-- `MemWrite` then `MemRead` of the same bytes gives the value back (20_memory.md R202, R203). -/
theorem memRead_write (s : State) (m : Memory) (addr n v : Nat) (hv : v < 256 ^ n) :
    State.memRead { s with mem := m.write addr n v } addr n = v := by
  induction n generalizing m addr v with
  | zero => simp at hv; simp [State.memRead, hv]
  | succ n ih =>
    have hdiv : v / 256 < 256 ^ n := Nat.div_lt_of_lt_mul (by rw [Nat.pow_succ] at hv; omega)
    have hbyte : State.byteAt { s with mem := m.write addr (n + 1) v } addr = BitVec.ofNat 8 v := by
      simp only [State.byteAt, Memory.write]
      rw [(keeps_write (m.set addr _) (addr + 1) n (v / 256)).outside addr (by omega)]
      simp
    simp only [State.memRead, hbyte]
    have := ih (m.set addr (BitVec.ofNat 8 v)) (addr + 1) (v / 256) hdiv
    simp only [Memory.write] at this ⊢
    rw [this, BitVec.toNat_ofNat]
    omega

/-- Element i after `StoreF` of a list of values that fit their elements is the i-th value (20_memory.md R207). -/
theorem memRead_store (s : State) (es : Nat) (m : Memory) (base : Nat) (vals : List Nat)
    (hv : ∀ v ∈ vals, v < 256 ^ es) (i : Nat) (hi : i < vals.length) :
    State.memRead { s with mem := m.store es base vals } (base + i * es) es = vals[i] := by
  induction vals generalizing m base i with
  | nil => simp at hi
  | cons v vals ih =>
    cases i with
    | zero =>
      have h : ∀ a, base + 0 * es ≤ a → a < base + 0 * es + es →
          State.byteAt { s with mem := m.store es base (v :: vals) } a =
            State.byteAt { s with mem := m.write base es v } a := by
        intro a _ h₂
        simp only [State.byteAt, Memory.store]
        rw [(keeps_store es (m.write base es v) (base + es) vals).outside a (by omega)]
      rw [memRead_congr h]
      simpa using memRead_write s m base es v (hv v (by simp))
    | succ i =>
      have := ih (m.write base es v) (base + es) (fun w hw => hv w (by simp [hw])) i (by simpa using hi)
      have haddr : base + es + i * es = base + (i + 1) * es := by rw [Nat.succ_mul]; omega
      rw [haddr] at this
      simpa [Memory.store] using this

/-- The byte at an offset depends on the memory and on the reset count only. -/
theorem byteAt_congr {s t : State} {a : Nat} (hm : t.mem.get? a = s.mem.get? a) (hr : t.resets = s.resets) :
    t.byteAt a = s.byteAt a := by simp [State.byteAt, hm, hr]

end Sys2Proof.Machine
end

