-- ==== Sys2Proof/Laws/Functions.lean ====
section
/-! SUPPORT. The small lemmas of the field functions and of the array functions: their value where it is one formula, that
every result is canonical, and how many elements there are. -/

namespace Sys2Proof.Machine

/-! ### Field functions -/

@[simp] theorem fieldAdd_eq (p x y : Nat) : fieldAdd p x y = (x + y) % p := by
  simp only [fieldAdd, add128, mod128]; congr 1; omega

@[simp] theorem fieldMul_eq (p x y : Nat) : fieldMul p x y = x * y % p := rfl

theorem fieldSub_eq {p x y : Nat} (hy : y < p) : fieldSub p x y = (x + (p - y)) % p := by
  rw [fieldSub, Nat.mod_eq_of_lt hy]; rfl

theorem fieldNeg_eq {p x : Nat} (hx : x < p) : fieldNeg p x = (p - x) % p := by
  rw [fieldNeg, Nat.mod_eq_of_lt hx]; rfl

theorem fieldSub_lt {p : Nat} (hp : 0 < p) (x y : Nat) : fieldSub p x y < p := Nat.mod_lt _ hp

theorem fieldNeg_lt {p : Nat} (hp : 0 < p) (x : Nat) : fieldNeg p x < p := Nat.mod_lt _ hp

theorem fieldInv_lt {p : Nat} (hp : 0 < p) (x : Nat) : fieldInv p x < p := by
  simp only [fieldInv, modinv128]
  split
  · exact hp
  · split
    · have h₁ := Int.emod_nonneg (euclid (x + 1) p x 0 1).2 (by omega : (p : Int) ≠ 0)
      have h₂ := Int.emod_lt_of_pos (euclid (x + 1) p x 0 1).2 (by omega : 0 < (p : Int))
      omega
    · exact Nat.mod_lt _ hp

@[simp] theorem fieldInv_zero (p : Nat) : fieldInv p 0 = 0 := rfl

theorem fieldDiv_lt {p : Nat} (hp : 0 < p) (x y : Nat) : fieldDiv p x y < p := Nat.mod_lt _ hp

theorem powLoop_lt {p : Nat} (hp : 0 < p) (fuel r s k : Nat) (hr : r < p) : powLoop p fuel r s k < p := by
  induction fuel generalizing r s k with
  | zero => exact hr
  | succ fuel ih =>
    simp only [powLoop]
    split
    · exact hr
    · exact ih _ _ _ (by split; exacts [Nat.mod_lt _ hp, hr])

theorem fieldPow_lt {p : Nat} (hp : 2 ≤ p) (b m : Nat) : fieldPow p b m < p := powLoop_lt (by omega) m 1 b m (by omega)

/-- What `exp` can do: the one error, for 0 to the 0, or a canonical power. -/
theorem fieldExp_cases {p : Nat} (hp : 2 ≤ p) (b : Nat) (e : Int) :
    (e = 0 ∧ b = 0 ∧ fieldExp p b e = .error .invalidArgument) ∨
      ∃ v, v < p ∧ fieldExp p b e = .ok v := by
  simp only [fieldExp]
  by_cases he : e = 0
  · subst he
    by_cases hb : b = 0
    · exact .inl ⟨rfl, hb, by simp [hb]⟩
    · exact .inr ⟨fieldPow p b 0, fieldPow_lt hp b 0, by simp [hb]⟩
  · exact .inr ⟨fieldPow p (if e < 0 then fieldInv p b else b) e.natAbs, fieldPow_lt hp _ _, by simp [he]⟩

/-! ### Lists of elements -/

/-- Every element is canonical (00_scope.md Glossary). -/
def Canonical (p : Nat) (vals : List Nat) : Prop := ∀ v ∈ vals, v < p

theorem Canonical.nil (p : Nat) : Canonical p [] := by simp [Canonical]

theorem Canonical.cons {p v : Nat} {vals : List Nat} (hv : v < p) (h : Canonical p vals) : Canonical p (v :: vals) := by
  simpa [Canonical] using ⟨hv, h⟩

theorem Canonical.map {α : Type} {p : Nat} {f : α → Nat} (l : List α) (h : ∀ x, f x < p) : Canonical p (l.map f) := by
  intro v hv
  obtain ⟨x, -, rfl⟩ := List.mem_map.1 hv
  exact h x

theorem Canonical.append {p : Nat} {l m : List Nat} (hl : Canonical p l) (hm : Canonical p m) : Canonical p (l ++ m) := by
  intro v hv
  rcases List.mem_append.1 hv with h | h
  exacts [hl v h, hm v h]

theorem Canonical.flatMap {α : Type} {p : Nat} {f : α → List Nat} (l : List α) (h : ∀ x, Canonical p (f x)) :
    Canonical p (l.flatMap f) := by
  intro v hv
  obtain ⟨x, -, hx⟩ := List.mem_flatMap.1 hv
  exact h x v hx

theorem Canonical.coeff_lt {p : Nat} {vals : List Nat} (h : Canonical p vals) (hp : 0 < p) (i : Nat) : coeff vals i < p := by
  rw [coeff, List.getD_eq_getElem?_getD]
  by_cases hi : i < vals.length
  · rw [List.getElem?_eq_getElem hi]; exact h _ (List.getElem_mem hi)
  · rw [List.getElem?_eq_none (by omega)]; exact hp

/-- All lanes succeed, or the first error is the outcome (20_memory.md R223). -/
theorem collect_cases {p : Nat} (l : List (Except ErrorCode Nat)) (h : ∀ x ∈ l, (∃ v, v < p ∧ x = .ok v) ∨ ∃ e, x = .error e) :
    (∃ vals, collect l = .ok vals ∧ vals.length = l.length ∧ Canonical p vals) ∨
      ∃ e, .error e ∈ l ∧ collect l = .error e := by
  induction l with
  | nil => exact .inl ⟨[], rfl, rfl, Canonical.nil p⟩
  | cons x l ih =>
    rcases h x (by simp) with ⟨v, hv, rfl⟩ | ⟨e, rfl⟩
    · rcases ih fun y hy => h y (by simp [hy]) with ⟨vals, h₁, h₂, h₃⟩ | ⟨e, h₁, h₂⟩
      · exact .inl ⟨v :: vals, by simp [collect, h₁], by simp [h₂], h₃.cons hv⟩
      · exact .inr ⟨e, by simp [h₁], by simp [collect, h₂]⟩
    · exact .inr ⟨e, by simp, rfl⟩

/-! ### Operands -/

@[simp] theorem loadArray_length (s : State) (base n : Nat) : (loadArray s base n).length = n := by simp [loadArray]

@[simp] theorem loadRawArray_length (s : State) (base n : Nat) : (loadRawArray s base n).length = n := by
  simp [loadRawArray]

theorem loadF_lt {s : State} (hp : 0 < s.modulus) (base i : Nat) : loadF s base i < s.modulus := Nat.mod_lt _ hp

theorem loadArray_canonical {s : State} (hp : 0 < s.modulus) (base n : Nat) : Canonical s.modulus (loadArray s base n) :=
  Canonical.map _ fun _ => Nat.mod_lt _ hp

theorem loadArray_getD {s : State} {base n i : Nat} (h : i < n) : (loadArray s base n).getD i 0 = loadF s base i := by
  simp [loadArray, h]

/-! ### Array functions: lengths -/

@[simp] theorem batchInv_length (p : Nat) (v : List Nat) : (batchInv p v).length = v.length := by
  simp only [batchInv]; split <;> simp

@[simp] theorem powerSeries_length (p s n c : Nat) : (powerSeries p s n c).length = n := by
  induction n generalizing c with
  | zero => rfl
  | succ n ih => simp [powerSeries, ih]

@[simp] theorem padded_length (f : Nat → Nat → Nat) (a b : List Nat) : (padded f a b).length = max a.length b.length := by
  simp [padded]

@[simp] theorem polyMul_length (p : Nat) (a b : List Nat) : (polyMul p a b).length = a.length + b.length - 1 := by
  simp [polyMul]

@[simp] theorem subtractShifted_length (p : Nat) (b : List Nat) (bpos q d : Nat) (r : List Nat) :
    (subtractShifted p b bpos q d r).length = r.length := by simp [subtractShifted]

@[simp] theorem divSteps_length (p : Nat) (b : List Nat) (bpos n : Nat) (r out : List Nat) :
    (divSteps p b bpos n r out).length = n + out.length := by
  induction n generalizing r out with
  | zero => simp [divSteps]
  | succ n ih => simp only [divSteps, ih, List.length_cons]; omega

@[simp] theorem timesLinear_length (p : Nat) (z : List Nat) (x : Nat) : (timesLinear p z x).length = z.length + 1 := by
  simp [timesLinear]

@[simp] theorem vanishing_length (p : Nat) (xs : List Nat) : (vanishing p xs).length = xs.length + 1 := by
  have h : ∀ z : List Nat, (xs.foldl (timesLinear p) z).length = z.length + xs.length := by
    induction xs with
    | nil => simp
    | cons x xs ih => intro z; rw [List.foldl_cons, ih]; simp; omega
  rw [vanishing, h]; simp; omega

@[simp] theorem fftRec_length (p : Nat) (values roots : List Nat) (level step offset : Nat) :
    (fftRec p values roots level step offset).length = 2 ^ (level + 2) := by
  cases level with
  | zero => simp [fftRec]
  | succ level => simp only [fftRec, List.length_append, List.length_map, List.length_range]; ring

@[simp] theorem fftCore_length (p : Nat) (values roots : List Nat) (k : Nat) : (fftCore p values roots k).length = 2 ^ k := by
  rcases k with _ | _ | k <;> simp [fftCore]

@[simp] theorem ifftCore_length (p : Nat) (roots ys : List Nat) (k : Nat) : (ifftCore p roots ys k).length = 2 ^ k := by
  simp [ifftCore]

@[simp] theorem accumulate_length (p : Nat) (acc : List Nat) (f : Nat) (num : List Nat) :
    (accumulate p acc f num).length = acc.length := by simp [accumulate]

@[simp] theorem lagrange_length (p : Nat) (xs ys : List Nat) : (lagrange p xs ys).length = xs.length := by
  have h : ∀ (l : List ((Nat × Nat) × List Nat)) (acc : List Nat),
      (l.foldl (fun acc t => accumulate p acc (fieldMul p t.1.1 t.1.2) t.2) acc).length = acc.length := by
    intro l
    induction l with
    | nil => simp
    | cons t l ih => intro acc; rw [List.foldl_cons, ih]; simp
  rw [lagrange, h]; simp

@[simp] theorem quarticRow_length (p : Nat) (x y i : List Nat) : (quarticRow p x y i).length = 4 := by
  simp [quarticRow, show List.range 4 = [0, 1, 2, 3] from rfl]

@[simp] theorem quarticBatch_length (p : Nat) (x y : List (List Nat)) : (quarticBatch p x y).length = 4 * x.length := by
  simp [quarticBatch, List.length_flatMap, Nat.mul_comm]

/-! ### Array functions: every result is canonical -/

theorem batchInv_canonical {p : Nat} (hp : 0 < p) (v : List Nat) : Canonical p (batchInv p v) := by
  simp only [batchInv]
  split
  · exact Canonical.map _ fun x => fieldInv_lt hp x
  · exact Canonical.map _ fun i => by split; exacts [hp, Nat.mod_lt _ hp]

theorem powerSeries_canonical {p : Nat} (hp : 0 < p) (s n c : Nat) (hc : c < p) : Canonical p (powerSeries p s n c) := by
  induction n generalizing c with
  | zero => exact Canonical.nil p
  | succ n ih => exact (ih _ (Nat.mod_lt _ hp)).cons hc

theorem fieldSum_lt {p : Nat} (hp : 0 < p) (m : Nat) (f : Nat → Nat) : fieldSum p m f < p := by
  cases m with
  | zero => exact hp
  | succ m => rw [fieldSum, List.range_succ, List.foldl_append]; simpa using Nat.mod_lt _ hp

theorem padded_canonical {p : Nat} {f : Nat → Nat → Nat} (h : ∀ x y, f x y < p) (a b : List Nat) : Canonical p (padded f a b) :=
  Canonical.map _ fun _ => h _ _

theorem polyMul_canonical {p : Nat} (hp : 0 < p) (a b : List Nat) : Canonical p (polyMul p a b) :=
  Canonical.map _ fun _ => fieldSum_lt hp _ _

theorem divSteps_canonical {p : Nat} (hp : 0 < p) (b : List Nat) (bpos n : Nat) (r out : List Nat) (h : Canonical p out) :
    Canonical p (divSteps p b bpos n r out) := by
  induction n generalizing r out with
  | zero => exact h
  | succ n ih => exact ih _ _ (h.cons (fieldDiv_lt hp _ _))

theorem polyEval_lt {p : Nat} (hp : 0 < p) (c : List Nat) (x : Nat) : polyEval p c x < p := by
  cases c with
  | nil => exact hp
  | cons a c => simpa [polyEval] using Nat.mod_lt _ hp

theorem vanishing_canonical {p : Nat} (hp : 2 ≤ p) (xs : List Nat) : Canonical p (vanishing p xs) := by
  have h : ∀ z : List Nat, Canonical p z → Canonical p (xs.foldl (timesLinear p) z) := by
    induction xs with
    | nil => exact fun z hz => hz
    | cons x xs ih => exact fun z _ => ih _ (Canonical.map _ fun _ => fieldSub_lt (by omega) _ _)
  exact h _ ((Canonical.nil p).cons (by omega))

theorem fftRec_canonical {p : Nat} (hp : 0 < p) (values roots : List Nat) (level step offset : Nat) :
    Canonical p (fftRec p values roots level step offset) := by
  cases level with
  | zero => exact Canonical.map _ fun _ => Nat.mod_lt _ hp
  | succ level =>
    exact (Canonical.map _ fun _ => by simpa using Nat.mod_lt _ hp).append (Canonical.map _ fun _ => fieldSub_lt hp _ _)

theorem fftCore_canonical {p : Nat} (hp : 0 < p) {values : List Nat} (hv : Canonical p values) (roots : List Nat) (k : Nat) :
    Canonical p (fftCore p values roots k) := by
  rcases k with _ | _ | k
  · exact (Canonical.nil p).cons (hv.coeff_lt hp 0)
  · exact ((Canonical.nil p).cons (fieldSub_lt hp _ _)).cons (by simpa using Nat.mod_lt _ hp)
  · exact fftRec_canonical hp values roots k 1 0

theorem ifftCore_canonical {p : Nat} (hp : 0 < p) (roots ys : List Nat) (k : Nat) : Canonical p (ifftCore p roots ys k) :=
  Canonical.map _ fun _ => Nat.mod_lt _ hp

theorem accumulate_canonical {p : Nat} (hp : 0 < p) (acc : List Nat) (f : Nat) (num : List Nat) :
    Canonical p (accumulate p acc f num) := Canonical.map _ fun _ => by simpa using Nat.mod_lt _ hp

theorem lagrange_canonical {p : Nat} (hp : 0 < p) (xs ys : List Nat) : Canonical p (lagrange p xs ys) := by
  have h : ∀ (l : List ((Nat × Nat) × List Nat)) (acc : List Nat), Canonical p acc →
      Canonical p (l.foldl (fun acc t => accumulate p acc (fieldMul p t.1.1 t.1.2) t.2) acc) := by
    intro l
    induction l with
    | nil => exact fun _ h => h
    | cons t l ih => exact fun acc _ => ih _ (accumulate_canonical hp _ _ _)
  refine h _ _ fun v hv => ?_
  rw [List.eq_of_mem_replicate hv]; exact hp

theorem quarticRow_canonical {p : Nat} (hp : 0 < p) (x y i : List Nat) : Canonical p (quarticRow p x y i) := by
  simp only [quarticRow, show List.range 4 = [0, 1, 2, 3] from rfl, List.foldl_cons, List.foldl_nil]
  exact accumulate_canonical hp _ _ _

theorem quarticBatch_canonical {p : Nat} (hp : 0 < p) (x y : List (List Nat)) : Canonical p (quarticBatch p x y) :=
  Canonical.flatMap _ fun _ => quarticRow_canonical hp _ _ _

/-! ### The functions with a result of data-dependent length -/

theorem lastNonzero_lt {l : List Nat} {i : Nat} (h : lastNonzero l = some i) : i < l.length := by
  induction l generalizing i with
  | nil => simp [lastNonzero] at h
  | cons x l ih =>
    simp only [lastNonzero] at h
    split at h
    · rename_i j hj
      have := ih hj
      simp only [Option.some.injEq] at h
      simp; omega
    · split at h
      · simp at h
      · simp only [Option.some.injEq] at h; simp; omega

/-- What `poly_div` can do (44_polynomial.md R468): INVALID_ARGUMENT, or a canonical quotient of `diff + 1` elements. -/
theorem polyDiv_cases {p : Nat} (hp : 0 < p) (a b : List Nat) :
    polyDiv p a b = .error .invalidArgument ∨
      ∃ apos bpos q, lastNonzero a = some apos ∧ lastNonzero b = some bpos ∧ bpos ≤ apos ∧ polyDiv p a b = .ok q ∧
        q.length = apos - bpos + 1 ∧ q.length ≤ a.length ∧ Canonical p q := by
  simp only [polyDiv]
  split
  · exact .inl rfl
  · exact .inl rfl
  · rename_i bpos apos hb ha
    split
    · exact .inl rfl
    · have := lastNonzero_lt ha
      exact .inr ⟨apos, bpos, _, ha, hb, by omega, rfl, by simp, by simp; omega,
        divSteps_canonical hp _ _ _ _ _ (Canonical.nil p)⟩

theorem cycleFrom_some {p w room c : Nat} {rest : List Nat} (hp : 0 < p) (hc : c < p) (h : cycleFrom p w room c = some rest) :
    rest.length ≤ room ∧ Canonical p rest := by
  induction room generalizing c rest with
  | zero =>
    simp only [cycleFrom] at h
    split at h
    · simp only [Option.some.injEq] at h; subst h; exact ⟨le_refl _, Canonical.nil p⟩
    · simp at h
  | succ room ih =>
    simp only [cycleFrom] at h
    split at h
    · simp only [Option.some.injEq] at h; subst h; exact ⟨by simp, Canonical.nil p⟩
    · obtain ⟨rest', h', rfl⟩ := Option.map_eq_some_iff.1 h
      obtain ⟨h₁, h₂⟩ := ih (Nat.mod_lt _ hp) h'
      exact ⟨by simpa using h₁, h₂.cons hc⟩

/-- What the power cycle can do (46_roots_twiddle.md R500): CAPACITY_EXCEEDED, or a canonical result within the capacity. -/
theorem powerCycle_cases {p w : Nat} (hp : 2 ≤ p) (hw : w < p) (cap : Nat) :
    powerCycle p w cap = .error .capacityExceeded ∨
      ∃ vals, powerCycle p w cap = .ok vals ∧ vals.length ≤ cap ∧ Canonical p vals := by
  cases cap with
  | zero => exact .inl rfl
  | succ room =>
    simp only [powerCycle]
    split
    · rename_i rest h
      obtain ⟨h₁, h₂⟩ := cycleFrom_some (by omega) hw h
      exact .inr ⟨_, rfl, by simpa using h₁, h₂.cons (by omega)⟩
    · exact .inl rfl

theorem rootSearch_lt {p order fuel i g : Nat} (hp : 2 ≤ p) (h : rootSearch p order fuel i = some g) : g < p := by
  induction fuel generalizing i with
  | zero => simp [rootSearch] at h
  | succ fuel ih =>
    simp only [rootSearch] at h
    split at h
    · simp only [Option.some.injEq] at h; subst h; exact fieldPow_lt hp _ _
    · exact ih h

theorem rootOfUnity_lt {p order g : Nat} (hp : 2 ≤ p) (h : rootOfUnity p order = some g) : g < p := by
  simp only [rootOfUnity, literalRoot] at h
  split at h
  · simp at h
  · split at h
    · simp only [Option.some.injEq] at h; omega
    · exact rootSearch_lt hp h

end Sys2Proof.Machine
end

