-- ==== Sys2Proof/Laws/Command.lean ====
section
/-! SUPPORT. What a data command can do, said once: the stages of 60_exceptions.md R620, what a successful one leaves, and that
every data command of `exec` is of this form, with a result that is canonical and fits its destination region. -/

namespace Sys2Proof

open Machine

/-! ### The checks, in the words of the statements -/

theorem outOfBounds_iff (s : State) (sh : Shape) :
    sh.outOfBounds s.es.toNat s.memBytes = false ↔
      sh.tooMany = false ∧ Fits s sh.dst sh.count ∧ ∀ r ∈ sh.sources, Fits s r.1 r.2 := by
  have h : ∀ base n : Nat, (region s.es.toNat base n).outOfBounds s.memBytes = false ↔ Fits s base n := by
    intro base n
    rw [Bool.eq_false_iff, Ne, ByteRange.outOfBounds, decide_eq_true_iff]
    simp only [region, Fits, State.elemBytes]
    omega
  rw [Shape.outOfBounds, List.any_cons, Bool.or_eq_false_iff, Bool.or_eq_false_iff, h, List.any_eq_false]
  simp only [Bool.not_eq_true, h]

theorem aliased_iff (s : State) (sh : Shape) :
    sh.aliased s.es.toNat = false ↔
      OffScratch s sh.dst sh.count ∧ ∀ r ∈ sh.sources, Apart s sh.dst sh.count r.1 r.2 := by
  have h : ∀ base n : Nat, (region s.es.toNat sh.dst sh.count).overlaps (region s.es.toNat base n) = false ↔
      Apart s sh.dst sh.count base n := by
    intro base n
    rw [Bool.eq_false_iff, Ne, ByteRange.overlaps, decide_eq_true_iff]
    simp only [region, Apart, State.elemBytes]
    omega
  have h' : (region s.es.toNat sh.dst sh.count).overlaps scratchRange = false ↔ OffScratch s sh.dst sh.count := by
    rw [Bool.eq_false_iff, Ne, ByteRange.overlaps, decide_eq_true_iff]
    simp only [region, scratchRange, OffScratch, State.elemBytes, Config.scratchBase, Config.scratchBytes]
    omega
  rw [Shape.aliased, Bool.or_eq_false_iff, h', List.any_eq_false, and_comm]
  simp only [Bool.not_eq_true, h]

/-- Stages 5 and 6 pass exactly when the command is admitted and its own rule has no bounds failure for its element count. -/
theorem admitted_iff (s : State) (sh : Shape) :
    (sh.tooMany = false ∧ Admitted s sh.dst sh.count sh.sources) ↔
      sh.outOfBounds s.es.toNat s.memBytes = false ∧ sh.aliased s.es.toNat = false := by
  rw [outOfBounds_iff, aliased_iff]
  constructor
  · exact fun ⟨h₀, h₁, h₂, h₃⟩ => ⟨⟨h₀, h₁, fun r hr => (h₃ r hr).1⟩, h₂, fun r hr => (h₃ r hr).2⟩
  · exact fun ⟨⟨h₀, h₁, h₂⟩, h₃, h₄⟩ => ⟨h₀, h₁, h₃, fun r hr => ⟨h₂ r hr, h₄ r hr⟩⟩

/-- A data command whose own rule fails the bounds check for its element count has 2^32 elements or more. -/
theorem count_of_tooMany {i : Instr} {sh : Shape} (h : i.shape = some sh) (hm : sh.tooMany = true) : 2 ^ 32 ≤ sh.count := by
  cases i <;> simp only [Instr.shape, Option.some.injEq, reduceCtorEq] at h <;> subst h <;> simp at hm ⊢ <;> exact hm

/-! ### What a data command can do -/

/-- Everything stages 3 to 8 can do: raise an error, or pass every check and commit the evaluated list. -/
theorem dataStages_cases (i : Instr) (sh : Shape) (eval : State → Except ErrorCode (List Nat)) (s : State) :
    (s.configured = false ∧ dataStages i sh eval s = raise .notConfigured (encode i).w0 s) ∨
    (s.configured = true ∧ ∃ e, sh.check = some e ∧ dataStages i sh eval s = raise e (encode i).w0 s) ∨
    (s.configured = true ∧ sh.check = none ∧ sh.outOfBounds s.es.toNat s.memBytes = true ∧
      dataStages i sh eval s = raise .badAddress (encode i).w0 s) ∨
    (s.configured = true ∧ sh.check = none ∧ sh.outOfBounds s.es.toNat s.memBytes = false ∧ sh.aliased s.es.toNat = true ∧
      dataStages i sh eval s = raise .overlap (encode i).w0 s) ∨
    (s.configured = true ∧ sh.check = none ∧ sh.tooMany = false ∧ Admitted s sh.dst sh.count sh.sources ∧
      ∃ e, eval s = .error e ∧ dataStages i sh eval s = raise e (encode i).w0 s) ∨
    (s.configured = true ∧ sh.check = none ∧ sh.tooMany = false ∧ Admitted s sh.dst sh.count sh.sources ∧
      ∃ vals, eval s = .ok vals ∧ dataStages i sh eval s = commit sh.dst vals s) := by
  cases hc : s.configured with
  | false => exact .inl ⟨rfl, by simp [dataStages, hc]⟩
  | true =>
    cases hk : sh.check with
    | some e => exact .inr (.inl ⟨rfl, e, rfl, by simp [dataStages, hc, hk]⟩)
    | none =>
      cases hb : sh.outOfBounds s.es.toNat s.memBytes with
      | true => exact .inr (.inr (.inl ⟨rfl, rfl, rfl, by simp [dataStages, hc, hk, hb]⟩))
      | false =>
        cases ha : sh.aliased s.es.toNat with
        | true => exact .inr (.inr (.inr (.inl ⟨rfl, rfl, rfl, rfl, by simp [dataStages, hc, hk, hb, ha]⟩)))
        | false =>
          obtain ⟨hm, had⟩ := (admitted_iff s sh).2 ⟨hb, ha⟩
          cases he : eval s with
          | error e =>
            exact .inr (.inr (.inr (.inr (.inl ⟨rfl, rfl, hm, had, e, rfl, by simp [dataStages, hc, hk, hb, ha, he]⟩))))
          | ok vals =>
            exact .inr (.inr (.inr (.inr (.inr ⟨rfl, rfl, hm, had, vals, rfl, by simp [dataStages, hc, hk, hb, ha, he]⟩))))

/-- A data command in IDLE whose checks pass and whose evaluation gives a list commits that list. -/
theorem runData_ok {i : Instr} {sh : Shape} {eval : State → Except ErrorCode (List Nat)} {s : State} {vals : List Nat}
    (hs : s.state = .idle) (hc : s.configured = true) (hk : sh.check = none) (hm : sh.tooMany = false)
    (ha : Admitted s sh.dst sh.count sh.sources) (he : eval s = .ok vals) :
    runData i sh eval s = .next (commit sh.dst vals s) := by
  obtain ⟨hb, ha⟩ := (admitted_iff s sh).1 ⟨hm, ha⟩
  simp [runData, accept_idle hs, dataStages, hc, hk, hb, ha, he]

/-- A data command in IDLE whose checks pass and whose evaluation raises takes error entry. -/
theorem runData_error {i : Instr} {sh : Shape} {eval : State → Except ErrorCode (List Nat)} {s : State} {e : ErrorCode}
    (hs : s.state = .idle) (hc : s.configured = true) (hk : sh.check = none) (hm : sh.tooMany = false)
    (ha : Admitted s sh.dst sh.count sh.sources) (he : eval s = .error e) :
    runData i sh eval s = .next (raise e (encode i).w0 s) := by
  obtain ⟨hb, ha⟩ := (admitted_iff s sh).1 ⟨hm, ha⟩
  simp [runData, accept_idle hs, dataStages, hc, hk, hb, ha, he]

/-! ### What a successful data command leaves -/

theorem Ready.modulus_ge {s : State} (h : Ready s) : 2 ≤ s.modulus := (h.inv.field h.configured).1

/-- Every canonical element fits ES bytes (20_memory.md R207): p < 2^(8·ES). -/
theorem lt_elementSize (p : Nat) : p < 256 ^ elementSize p := by
  calc p < 2 ^ (Nat.log2 p + 1) := Nat.lt_log2_self
    _ ≤ 2 ^ (8 * elementSize p) := Nat.pow_le_pow_right (by omega) (by simp only [elementSize, bitWidth]; omega)
    _ = 256 ^ elementSize p := by rw [Nat.pow_mul]

theorem elementSize_pos (p : Nat) : 0 < elementSize p := by simp only [elementSize, bitWidth]; omega

theorem Ready.elemBytes_pos {s : State} (h : Ready s) : 0 < s.elemBytes := by
  rw [State.elemBytes, (h.inv.field h.configured).2]; exact elementSize_pos _

theorem Ready.canonical_fits {s : State} (h : Ready s) {v : Nat} (hv : v < s.modulus) : v < 256 ^ s.elemBytes := by
  rw [State.elemBytes, (h.inv.field h.configured).2]; exact hv.trans (lt_elementSize _)

/-- An admitted destination region holds fewer than 2^32 elements: MEM has at most 2^32 bytes, 16 of them the scratch slot's. -/
theorem count_lt {s : State} (h : Ready s) {dst n : Nat} (hf : Fits s dst n) (ho : OffScratch s dst n) : n < 2 ^ 32 := by
  have h₁ := h.elemBytes_pos
  have h₂ := h.inv.memBytes_le
  have h₃ : n ≤ n * s.elemBytes := Nat.le_mul_of_pos_right n h₁
  simp only [Fits, OffScratch] at hf ho
  omega

/-- The element count of an admitted data command passes the bounds check of its own rule. -/
theorem tooMany_of_admitted {s : State} {i : Instr} {sh : Shape} (h : Ready s) (hi : i.shape = some sh)
    (ha : Admitted s sh.dst sh.count sh.sources) : sh.tooMany = false :=
  Bool.eq_false_iff.2 fun hm => absurd (count_of_tooMany hi hm) (Nat.not_le.2 (count_lt h ha.1 ha.2.1))

/-- The result of a command, no longer than its destination region, leaves RLEN its exact length: it is below 2^32. -/
theorem length_lt {s : State} (h : Ready s) {dst n : Nat} {vals : List Nat} (hf : Fits s dst n) (ho : OffScratch s dst n)
    (hl : vals.length ≤ n) : vals.length < 2 ^ 32 := hl.trans_lt (count_lt h hf ho)

/-- Committing a canonical list leaves exactly what a successful command leaves. -/
theorem commit_stored {s : State} (h : Ready s) {dst n : Nat} {vals : List Nat} (hf : Fits s dst n) (ho : OffScratch s dst n)
    (hl : vals.length ≤ n) (hv : Canonical s.modulus vals) : Stored s (commit dst vals s) dst vals where
  state := rfl
  err := rfl
  errinfo := rfl
  rlen := by rw [commit_rlen, BitVec.toNat_ofNat, Nat.mod_eq_of_lt (length_lt h hf ho hl)]
  elements i hi := memRead_store (acknowledge { s with rlen := BitVec.ofNat 32 vals.length }) s.elemBytes s.mem dst vals
    (fun v hm => h.canonical_fits (hv v hm)) i hi
  memory a ha := byteAt_congr ((keeps_store s.es.toNat s.mem dst vals).outside a ha) rfl
  configured := rfl
  p := rfl
  es := rfl
  memBytes := rfl
  resets := rfl
  pending := rfl
  seen := rfl

/-- A data command, ready and admitted, whose evaluation gives a canonical list that fits its region, completes and stores it. -/
theorem runData_stored {i : Instr} {sh : Shape} {eval : State → Except ErrorCode (List Nat)} {s : State} {vals : List Nat}
    (h : Ready s) (hk : sh.check = none) (hm : sh.tooMany = false) (ha : Admitted s sh.dst sh.count sh.sources)
    (he : eval s = .ok vals) (hl : vals.length ≤ sh.count) (hv : Canonical s.modulus vals) :
    ∃ t, runData i sh eval s = .next t ∧ Stored s t sh.dst vals :=
  ⟨_, runData_ok h.idle h.configured hk hm ha he, commit_stored h ha.1 ha.2.1 hl hv⟩

/-! ### Every data command is of this form -/

/-- The evaluation of a data command gives a canonical list that fits the destination region, or raises a code of R601. -/
def Lawful (sh : Shape) (eval : State → Except ErrorCode (List Nat)) : Prop :=
  ∀ s : State, 2 ≤ s.modulus → sh.check = none →
    (∃ vals, eval s = .ok vals ∧ vals.length ≤ sh.count ∧ Canonical s.modulus vals) ∨
      ∃ e, eval s = .error e ∧ e.code ∈ raisedCodes

theorem lawful_ok {sh : Shape} {f : State → List Nat} (hl : ∀ s, sh.check = none → (f s).length ≤ sh.count)
    (hc : ∀ s : State, 2 ≤ s.modulus → Canonical s.modulus (f s)) : Lawful sh fun s => .ok (f s) :=
  fun s hp hk => .inl ⟨f s, rfl, hl s hk, hc s hp⟩

theorem lawful_single {sh : Shape} {f : State → Nat} (hn : sh.count = 1) (hc : ∀ s : State, 2 ≤ s.modulus → f s < s.modulus) :
    Lawful sh fun s => .ok [f s] :=
  lawful_ok (fun _ _ => by simp [hn]) fun s hp => (Canonical.nil _).cons (hc s hp)

theorem lawful_collect {sh : Shape} {n : Nat} {b : State → Nat → Nat} {e : State → Nat → Int} (hn : sh.count = n) :
    Lawful sh fun s => collect ((List.range n).map fun i => fieldExp s.modulus (b s i) (e s i)) := by
  intro s hp _
  have h : ∀ x ∈ (List.range n).map fun i => fieldExp s.modulus (b s i) (e s i),
      (∃ v, v < s.modulus ∧ x = .ok v) ∨ ∃ c, x = .error c := by
    intro x hx
    obtain ⟨i, -, rfl⟩ := List.mem_map.1 hx
    rcases fieldExp_cases hp (b s i) (e s i) with ⟨-, -, h⟩ | h
    exacts [.inr ⟨_, h⟩, .inl h]
  rcases collect_cases _ h with ⟨vals, h₁, h₂, h₃⟩ | ⟨c, h₁, h₂⟩
  · exact .inl ⟨vals, h₁, by simp [h₂, hn], h₃⟩
  · refine .inr ⟨c, h₂, ?_⟩
    obtain ⟨i, -, hi⟩ := List.mem_map.1 h₁
    rcases fieldExp_cases hp (b s i) (e s i) with ⟨-, -, h⟩ | ⟨v, -, h⟩
    · rw [h] at hi; cases hi; decide
    · rw [h] at hi; cases hi

theorem isPowerOfTwo_iff (n : Nat) : isPowerOfTwo n = true ↔ ∃ k < n, n = 2 ^ k := by
  simp only [isPowerOfTwo, beq_iff_eq]
  constructor
  · exact fun h => ⟨Nat.log2 n, by conv_rhs => rw [h]
                                   exact Nat.lt_two_pow_self, h⟩
  · rintro ⟨k, -, rfl⟩; rw [Nat.log2_two_pow]

@[simp] theorem log2_domain (k : Nat) : Nat.log2 (2 ^ k) = k := Nat.log2_two_pow

theorem require_beq (a b : Nat) (e : ErrorCode) : require (a == b) e = if a = b then none else some e := by
  simp [require]

/-- The checks of stage 4 raise codes of R601 only. -/
theorem check_raised {i : Instr} {sh : Shape} {e : ErrorCode} (h : i.shape = some sh) (hk : sh.check = some e) :
    e.code ∈ raisedCodes := by
  cases i <;> simp only [Instr.shape, Option.some.injEq, reduceCtorEq] at h <;> subst h <;> dsimp only at hk <;>
    repeat' split at hk
  all_goals first | (cases hk; done) | (cases hk; decide)

/-- Every data command runs the stages of 60_exceptions.md R620 over the shape its rule lists, with a lawful evaluation. -/
theorem exec_data {i : Instr} {sh : Shape} (h : i.shape = some sh) :
    ∃ eval, Lawful sh eval ∧ ∀ s, exec i s = runData i sh eval s := by
  have two : ∀ s : State, 2 ≤ s.modulus → 0 < s.modulus := fun s h => by omega
  cases i with
  | setmod p => simp [Instr.shape] at h
  | ack => simp [Instr.shape] at h
  | fadd d a b => cases h; exact ⟨_, lawful_single rfl fun s hp => by simpa using Nat.mod_lt _ (two s hp), fun s => rfl⟩
  | fsub d a b => cases h; exact ⟨_, lawful_single rfl fun s hp => fieldSub_lt (two s hp) _ _, fun s => rfl⟩
  | fmul d a b => cases h; exact ⟨_, lawful_single rfl fun s hp => Nat.mod_lt _ (two s hp), fun s => rfl⟩
  | fdiv d a b => cases h; exact ⟨_, lawful_single rfl fun s hp => fieldDiv_lt (two s hp) _ _, fun s => rfl⟩
  | fexp neg d a b =>
    cases h
    exact ⟨_, lawful_collect (n := 1) (b := fun s _ => loadF s a 0)
      (e := fun s _ => signedExponent neg (loadRaw s b 0)) rfl, fun s => rfl⟩
  | finv d a => cases h; exact ⟨_, lawful_single rfl fun s hp => fieldInv_lt (two s hp) _, fun s => rfl⟩
  | fneg d a => cases h; exact ⟨_, lawful_single rfl fun s hp => fieldNeg_lt (two s hp) _, fun s => rfl⟩
  | vaddVV d a b n m =>
    cases h
    refine ⟨lanesVV fieldAdd a b n, lawful_ok (by simp) fun s hp => Canonical.map _ fun _ => ?_, fun s => ?_⟩
    · simpa using Nat.mod_lt _ (two s hp)
    · simp only [exec, execVaddVV, vvShape, require_beq]
  | vaddVS d a n =>
    cases h
    refine ⟨lanesVS fieldAdd a n, lawful_ok (by simp) fun s hp => Canonical.map _ fun _ => ?_, fun s => rfl⟩
    simpa using Nat.mod_lt _ (two s hp)
  | vsubVV d a b n m =>
    cases h
    refine ⟨lanesVV fieldSub a b n, lawful_ok (by simp) fun s hp => Canonical.map _ fun _ => fieldSub_lt (two s hp) _ _,
      fun s => ?_⟩
    simp only [exec, execVsubVV, vvShape, require_beq]
  | vsubVS d a n =>
    cases h
    exact ⟨lanesVS fieldSub a n, lawful_ok (by simp) fun s hp => Canonical.map _ fun _ => fieldSub_lt (two s hp) _ _,
      fun s => rfl⟩
  | vmulVV d a b n m =>
    cases h
    refine ⟨lanesVV fieldMul a b n, lawful_ok (by simp) fun s hp => Canonical.map _ fun _ => Nat.mod_lt _ (two s hp),
      fun s => ?_⟩
    simp only [exec, execVmulVV, vvShape, require_beq]
  | vmulVS d a n =>
    cases h
    exact ⟨lanesVS fieldMul a n, lawful_ok (by simp) fun s hp => Canonical.map _ fun _ => Nat.mod_lt _ (two s hp),
      fun s => rfl⟩
  | vdivVV d a b n m =>
    cases h
    refine ⟨lanesVV fieldDiv a b n, lawful_ok (by simp) fun s hp => Canonical.map _ fun _ => fieldDiv_lt (two s hp) _ _,
      fun s => ?_⟩
    simp only [exec, execVdivVV, vvShape, require_beq]
  | vdivVS d a n =>
    cases h
    exact ⟨lanesVS fieldDiv a n, lawful_ok (by simp) fun s hp => Canonical.map _ fun _ => fieldDiv_lt (two s hp) _ _,
      fun s => rfl⟩
  | vexpVV d a b n m =>
    cases h
    refine ⟨_, lawful_collect (n := n) (b := fun s i => loadF s a i) (e := fun s i => loadRaw s b i) rfl, fun s => ?_⟩
    simp only [exec, execVexpVV, vvShape, require_beq]
  | vexpVS d a n =>
    cases h
    exact ⟨_, lawful_collect (n := n) (b := fun s i => loadF s a i) (e := fun s _ => scratch s) rfl, fun s => rfl⟩
  | vinv d a n =>
    cases h
    exact ⟨_, lawful_ok (by simp) fun s hp => batchInv_canonical (two s hp) _, fun s => rfl⟩
  | vneg d a n =>
    cases h
    exact ⟨_, lawful_ok (by simp) fun s hp => Canonical.map _ fun _ => fieldNeg_lt (two s hp) _, fun s => rfl⟩
  | pseries d b n =>
    cases h
    exact ⟨_, lawful_ok (by simp) fun s hp => powerSeries_canonical (two s hp) _ _ _ (by omega), fun s => rfl⟩
  | matmul d a b n m k q =>
    cases h
    refine ⟨_, lawful_ok (f := fun s => (List.range n).flatMap fun i => (List.range q).map fun j =>
      fieldSum s.modulus m fun k => fieldMul s.modulus (loadF s a (i * m + k)) (loadF s b (k * q + j)))
      (by simp [List.length_flatMap]) fun s hp => Canonical.flatMap _ fun _ => Canonical.map _ fun _ =>
      fieldSum_lt (two s hp) _ _, fun s => ?_⟩
    simp only [exec, execMatmul, require_beq]
  | combine d a b n m =>
    cases h
    refine ⟨_, lawful_single (f := fun s => fieldSum s.modulus n fun i => fieldMul s.modulus (loadF s a i) (loadF s b i)) rfl
      fun s hp => fieldSum_lt (two s hp) _ _, fun s => ?_⟩
    simp only [exec, execCombine, require_beq]
  | padd d a b n m =>
    cases h
    refine ⟨_, lawful_ok (by simp) fun s hp => padded_canonical (fun x y => ?_) _ _, fun s => rfl⟩
    simpa using Nat.mod_lt _ (two s hp)
  | psub d a b n m =>
    cases h
    exact ⟨_, lawful_ok (by simp) fun s hp => padded_canonical (fun x y => fieldSub_lt (two s hp) x y) _ _, fun s => rfl⟩
  | pmul d a b n m =>
    cases h
    refine ⟨_, lawful_ok (f := fun s => polyMul s.modulus (loadArray s a n) (loadArray s b m))
      (by simp) fun s hp => polyMul_canonical (two s hp) _ _, fun s => ?_⟩
    have hr : require (n != 0 && m != 0) .invalidArgument = if n = 0 ∨ m = 0 then some .invalidArgument else none := by
      by_cases hn : n = 0 <;> by_cases hm : m = 0 <;> simp [require, hn, hm]
    simp only [exec, execPmul, hr]
  | pdiv d a b n m =>
    cases h
    refine ⟨fun s => polyDiv s.modulus (loadArray s a n) (loadArray s b m), fun s hp _ => ?_, fun s => ?_⟩
    · rcases polyDiv_cases (two s hp) (loadArray s a n) (loadArray s b m) with h | ⟨_, _, q, _, _, _, h₁, _, h₂, h₃⟩
      · exact .inr ⟨_, h, by decide⟩
      · exact .inl ⟨q, h₁, by simpa using h₂, h₃⟩
    · have hr : require (decide (m ≤ n)) .invalidArgument = if n < m then some .invalidArgument else none := by
        by_cases hm : m ≤ n <;> simp [require, hm, Nat.not_lt.2, Nat.lt_of_not_le]
      simp only [exec, execPdiv, hr]
  | peval d a b n => cases h; exact ⟨_, lawful_single rfl fun s hp => polyEval_lt (two s hp) _ _, fun s => rfl⟩
  | zpoly d a n =>
    cases h
    exact ⟨_, lawful_ok (by simp) fun s hp => vanishing_canonical hp _, fun s => rfl⟩
  | fft d a b n m =>
    cases h
    refine ⟨_, lawful_ok (f := fun s => fftCore s.modulus (loadArray s a n ++ List.replicate (m - n) 0) (loadArray s b m)
      (Nat.log2 m)) (fun s hk => ?_) (fun s hp => fftCore_canonical (two s hp) ?_ _ _), fun s => ?_⟩
    · simp only [fftCore_length]
      split at hk
      · rename_i h
        obtain ⟨⟨k, -, rfl⟩, -⟩ := h
        simp
      · simp at hk
    · refine (loadArray_canonical (two s hp) a n).append fun v hv => ?_
      rw [List.eq_of_mem_replicate hv]; exact two s hp
    · have hr : require (isPowerOfTwo m && decide (n ≤ m)) .invalidDomain =
          if (∃ k < m, m = 2 ^ k) ∧ n ≤ m then none else some .invalidDomain := by
        simp only [← isPowerOfTwo_iff]; simp [require]
      simp only [exec, execFft, fftShape, hr]
  | ifft d a b n m =>
    cases h
    refine ⟨_, lawful_ok (f := fun s => ifftCore s.modulus (loadArray s a n) (loadArray s b m) (Nat.log2 n))
      (fun s hk => ?_) (fun s hp => ifftCore_canonical (two s hp) _ _ _), fun s => ?_⟩
    · simp only [ifftCore_length]
      split at hk
      · rename_i h
        obtain ⟨k, -, rfl⟩ := h
        simp
      · simp at hk
    · have hr : (if isPowerOfTwo n then require (m == n) .dimensionMismatch else some .invalidDomain) =
          if ∃ k < n, n = 2 ^ k then if m = n then none else some .dimensionMismatch else some .invalidDomain := by
        simp only [← isPowerOfTwo_iff, require_beq]
      simp only [exec, execIfft, ifftShape, hr]
  | lagrange d a b n m =>
    cases h
    refine ⟨_, lawful_ok (f := fun s => lagrange s.modulus (loadArray s a n) (loadArray s b m))
      (by simp) fun s hp => lagrange_canonical (two s hp) _ _, fun s => ?_⟩
    simp only [exec, execLagrange, lagrangeShape, require_beq]
  | qbatch d a b n m =>
    cases h
    refine ⟨_, lawful_ok (f := fun s => quarticBatch s.modulus (loadRows s a n 4) (loadRows s b m 4))
      (by simp [loadRows]) fun s hp => quarticBatch_canonical (two s hp) _ _, fun s => ?_⟩
    simp only [exec, execQbatch, require_beq]
  | pcycle d b n =>
    cases h
    refine ⟨fun s => powerCycle s.modulus (loadF s b 0) n, fun s hp _ => ?_, fun s => rfl⟩
    rcases powerCycle_cases hp (loadF_lt (two s hp) b 0) n with h | ⟨vals, h₁, h₂, h₃⟩
    · exact .inr ⟨_, h, by decide⟩
    · exact .inl ⟨vals, h₁, h₂, h₃⟩
  | root d n =>
    cases h
    refine ⟨fun s => rootElements s.modulus n, fun s hp _ => ?_, fun s => ?_⟩
    · simp only [rootElements]
      split
      · rename_i g hg
        exact .inl ⟨[g], rfl, by simp, (Canonical.nil _).cons (rootOfUnity_lt hp hg)⟩
      · exact .inr ⟨_, rfl, by decide⟩
    · have hr : require (isPowerOfTwo n) .invalidArgument = if ∃ k < n, n = 2 ^ k then none else some .invalidArgument := by
        simp only [← isPowerOfTwo_iff]; simp [require]
      simp only [exec, execRoot, hr]

end Sys2Proof
end

