-- ==== Sys2Proof/Laws/PerInstr.lean ====
section
/-! SUPPORT. The statement made per instruction: its encoding is admitted by the row of spec/opcode_table.json that carries its
mnemonic (30_encoding.md R305). -/

namespace Sys2Proof.Laws.TableRow

/-- `W0 & mask(M) = match(M)` and M's must-be-zero words are 0, for the row M of the command's mnemonic. -/
def Statement (i : Instr) : Prop := ∃ r ∈ opcodeRows, r.mnemonic = i.mnemonic ∧ r.admits (encode i) = true

/-- A command whose row stands at position `k` of the table has the statement. -/
theorem of_row {i : Instr} (k : Nat) (h : k < opcodeRows.length)
    (hm : opcodeRows[k].mnemonic = i.mnemonic) (ha : opcodeRows[k].admits (encode i) = true) : Statement i :=
  ⟨opcodeRows[k], List.getElem_mem h, hm, ha⟩

theorem setmod (p : Nat) : Statement (.setmod p) := of_row 0 (by decide) rfl (by simp [opcodeRows, OpcodeRow.admits, encode, CommandWord.word])
theorem ack : Statement (.ack) := of_row 1 (by decide) rfl (by simp [opcodeRows, OpcodeRow.admits, encode, CommandWord.word])
theorem fadd (dst a b : Nat) : Statement (.fadd dst a b) := of_row 2 (by decide) rfl (by simp [opcodeRows, OpcodeRow.admits, encode, CommandWord.word])
theorem fsub (dst a b : Nat) : Statement (.fsub dst a b) := of_row 3 (by decide) rfl (by simp [opcodeRows, OpcodeRow.admits, encode, CommandWord.word])
theorem fmul (dst a b : Nat) : Statement (.fmul dst a b) := of_row 4 (by decide) rfl (by simp [opcodeRows, OpcodeRow.admits, encode, CommandWord.word])
theorem fdiv (dst a b : Nat) : Statement (.fdiv dst a b) := of_row 5 (by decide) rfl (by simp [opcodeRows, OpcodeRow.admits, encode, CommandWord.word])
theorem fexp (neg : Bool) (dst a b : Nat) : Statement (.fexp neg dst a b) := of_row 6 (by decide) rfl (by cases neg <;> simp [opcodeRows, OpcodeRow.admits, encode, CommandWord.word])
theorem finv (dst a : Nat) : Statement (.finv dst a) := of_row 7 (by decide) rfl (by simp [opcodeRows, OpcodeRow.admits, encode, CommandWord.word])
theorem fneg (dst a : Nat) : Statement (.fneg dst a) := of_row 8 (by decide) rfl (by simp [opcodeRows, OpcodeRow.admits, encode, CommandWord.word])
theorem vaddVV (dst a b n0 n1 : Nat) : Statement (.vaddVV dst a b n0 n1) := of_row 9 (by decide) rfl (by simp [opcodeRows, OpcodeRow.admits, encode, CommandWord.word])
theorem vaddVS (dst a n0 : Nat) : Statement (.vaddVS dst a n0) := of_row 10 (by decide) rfl (by simp [opcodeRows, OpcodeRow.admits, encode, CommandWord.word])
theorem vsubVV (dst a b n0 n1 : Nat) : Statement (.vsubVV dst a b n0 n1) := of_row 11 (by decide) rfl (by simp [opcodeRows, OpcodeRow.admits, encode, CommandWord.word])
theorem vsubVS (dst a n0 : Nat) : Statement (.vsubVS dst a n0) := of_row 12 (by decide) rfl (by simp [opcodeRows, OpcodeRow.admits, encode, CommandWord.word])
theorem vmulVV (dst a b n0 n1 : Nat) : Statement (.vmulVV dst a b n0 n1) := of_row 13 (by decide) rfl (by simp [opcodeRows, OpcodeRow.admits, encode, CommandWord.word])
theorem vmulVS (dst a n0 : Nat) : Statement (.vmulVS dst a n0) := of_row 14 (by decide) rfl (by simp [opcodeRows, OpcodeRow.admits, encode, CommandWord.word])
theorem vdivVV (dst a b n0 n1 : Nat) : Statement (.vdivVV dst a b n0 n1) := of_row 15 (by decide) rfl (by simp [opcodeRows, OpcodeRow.admits, encode, CommandWord.word])
theorem vdivVS (dst a n0 : Nat) : Statement (.vdivVS dst a n0) := of_row 16 (by decide) rfl (by simp [opcodeRows, OpcodeRow.admits, encode, CommandWord.word])
theorem vexpVV (dst a b n0 n1 : Nat) : Statement (.vexpVV dst a b n0 n1) := of_row 17 (by decide) rfl (by simp [opcodeRows, OpcodeRow.admits, encode, CommandWord.word])
theorem vexpVS (dst a n0 : Nat) : Statement (.vexpVS dst a n0) := of_row 18 (by decide) rfl (by simp [opcodeRows, OpcodeRow.admits, encode, CommandWord.word])
theorem vinv (dst a n0 : Nat) : Statement (.vinv dst a n0) := of_row 19 (by decide) rfl (by simp [opcodeRows, OpcodeRow.admits, encode, CommandWord.word])
theorem vneg (dst a n0 : Nat) : Statement (.vneg dst a n0) := of_row 20 (by decide) rfl (by simp [opcodeRows, OpcodeRow.admits, encode, CommandWord.word])
theorem pseries (dst b n0 : Nat) : Statement (.pseries dst b n0) := of_row 21 (by decide) rfl (by simp [opcodeRows, OpcodeRow.admits, encode, CommandWord.word])
theorem matmul (dst a b n0 n1 n2 n3 : Nat) : Statement (.matmul dst a b n0 n1 n2 n3) := of_row 22 (by decide) rfl (by simp [opcodeRows, OpcodeRow.admits, encode, CommandWord.word])
theorem combine (dst a b n0 n1 : Nat) : Statement (.combine dst a b n0 n1) := of_row 23 (by decide) rfl (by simp [opcodeRows, OpcodeRow.admits, encode, CommandWord.word])
theorem padd (dst a b n0 n1 : Nat) : Statement (.padd dst a b n0 n1) := of_row 24 (by decide) rfl (by simp [opcodeRows, OpcodeRow.admits, encode, CommandWord.word])
theorem psub (dst a b n0 n1 : Nat) : Statement (.psub dst a b n0 n1) := of_row 25 (by decide) rfl (by simp [opcodeRows, OpcodeRow.admits, encode, CommandWord.word])
theorem pmul (dst a b n0 n1 : Nat) : Statement (.pmul dst a b n0 n1) := of_row 26 (by decide) rfl (by simp [opcodeRows, OpcodeRow.admits, encode, CommandWord.word])
theorem pdiv (dst a b n0 n1 : Nat) : Statement (.pdiv dst a b n0 n1) := of_row 27 (by decide) rfl (by simp [opcodeRows, OpcodeRow.admits, encode, CommandWord.word])
theorem peval (dst a b n0 : Nat) : Statement (.peval dst a b n0) := of_row 28 (by decide) rfl (by simp [opcodeRows, OpcodeRow.admits, encode, CommandWord.word])
theorem zpoly (dst a n0 : Nat) : Statement (.zpoly dst a n0) := of_row 29 (by decide) rfl (by simp [opcodeRows, OpcodeRow.admits, encode, CommandWord.word])
theorem fft (dst a b n0 n1 : Nat) : Statement (.fft dst a b n0 n1) := of_row 30 (by decide) rfl (by simp [opcodeRows, OpcodeRow.admits, encode, CommandWord.word])
theorem ifft (dst a b n0 n1 : Nat) : Statement (.ifft dst a b n0 n1) := of_row 31 (by decide) rfl (by simp [opcodeRows, OpcodeRow.admits, encode, CommandWord.word])
theorem lagrange (dst a b n0 n1 : Nat) : Statement (.lagrange dst a b n0 n1) := of_row 32 (by decide) rfl (by simp [opcodeRows, OpcodeRow.admits, encode, CommandWord.word])
theorem qbatch (dst a b n0 n1 : Nat) : Statement (.qbatch dst a b n0 n1) := of_row 33 (by decide) rfl (by simp [opcodeRows, OpcodeRow.admits, encode, CommandWord.word])
theorem pcycle (dst b n0 : Nat) : Statement (.pcycle dst b n0) := of_row 34 (by decide) rfl (by simp [opcodeRows, OpcodeRow.admits, encode, CommandWord.word])
theorem root (dst n0 : Nat) : Statement (.root dst n0) := of_row 35 (by decide) rfl (by simp [opcodeRows, OpcodeRow.admits, encode, CommandWord.word])

end Sys2Proof.Laws.TableRow
end

