-- ==== Sys2Proof/Laws/Primes.lean ====
section
/-! SUPPORT. The moduli of `Config.certifiedPrimes` are prime (log 11), by Lucas's test with the factors of p − 1. -/

namespace Sys2Proof.Laws

/-- `b ^ e % p` by repeated squaring; the first argument bounds the number of bits of `e`. -/
def powMod (p b : Nat) : Nat → Nat → Nat
  | 0, _ => 1 % p
  | bits + 1, e =>
    let h := powMod p b bits (e / 2)
    h * h * (if e % 2 = 1 then b else 1) % p

theorem powMod_eq (p b bits e : Nat) (h : e < 2 ^ bits) : powMod p b bits e = b ^ e % p := by
  induction bits generalizing e with
  | zero => obtain rfl : e = 0 := by simpa using h
            simp [powMod]
  | succ bits ih =>
    have he : b ^ e = b ^ (e / 2) * b ^ (e / 2) * (if e % 2 = 1 then b else 1) := by
      rcases Nat.mod_two_eq_zero_or_one e with h' | h'
      · conv_lhs => rw [show e = e / 2 + e / 2 by omega]
        simp [h', pow_add]
      · conv_lhs => rw [show e = e / 2 + e / 2 + 1 by omega]
        simp [h', pow_add]
    simp only [powMod]
    rw [ih (e / 2) (by rw [pow_succ] at h; omega), he]
    conv_rhs => rw [Nat.mul_mod, Nat.mul_mod (b ^ (e / 2))]
    rw [Nat.mul_mod]

/-- Lucas's test on numerals: a^(p−1) = 1 and a^((p−1)/q) ≠ 1 for every prime factor q of p − 1, given as a list whose product is
p − 1. -/
theorem prime_of_factors {p : Nat} (a : Nat) (l : List Nat) (hq : ∀ q ∈ l, q.Prime)
    (h : (decide (1 < p) && decide (p < 2 ^ 128) && l.prod == p - 1 && powMod p a 128 (p - 1) == 1 &&
      l.all fun q => powMod p a 128 ((p - 1) / q) != 1) = true) : p.Prime := by
  simp only [Bool.and_eq_true, decide_eq_true_eq, beq_iff_eq, List.all_eq_true, bne_iff_ne] at h
  obtain ⟨⟨⟨⟨hp, hb⟩, hl⟩, h₁⟩, h₂⟩ := h
  have cast : ∀ k, ((a : ZMod p) ^ k = 1 ↔ a ^ k % p = 1) := by
    intro k
    rw [← Nat.cast_pow, ← Nat.cast_one, ZMod.natCast_eq_natCast_iff', Nat.mod_eq_of_lt hp]
  refine lucas_primality p (a : ZMod p) ((cast _).2 ?_) fun q hqp hd h => ?_
  · rwa [powMod_eq _ _ _ _ (by omega)] at h₁
  · rw [← hl] at hd
    obtain ⟨r, hr, hqr⟩ := (Prime.dvd_prod_iff hqp.prime).1 hd
    rw [(Nat.prime_dvd_prime_iff_eq hqp (hq r hr)).1 hqr] at h
    refine h₂ r hr ?_
    rw [powMod_eq _ _ _ _ ((Nat.div_le_self _ _).trans_lt (by omega))]
    exact (cast _).1 h

theorem prime_62826870453001 : Nat.Prime 62826870453001 :=
  prime_of_factors 11 [2, 2, 2, 3, 5, 5, 5, 73, 13147, 21821] (by simp only [List.forall_mem_cons]; norm_num)
    (by decide +kernel)

theorem prime_5594472617641 : Nat.Prime 5594472617641 :=
  prime_of_factors 13 [2, 2, 2, 3, 5, 1427, 2131, 15331] (by simp only [List.forall_mem_cons]; norm_num)
    (by decide +kernel)

theorem prime_two_pow_128_sub_159 : Nat.Prime (2 ^ 128 - 159) :=
  prime_of_factors 5 [2, 2, 2, 2, 2, 3, 10253, 29333, 4454477, 42113237, 62826870453001]
    (by
      simp only [List.forall_mem_cons]
      refine ⟨?_, ?_, ?_, ?_, ?_, ?_, ?_, ?_, ?_, ?_, prime_62826870453001, ?_⟩ <;> norm_num)
    (by decide +kernel)

theorem prime_two_pow_64_sub_59 : Nat.Prime (2 ^ 64 - 59) :=
  prime_of_factors 2 [2, 2, 11, 137, 547, 5594472617641]
    (by
      simp only [List.forall_mem_cons]
      refine ⟨?_, ?_, ?_, ?_, ?_, prime_5594472617641, ?_⟩ <;> norm_num)
    (by decide +kernel)

/-- Every modulus the model lists as prime is prime. -/
theorem certifiedPrimes_prime : ∀ p ∈ Config.certifiedPrimes, p.Prime := by
  simp only [Config.certifiedPrimes, List.forall_mem_cons]
  exact ⟨prime_two_pow_128_sub_159, prime_two_pow_64_sub_59, by simp⟩

end Sys2Proof.Laws
end

