-- ==== Sys2Proof/Laws/Step.lean ====
section
/-! SUPPORT. What a command, a word on the command port and a step can do, said once each. -/

namespace Sys2Proof.Machine

/-- Everything a command can do: nothing, outside IDLE; an acknowledgement; error entry; a configuration; or a commit. -/
theorem exec_cases (i : Instr) (s : State) :
    ((s.state = .busy ∨ s.state = .error ∧ i ≠ .ack) ∧ exec i s = .next s) ∨
    (i = .ack ∧ s.state ≠ .busy ∧ exec i s = .next (acknowledge s)) ∨
    (s.state = .idle ∧ ∃ e : ErrorCode, exec i s = .next (raise e (encode i).w0 s) ∧
      ((s.configured = true → 2 ≤ s.modulus) → e.code ∈ raisedCodes)) ∨
    (s.state = .idle ∧ s.configured = false ∧ ∃ q, i = .setmod q ∧ 2 ≤ q ∧ exec i s = .next (configure q s)) ∨
    (s.state = .idle ∧ s.configured = true ∧ ∃ sh vals, i.shape = some sh ∧ sh.check = none ∧
      Admitted s sh.dst sh.count sh.sources ∧ exec i s = .next (commit sh.dst vals s) ∧
      (2 ≤ s.modulus → vals.length ≤ sh.count ∧ Canonical s.modulus vals)) := by
  by_cases hack : i = .ack
  · subst hack
    cases hs : s.state with
    | busy => exact .inl ⟨.inl rfl, by simp [exec, execAck, hs]⟩
    | idle => exact .inr (.inl ⟨rfl, by simp, by simp [exec, execAck, hs]⟩)
    | error => exact .inr (.inl ⟨rfl, by simp, by simp [exec, execAck, hs]⟩)
  by_cases hs : s.state = .idle
  swap
  · refine .inl ⟨?_, ?_⟩
    · cases h : s.state <;> simp_all
    · cases hsh : i.shape with
      | some sh =>
        obtain ⟨eval, -, h⟩ := exec_data hsh
        rw [h, runData, accept_not_idle hs]
      | none => cases i <;> simp_all [Instr.shape, exec, execSetmod, accept_not_idle]
  cases hsh : i.shape with
  | none =>
    cases i <;> simp only [Instr.shape, reduceCtorEq] at hsh
    · rename_i q
      simp only [exec, execSetmod, accept_idle hs, setmodStages]
      cases hc : s.configured with
      | true =>
        exact .inr (.inr (.inl ⟨hs, .alreadyConfigured, by simp, fun _ => by decide⟩))
      | false =>
        by_cases hq : q < 2
        · exact .inr (.inr (.inl ⟨hs, .invalidArgument, by simp [hq], fun _ => by decide⟩))
        · exact .inr (.inr (.inr (.inl ⟨hs, rfl, q, rfl, by omega, by simp [hq]⟩)))
    · exact absurd rfl hack
  | some sh =>
    obtain ⟨eval, hl, h⟩ := exec_data hsh
    rw [h, runData, accept_idle hs]
    rcases dataStages_cases i sh eval s with ⟨hc, h⟩ | ⟨hc, e, hk, h⟩ | ⟨hc, hk, hb, h⟩ | ⟨hc, hk, hb, ha, h⟩ |
      ⟨hc, hk, -, ha, e, he, h⟩ | ⟨hc, hk, -, ha, vals, he, h⟩
    · exact .inr (.inr (.inl ⟨hs, .notConfigured, by rw [h], fun _ => by decide⟩))
    · refine .inr (.inr (.inl ⟨hs, e, by rw [h], fun _ => check_raised hsh hk⟩))
    · exact .inr (.inr (.inl ⟨hs, .badAddress, by rw [h], fun _ => by decide⟩))
    · exact .inr (.inr (.inl ⟨hs, .overlap, by rw [h], fun _ => by decide⟩))
    · refine .inr (.inr (.inl ⟨hs, e, by rw [h], fun hp => ?_⟩))
      rcases hl s (hp hc) hk with ⟨vals, h', -⟩ | ⟨e', h', h''⟩
      · rw [h'] at he; cases he
      · rw [h'] at he; cases he; exact h''
    · refine .inr (.inr (.inr (.inr ⟨hs, hc, sh, vals, rfl, hk, ha, by rw [h], fun hp => ?_⟩)))
      rcases hl s hp hk with ⟨vals', h', h''⟩ | ⟨e', h', -⟩
      · rw [h'] at he; cases he; exact h''
      · rw [h'] at he; cases he

/-- Every word on the command port gives a next state: what the command it encodes does, or, for an illegal one, error entry in
IDLE and nothing elsewhere. -/
theorem issue_cases (cw : CommandWord) (s : State) :
    (∃ i, decode cw = .ok i ∧ issue cw s = exec i s) ∨
    (∃ c, decode cw = .error c ∧ s.state = .idle ∧ issue cw s = .next (raise .illegalCommand cw.w0 s)) ∨
    (∃ c, decode cw = .error c ∧ s.state ≠ .idle ∧ issue cw s = .next s) := by
  cases h : decode cw with
  | ok i => exact .inl ⟨i, rfl, by simp [issue, h]⟩
  | error c =>
    by_cases hs : s.state = .idle
    · exact .inr (.inl ⟨c, rfl, hs, by simp [issue, h, accept_idle hs]⟩)
    · exact .inr (.inr ⟨c, rfl, hs, by simp [issue, h, accept_not_idle hs]⟩)

/-- A step that answers a next state performed the first pending action, if there is one. -/
theorem step_cases {s t : State} (h : step s = .next t) :
    (s.pending = [] ∧ t = s) ∨ ∃ e rest, s.pending = e :: rest ∧ perform e (s.withPending rest) = .next t := by
  unfold step at h
  split at h
  · rename_i hp; cases h; exact .inl ⟨hp, rfl⟩
  · rename_i e rest hp; exact .inr ⟨e, rest, hp, h⟩

theorem step_cons {s : State} {e : PortEvent} {rest : List PortEvent} (h : s.pending = e :: rest) :
    step s = perform e (s.withPending rest) := by simp [step, h]

/-- What an action other than a command can do when it answers a next state. -/
theorem perform_cases {e : PortEvent} {s t : State} (h : perform e s = .next t) :
    (∃ cw, e = .command cw ∧ issue cw s = .next t) ∨
    (∃ a bs, e = .write a bs ∧ s.state ≠ .busy ∧ (bs ≠ [] → a + bs.length ≤ s.memBytes) ∧
      t = { s with mem := s.mem.writeBytes a bs }) ∨
    (∃ r, t = { s with seen := r :: s.seen }) ∨
    (e = .reset ∧ t = applyReset s) := by
  cases e with
  | command cw => exact .inl ⟨cw, rfl, h⟩
  | write a bs =>
    simp only [perform, hostWrite] at h
    split at h
    · cases h
    · split at h
      · cases h
      · rename_i h₁ h₂
        refine .inr (.inl ⟨a, bs, rfl, h₁, fun hb => ?_, (Host.Outcome.next.inj h).symm⟩)
        have := List.length_pos_of_ne_nil hb
        simp only [ByteRange.outOfBounds, decide_eq_true_eq] at h₂
        omega
  | read a n =>
    simp only [perform, hostRead] at h
    split at h
    · cases h
    · split at h
      · cases h
      · exact .inr (.inr (.inl ⟨_, (Host.Outcome.next.inj h).symm⟩))
  | readRegister n => exact .inr (.inr (.inl ⟨_, (Host.Outcome.next.inj h).symm⟩))
  | reset => exact .inr (.inr (.inr ⟨rfl, (Host.Outcome.next.inj h).symm⟩))

end Sys2Proof.Machine
end

