-- ==== Sys2Proof/Tests/Slice0.lean ====
section
/-! SUPPORT. Tests. Part 1: ill-formed terms the check refuses. Part 2: words written out from the spec's encodings. Part 3: one
step of each command on a small state. Part 4: a witness for the hypotheses of each statement. Expected results are those of
95_test_vectors.md and of the rules' own examples; where a test works in GF(17) or gives its own sum, the value is worked out by
hand from the rule it names. -/

set_option Elab.async false

namespace Sys2Proof.Tests

open Machine

/-! ### Part 1: well-formedness -/

theorem test_wf_ok : (Instr.fadd 0xFFFFFFFF 0 0).wf = true := by decide
theorem test_wf_offset : (Instr.fadd 0x100000000 0 0).wf = false := by decide
theorem test_wf_source_offset : (Instr.pseries 0 0x100000000 1).wf = false := by decide
theorem test_wf_count : (Instr.matmul 0 0 0 1 1 1 0x100000000).wf = false := by decide
theorem test_wf_modulus : (Instr.setmod (2 ^ 128)).wf = false := by decide

/-! ### Part 2: decoding -/

/-- SETMOD and ACK (47_control.md R510, R511). -/
theorem test_decode_control :
    decode ⟨0x00000001, 0, 0, 0, 0xFFFFFF61, 0xFFFFFFFF, 0xFFFFFFFF, 0xFFFFFFFF⟩ = .ok (.setmod (2 ^ 128 - 159)) ∧
    decode ⟨0x00000002, 0, 0, 0, 0, 0, 0, 0⟩ = .ok .ack := by decide +kernel

/-- Scalar commands (41_field_ops.md R420 to R426). -/
theorem test_decode_scalar :
    decode ⟨0x00000010, 1, 2, 3, 0, 0, 0, 0⟩ = .ok (.fadd 1 2 3) ∧
    decode ⟨0x00000011, 1, 2, 3, 0, 0, 0, 0⟩ = .ok (.fsub 1 2 3) ∧
    decode ⟨0x00000012, 1, 2, 3, 0, 0, 0, 0⟩ = .ok (.fmul 1 2 3) ∧
    decode ⟨0x00000013, 1, 2, 3, 0, 0, 0, 0⟩ = .ok (.fdiv 1 2 3) ∧
    decode ⟨0x00000014, 1, 2, 3, 0, 0, 0, 0⟩ = .ok (.fexp false 1 2 3) ∧
    decode ⟨0x00000214, 1, 2, 3, 0, 0, 0, 0⟩ = .ok (.fexp true 1 2 3) ∧
    decode ⟨0x00000015, 1, 2, 0, 0, 0, 0, 0⟩ = .ok (.finv 1 2) ∧
    decode ⟨0x00000016, 1, 2, 0, 0, 0, 0, 0⟩ = .ok (.fneg 1 2) := by decide +kernel

/-- Elementwise commands, both forms (42_elementwise.md R431 to R438). -/
theorem test_decode_elementwise :
    decode ⟨0x00000020, 1, 2, 3, 4, 5, 0, 0⟩ = .ok (.vaddVV 1 2 3 4 5) ∧
    decode ⟨0x00000120, 1, 2, 0, 4, 0, 0, 0⟩ = .ok (.vaddVS 1 2 4) ∧
    decode ⟨0x00000021, 1, 2, 3, 4, 5, 0, 0⟩ = .ok (.vsubVV 1 2 3 4 5) ∧
    decode ⟨0x00000121, 1, 2, 0, 4, 0, 0, 0⟩ = .ok (.vsubVS 1 2 4) ∧
    decode ⟨0x00000022, 1, 2, 3, 4, 5, 0, 0⟩ = .ok (.vmulVV 1 2 3 4 5) ∧
    decode ⟨0x00000122, 1, 2, 0, 4, 0, 0, 0⟩ = .ok (.vmulVS 1 2 4) ∧
    decode ⟨0x00000023, 1, 2, 3, 4, 5, 0, 0⟩ = .ok (.vdivVV 1 2 3 4 5) ∧
    decode ⟨0x00000123, 1, 2, 0, 4, 0, 0, 0⟩ = .ok (.vdivVS 1 2 4) ∧
    decode ⟨0x00000024, 1, 2, 3, 4, 5, 0, 0⟩ = .ok (.vexpVV 1 2 3 4 5) ∧
    decode ⟨0x00000124, 1, 2, 0, 4, 0, 0, 0⟩ = .ok (.vexpVS 1 2 4) ∧
    decode ⟨0x00000025, 1, 2, 0, 4, 0, 0, 0⟩ = .ok (.vinv 1 2 4) ∧
    decode ⟨0x00000026, 1, 2, 0, 4, 0, 0, 0⟩ = .ok (.vneg 1 2 4) := by decide +kernel

/-- Bulk commands (43_bulk.md R450 to R452). -/
theorem test_decode_bulk :
    decode ⟨0x00000030, 1, 0, 3, 4, 0, 0, 0⟩ = .ok (.pseries 1 3 4) ∧
    decode ⟨0x00000031, 1, 2, 3, 4, 5, 6, 7⟩ = .ok (.matmul 1 2 3 4 5 6 7) ∧
    decode ⟨0x00000032, 1, 2, 3, 4, 5, 0, 0⟩ = .ok (.combine 1 2 3 4 5) := by decide +kernel

/-- Polynomial commands (44_polynomial.md R460 to R466). -/
theorem test_decode_polynomial :
    decode ⟨0x00000040, 1, 2, 3, 4, 5, 0, 0⟩ = .ok (.padd 1 2 3 4 5) ∧
    decode ⟨0x00000041, 1, 2, 3, 4, 5, 0, 0⟩ = .ok (.psub 1 2 3 4 5) ∧
    decode ⟨0x00000042, 1, 2, 3, 4, 5, 0, 0⟩ = .ok (.pmul 1 2 3 4 5) ∧
    decode ⟨0x00000043, 1, 2, 3, 4, 5, 0, 0⟩ = .ok (.pdiv 1 2 3 4 5) ∧
    decode ⟨0x00000044, 1, 2, 3, 4, 0, 0, 0⟩ = .ok (.peval 1 2 3 4) ∧
    decode ⟨0x00000045, 1, 2, 0, 4, 0, 0, 0⟩ = .ok (.zpoly 1 2 4) := by decide +kernel

/-- FFT, interpolation and roots (45_fft_interp.md R482 to R488, 46_roots_twiddle.md R500, R501). -/
theorem test_decode_transform :
    decode ⟨0x00000050, 1, 2, 3, 4, 5, 0, 0⟩ = .ok (.fft 1 2 3 4 5) ∧
    decode ⟨0x00000051, 1, 2, 3, 4, 5, 0, 0⟩ = .ok (.ifft 1 2 3 4 5) ∧
    decode ⟨0x00000052, 1, 2, 3, 4, 5, 0, 0⟩ = .ok (.lagrange 1 2 3 4 5) ∧
    decode ⟨0x00000053, 1, 2, 3, 4, 5, 0, 0⟩ = .ok (.qbatch 1 2 3 4 5) ∧
    decode ⟨0x00000054, 1, 0, 3, 4, 0, 0, 0⟩ = .ok (.pcycle 1 3 4) ∧
    decode ⟨0x00000055, 1, 0, 0, 4, 0, 0, 0⟩ = .ok (.root 1 4) := by decide +kernel

/-- The five causes of 30_encoding.md R306, and the examples of 95_test_vectors.md 2.8. -/
theorem test_decode_illegal :
    decode ⟨0, 0, 0, 0, 0, 0, 0, 0⟩ = .error .unknownOpcode ∧
    decode ⟨0x00000099, 0, 0, 0, 0, 0, 0, 0⟩ = .error .unknownOpcode ∧
    decode ⟨0x00000410, 0x200, 0x100, 0x102, 0, 0, 0, 0⟩ = .error .reservedBits ∧
    decode ⟨0x00000110, 0x200, 0x100, 0x102, 0, 0, 0, 0⟩ = .error .formBit ∧
    decode ⟨0x00000210, 0x200, 0x100, 0x102, 0, 0, 0, 0⟩ = .error .negBit ∧
    decode ⟨0x00000010, 0x200, 0x100, 0x102, 1, 0, 0, 0⟩ = .error .unusedWord ∧
    decode ⟨0x00000120, 0x200, 0x100, 0x102, 1, 0, 0, 0⟩ = .error .unusedWord := by decide +kernel

/-! ### Part 3: one step -/

/-- Bytes from an offset upwards, as a memory. -/
def bytesAt (a : Nat) (bs : List Nat) : Memory := bs.zipIdx.map fun b => (a + b.2, BitVec.ofNat 8 b.1)

/-- Little-endian elements of `es` bytes from an offset upwards, as a memory (20_memory.md R200, R201). -/
def elementsAt (es a : Nat) (vals : List Nat) : Memory :=
  (List.range (vals.length * es)).map fun k => (a + k, BitVec.ofNat 8 (vals.getD (k / es) 0 / 256 ^ (k % es)))

/-- A configured block in IDLE. -/
def block (p es : Nat) (mem : Memory) : State :=
  { State.reset with configured := true, p := BitVec.ofNat 128 p, es := BitVec.ofNat 5 es, mem := mem }

/-- The modulus of the spec's examples, 2^128 − 159. -/
def big : Nat := 0xFFFFFFFFFFFFFFFFFFFFFFFFFFFFFF61

/-- The block of the spec's examples: the scalar in the scratch slot, 16-byte elements from 0x100 upwards. -/
def bigBlock (scalar : Nat) (vals : List Nat) : State := block big 16 (elementsAt 16 0 [scalar] ++ elementsAt 16 0x100 vals)

/-- GF(17), one byte an element: the 16 scratch bytes hold the scalar, the elements stand from 0x100 upwards. -/
def smallBlock (scalar : Nat) (vals : List Nat) : State := block 17 1 (elementsAt 16 0 [scalar] ++ bytesAt 0x100 vals)

/-- What a command leaves: ERR, RLEN, and the RLEN elements at 0x200, where every test has its destination. -/
def leaves (i : Instr) (s : State) : Option (Nat × Nat × List Nat) :=
  match exec i s with
  | .next t => some (t.err.toNat, t.rlen.toNat, (List.range t.rlen.toNat).map (loadRaw t 0x200))
  | _ => none

/-- The next state, if there is one. -/
def nextState (o : Host.Outcome State Fault Refusal) : Option State :=
  match o with
  | .next t => some t
  | _ => none

/-- 41_field_ops.md R420, example; 95_test_vectors.md 2.2. -/
theorem test_fadd : leaves (.fadd 0x200 0x100 0x110) (bigBlock 0 [big - 1, 1]) = some (0, 1, [0]) := by decide +kernel

/-- 95_test_vectors.md 2.2: both stored operands are above p and are reduced. -/
theorem test_fadd_reduces : leaves (.fadd 0x200 0x100 0x110) (bigBlock 0 [2 ^ 128 - 1, big]) = some (0, 1, [158]) := by
  decide +kernel

/-- 41_field_ops.md R421, example. -/
theorem test_fsub : leaves (.fsub 0x200 0x100 0x110) (bigBlock 0 [0, 1]) = some (0, 1, [big - 1]) := by decide +kernel

/-- 41_field_ops.md R422, example. -/
theorem test_fmul : leaves (.fmul 0x200 0x100 0x100) (bigBlock 0 [2 ^ 64]) = some (0, 1, [159]) := by decide +kernel

/-- 95_test_vectors.md 2.9: three-byte elements, the second source unaligned. -/
theorem test_fmul_three_bytes :
    leaves (.fmul 0x200 0x20 0x23) (block 65537 3 (bytesAt 0x20 [0x00, 0x00, 0x01, 0x02, 0x00, 0x00])) =
      some (0, 1, [65535]) := by decide +kernel

/-- 41_field_ops.md R423, example. -/
theorem test_fdiv :
    leaves (.fdiv 0x200 0x100 0x110) (bigBlock 0 [1, 2]) = some (0, 1, [0x7FFFFFFFFFFFFFFFFFFFFFFFFFFFFFB1]) := by
  decide +kernel

/-- 95_test_vectors.md 2.2: division by zero is 0 and no error. -/
theorem test_fdiv_by_zero : leaves (.fdiv 0x200 0x100 0x110) (bigBlock 0 [7, 0]) = some (0, 1, [0]) := by decide +kernel

/-- 95_test_vectors.md 2.2: the exponent p is not reduced, so 3^p = 3. -/
theorem test_fexp_raw_exponent : leaves (.fexp false 0x200 0x100 0x110) (bigBlock 0 [3, big]) = some (0, 1, [3]) := by
  decide +kernel

/-- 95_test_vectors.md 2.2: 2 to the −2 is inv(4). -/
theorem test_fexp_neg :
    leaves (.fexp true 0x200 0x100 0x110) (bigBlock 0 [2, 2]) = some (0, 1, [0xBFFFFFFFFFFFFFFFFFFFFFFFFFFFFF89]) := by
  decide +kernel

/-- 95_test_vectors.md 2.1: inv(5). -/
theorem test_finv :
    leaves (.finv 0x200 0x100) (bigBlock 0 [5]) = some (0, 1, [0x66666666666666666666666666666627]) := by decide +kernel

/-- 41_field_ops.md R413: inv(0) = 0, no error. -/
theorem test_finv_zero : leaves (.finv 0x200 0x100) (bigBlock 0 [0]) = some (0, 1, [0]) := by decide +kernel

/-- 41_field_ops.md R425: neg(1) and neg(0). -/
theorem test_fneg : leaves (.fneg 0x200 0x100) (bigBlock 0 [1]) = some (0, 1, [big - 1]) := by decide +kernel

theorem test_fneg_zero : leaves (.fneg 0x200 0x100) (bigBlock 0 [big]) = some (0, 1, [0]) := by decide +kernel

/-- 42_elementwise.md R431, example. -/
theorem test_vaddVV : leaves (.vaddVV 0x200 0x100 0x120 2 2) (bigBlock 0 [big - 1, 5, 1, 7]) = some (0, 2, [0, 12]) := by
  decide +kernel

/-- 95_test_vectors.md 2.3: all 16 scratch bytes are read although ES = 1; 0x1234 is 2 modulo 17. -/
theorem test_vaddVS : leaves (.vaddVS 0x200 0x100 3) (smallBlock 0x1234 [200, 17, 16]) = some (0, 3, [15, 2, 1]) := by
  decide +kernel

/-- By hand in GF(17): 3 − 5 = 15, 9 − 2 = 7. -/
theorem test_vsubVV : leaves (.vsubVV 0x200 0x100 0x102 2 2) (smallBlock 0 [3, 9, 5, 2]) = some (0, 2, [15, 7]) := by
  decide +kernel

/-- 42_elementwise.md R432, example. -/
theorem test_vsubVS : leaves (.vsubVS 0x200 0x100 2) (bigBlock 1 [0, 9]) = some (0, 2, [big - 1, 8]) := by decide +kernel

/-- By hand in GF(17): 3·5 = 15, 9·2 = 1. -/
theorem test_vmulVV : leaves (.vmulVV 0x200 0x100 0x102 2 2) (smallBlock 0 [3, 9, 5, 2]) = some (0, 2, [15, 1]) := by
  decide +kernel

/-- 42_elementwise.md R433, example. -/
theorem test_vmulVS : leaves (.vmulVS 0x200 0x100 4) (bigBlock 5 [1, 2, 3, 4]) = some (0, 4, [5, 10, 15, 20]) := by
  decide +kernel

/-- 42_elementwise.md R434, example. -/
theorem test_vdivVV : leaves (.vdivVV 0x200 0x100 0x120 2 2) (bigBlock 0 [10, 7, 5, 0]) = some (0, 2, [2, 0]) := by
  decide +kernel

/-- By hand in GF(17): the inverse of 5 is 7, and 10·7 = 2, 3·7 = 4. -/
theorem test_vdivVS : leaves (.vdivVS 0x200 0x100 2) (smallBlock 5 [10, 3]) = some (0, 2, [2, 4]) := by decide +kernel

/-- By hand in GF(17): 13 to the 33 is 13, and 2 to the 17 is 2; exponents of more than 16 are raw. -/
theorem test_vexpVV : leaves (.vexpVV 0x200 0x100 0x102 2 2) (smallBlock 0 [13, 2, 33, 17]) = some (0, 2, [13, 2]) := by
  decide +kernel

/-- 95_test_vectors.md 2.3: the scratch slot is a raw exponent. -/
theorem test_vexpVS : leaves (.vexpVS 0x200 0x100 3) (smallBlock 33 [200, 17, 16]) = some (0, 3, [13, 0, 16]) := by
  decide +kernel

/-- 95_test_vectors.md 2.3: one lane with 0 to the 0 fails the whole command. -/
theorem test_vexpVS_zero_to_zero : leaves (.vexpVS 0x200 0x100 2) (bigBlock 0 [2, 0]) = some (1, 0, []) := by decide +kernel

/-- 95_test_vectors.md 2.3. -/
theorem test_vinv :
    leaves (.vinv 0x200 0x100 6) (bigBlock 0 [2, 0, 1, big - 1, 4, 0]) =
      some (0, 6, [0x7FFFFFFFFFFFFFFFFFFFFFFFFFFFFFB1, 0, 1, big - 1, 0xBFFFFFFFFFFFFFFFFFFFFFFFFFFFFF89, 0]) := by
  decide +kernel

/-- 95_test_vectors.md 2.3. -/
theorem test_vneg : leaves (.vneg 0x200 0x100 3) (smallBlock 0 [200, 17, 16]) = some (0, 3, [4, 0, 1]) := by decide +kernel

/-- 43_bulk.md R450, example. -/
theorem test_pseries : leaves (.pseries 0x200 0x100 5) (bigBlock 0 [3]) = some (0, 5, [1, 3, 9, 27, 81]) := by decide +kernel

/-- 95_test_vectors.md 2.4: the first power of 0 is 1. -/
theorem test_pseries_zero : leaves (.pseries 0x200 0x100 3) (bigBlock 0 [0]) = some (0, 3, [1, 0, 0]) := by decide +kernel

/-- 43_bulk.md R451, example. -/
theorem test_matmul :
    leaves (.matmul 0x200 0x100 0x140 2 2 2 1) (bigBlock 0 [1, 2, 3, 4, 5, 6]) = some (0, 2, [17, 39]) := by decide +kernel

/-- 95_test_vectors.md 2.4: empty sums. -/
theorem test_matmul_empty_sums : leaves (.matmul 0x200 0x100 0x140 2 0 0 2) (bigBlock 0 []) = some (0, 4, [0, 0, 0, 0]) := by
  decide +kernel

/-- 43_bulk.md R452, example. -/
theorem test_combine : leaves (.combine 0x200 0x100 0x130 3 3) (bigBlock 0 [1, 2, 3, 4, 5, 6]) = some (0, 1, [32]) := by
  decide +kernel

/-- 44_polynomial.md R460, example. -/
theorem test_padd : leaves (.padd 0x200 0x100 0x130 3 2) (bigBlock 0 [1, 2, 3, big - 1, 5]) = some (0, 3, [0, 7, 3]) := by
  decide +kernel

/-- 44_polynomial.md R461, example. -/
theorem test_psub : leaves (.psub 0x200 0x100 0x120 2 3) (bigBlock 0 [1, 2, 1, 2, 3]) = some (0, 3, [0, 0, big - 3]) := by
  decide +kernel

/-- 95_test_vectors.md 2.5. -/
theorem test_pmul : leaves (.pmul 0x200 0x100 0x130 3 2) (bigBlock 0 [1, 2, 3, 4, 5]) = some (0, 4, [4, 13, 22, 15]) := by
  decide +kernel

/-- 95_test_vectors.md 2.5: an empty operand. -/
theorem test_pmul_empty : leaves (.pmul 0x200 0x100 0x130 0 2) (bigBlock 0 []) = some (1, 0, []) := by decide +kernel

/-- 95_test_vectors.md 2.5: x³ + 1 by x + 1. -/
theorem test_pdiv : leaves (.pdiv 0x200 0x100 0x140 4 2) (bigBlock 0 [1, 0, 0, 1, 1, 1]) = some (0, 3, [1, big - 1, 1]) := by
  decide +kernel

/-- 44_polynomial.md R464, example: degree 0 by degree 1. -/
theorem test_pdiv_low_degree : leaves (.pdiv 0x200 0x100 0x130 3 3) (bigBlock 0 [5, 0, 0, 1, 1, 0]) = some (1, 0, []) := by
  decide +kernel

/-- 44_polynomial.md R465, example. -/
theorem test_peval : leaves (.peval 0x200 0x100 0x130 3) (bigBlock 0 [1, 2, 3, 2]) = some (0, 1, [17]) := by decide +kernel

/-- 44_polynomial.md R466, example. -/
theorem test_zpoly :
    leaves (.zpoly 0x200 0x100 3) (bigBlock 0 [2, 3, 5]) = some (0, 4, [big - 30, 31, big - 10, 1]) := by decide +kernel

/-- 44_polynomial.md R466: for N0 = 2^32 − 1 the bounds check fails, also where the 2^32 one-byte elements would end exactly at
MEM_BYTES (log 18). -/
theorem test_zpoly_whole_memory :
    leaves (.zpoly 0 0 0xFFFFFFFF) { block 17 1 [] with memBytes := 2 ^ 32 } = some (11, 0, []) := by decide +kernel

/-- 95_test_vectors.md 2.6: roots that are no power cycle. -/
theorem test_fft_any_roots :
    leaves (.fft 0x200 0x100 0x140 4 4) (bigBlock 0 [1, 2, 3, 4, 1, 2, 4, 8]) = some (0, 4, [10, 49, 28, 37]) := by
  decide +kernel

/-- By hand in GF(17), on the eight powers of 9 (46_roots_twiddle.md R501: the root of order 8 is 9): x² takes the values 1, 13,
16, 4, twice. -/
theorem test_fft_eight :
    leaves (.fft 0x200 0x100 0x103 3 8) (smallBlock 0 [0, 0, 1, 1, 9, 13, 15, 16, 8, 4, 2]) =
      some (0, 8, [1, 13, 16, 4, 1, 13, 16, 4]) := by decide +kernel

/-- 95_test_vectors.md 2.6. -/
theorem test_ifft : leaves (.ifft 0x200 0x100 0x120 2 2) (bigBlock 0 [1, big - 1, 7, big - 1]) = some (0, 2, [3, 4]) := by
  decide +kernel

/-- 45_fft_interp.md R484: the power of two is tested before the lengths; 95_test_vectors.md 2.6. -/
theorem test_ifft_checks :
    leaves (.ifft 0x200 0x100 0x140 3 4) (bigBlock 0 []) = some (3, 0, []) ∧
    leaves (.ifft 0x200 0x100 0x140 4 3) (bigBlock 0 []) = some (2, 0, []) := by decide +kernel

/-- 45_fft_interp.md R486, example. -/
theorem test_lagrange : leaves (.lagrange 0x200 0x100 0x130 3 3) (bigBlock 0 [2, 3, 5, 4, 9, 25]) = some (0, 3, [0, 0, 1]) := by
  decide +kernel

/-- 45_fft_interp.md R486, example with a repeated x. -/
theorem test_lagrange_repeated :
    leaves (.lagrange 0x200 0x100 0x130 3 3) (bigBlock 0 [2, 2, 5, 4, 9, 25]) =
      some (0, 3, [0x8E38E38E38E38E38E38E38E38E38E341, 0x71C71C71C71C71C71C71C71C71C71C20,
        0xE38E38E38E38E38E38E38E38E38E3859]) := by decide +kernel

/-- 45_fft_interp.md R488, examples, in GF(17). -/
theorem test_qbatch :
    leaves (.qbatch 0x200 0x100 0x108 2 2) (smallBlock 0 [1, 2, 3, 4, 0, 1, 2, 3, 1, 8, 27, 64, 5, 5, 5, 5]) =
      some (0, 8, [0, 0, 0, 1, 5, 0, 0, 0]) := by decide +kernel

/-- 46_roots_twiddle.md R500, example. -/
theorem test_pcycle :
    leaves (.pcycle 0x200 0x100 16) (smallBlock 0 [3]) =
      some (0, 16, [1, 3, 9, 10, 13, 5, 15, 11, 16, 14, 8, 7, 4, 12, 2, 6]) := by decide +kernel

/-- 95_test_vectors.md 2.7: one element too few. -/
theorem test_pcycle_capacity : leaves (.pcycle 0x200 0x100 15) (smallBlock 0 [3]) = some (13, 0, []) := by decide +kernel

/-- 46_roots_twiddle.md R501, example. -/
theorem test_root :
    leaves (.root 0x200 4) (bigBlock 0 []) = some (0, 1, [0xA83E60708799079CC53E2DA46D037BAD]) := by decide +kernel

/-- 46_roots_twiddle.md R501, example: by the shortcut, and by the whole search in GF(17). -/
theorem test_root_not_found :
    leaves (.root 0x200 64) (bigBlock 0 []) = some (5, 0, []) ∧
    leaves (.root 0x200 32) (smallBlock 0 []) = some (5, 0, []) := by decide +kernel

/-- 47_control.md R510, example: SETMOD 65537 gives ES = 3; STATUS reads 4. -/
theorem test_setmod :
    (match exec (.setmod 65537) State.reset with
      | .next t => some (t.p.toNat, t.es.toNat, (statusRegister t).toNat)
      | _ => none) = some (65537, 3, 4) := by decide +kernel

/-- 95_test_vectors.md 2.8: SETMOD 1, and a second SETMOD. -/
theorem test_setmod_errors :
    (match exec (.setmod 1) State.reset with | .next t => some (statusRegister t).toNat | _ => none) = some 0x102 ∧
    (match exec (.setmod 17) (smallBlock 0 []) with | .next t => some (statusRegister t).toNat | _ => none) = some 0xA06 := by
  decide +kernel

/-- 95_test_vectors.md 2.8: ACK in IDLE leaves RLEN; ACK in ERROR returns to IDLE. -/
theorem test_ack :
    nextState (exec .ack { smallBlock 0 [] with rlen := 2 }) = some { smallBlock 0 [] with rlen := 2 } ∧
    nextState (exec .ack (raise .overlap 0x10 (smallBlock 0 []))) = some (smallBlock 0 []) := by decide +kernel

/-- 60_exceptions.md R621: the examples of the order of checks. -/
theorem test_order_of_checks :
    leaves (.vaddVV 0x100 0x100 0x200 2 3) (bigBlock 0 []) = some (2, 0, []) ∧
    leaves (.fadd 0x2000 0x100 0x110) (bigBlock 0 []) = some (11, 0, []) ∧
    leaves (.fadd 0x100 0x100 0x110) (bigBlock 0 []) = some (12, 0, []) ∧
    leaves (.fadd 0x8 0x100 0x110) (bigBlock 0 []) = some (12, 0, []) ∧
    leaves (.fadd 0x2000 0x100 0x110) State.reset = some (9, 0, []) := by decide +kernel

/-- 95_test_vectors.md 2.8: the last element that fits at the top of MEM, two bytes an element, and one byte beyond. -/
theorem test_top_of_memory :
    (match exec (.fadd 0xFFE 0x100 0x102) (block 257 2 (bytesAt 0x100 [0x00, 0x01, 0x05, 0x00])) with
      | .next t => some (t.byteAt 0xFFE, t.byteAt 0xFFF) | _ => none) = some (0x04, 0x00) ∧
    leaves (.fadd 0xFFF 0x100 0x102) (block 257 2 []) = some (11, 0, []) := by decide +kernel

/-- 60_exceptions.md R621: OPCODE 0x99 before SETMOD is illegal, and ERRINFO is its W0; in ERROR the word is dropped (R612). -/
theorem test_illegal_word :
    (match issue ⟨0x99, 0, 0, 0, 0, 0, 0, 0⟩ State.reset with
      | .next t => some ((statusRegister t).toNat, t.errinfo) | _ => none) = some (0x802, 0x99) ∧
    nextState (issue ⟨0x99, 0, 0, 0, 0, 0, 0, 0⟩ (raise .overlap 0x10 (smallBlock 0 []))) =
      some (raise .overlap 0x10 (smallBlock 0 [])) := by
  decide +kernel

/-- A batch inversion modulo 15: the element 3 has no inverse, so every non-zero lane is a free value, the zero lane is 0
(93_implementation_defined.md U2). -/
theorem test_vinv_composite :
    (match exec (.vinv 0x200 0x100 3) (block 15 1 (bytesAt 0x100 [3, 0, 2])) with
      | .next t => some (t.err, t.rlen, loadRaw t 0x201 0) | _ => none) = some (0, 3, 0) := by decide +kernel

theorem test_reset_memory_canonical : State.reset.mem.wf := by decide

/-- The port accepts the word `withFetchWord` places, and the step runs it. -/
theorem test_step_runs_word :
    nextState (step (State.reset.withFetchWord 256 (encode (.setmod 17)).toBits.toNat)) =
      nextState (exec (.setmod 17) State.reset) := by decide +kernel
/-! ### Part 4: the hypotheses of the statements can be met

Each theorem shows a concrete state and operands that meet all hypotheses of the statement it is named after, clause by clause
where the clauses have hypotheses of their own. -/

/-- A configured block over GF(17): the scalar 2 in the scratch slot; from 0x100 the elements 3, 5, 0, 1, 0, 13; from 0x110 the
power cycle of 13, of order 4; from 0x114 the values of 1 + 2x + 3x² + 4x³ there. -/
def demo : State := smallBlock 2 [3, 5, 0, 1, 0, 13, 0, 0, 0, 0, 0, 0, 0, 0, 0, 0, 1, 13, 16, 4, 10, 6, 15, 7]

theorem demo_inv : Inv demo where
  memBytes_ge := by decide
  memBytes_le := by decide
  mem_wf := by decide +kernel
  mem_below := by decide +kernel
  not_busy := by decide
  field := by decide +kernel
  no_field := by decide +kernel
  no_error := by decide +kernel
  error := by decide +kernel

theorem demo_ready : Ready demo := ⟨demo_inv, rfl, rfl⟩

theorem demo_prime : demo.modulus.Prime := by show Nat.Prime 17; norm_num

/-- The demo with its error state, its BUSY state, and the state before SETMOD. -/
def demoError : State := raise .overlap 0x00000010 demo
def demoBusy : State := { demo with state := .busy }
def demoUnconfigured : State := { State.reset with mem := demo.mem }

theorem demoUnconfigured_inv : Inv demoUnconfigured where
  memBytes_ge := by decide
  memBytes_le := by decide
  mem_wf := by decide +kernel
  mem_below := by decide +kernel
  not_busy := by decide
  field := by decide +kernel
  no_field := by decide +kernel
  no_error := by decide +kernel
  error := by decide +kernel

theorem witness_DecodeOfEncode :
    (Instr.matmul 0xFFFFFFFF 0 0xFFFFFFFF 0 1 0xFFFFFFFF 2).WellFormed ∧ (Instr.setmod (2 ^ 128 - 1)).WellFormed := by decide

theorem witness_EncodeOfDecode : decode ⟨0x00000214, 0xFFFFFFFF, 0, 3, 0, 0, 0, 0⟩ = .ok (.fexp true 0xFFFFFFFF 0 3) := by
  decide +kernel

theorem witness_DecoderFollowsOpcodeTable :
    decode ⟨0x00000120, 1, 2, 0, 4, 0, 0, 0⟩ = .ok (.vaddVS 1 2 4) ∧
    ∃ r ∈ opcodeRows, r.admits ⟨0x00000120, 1, 2, 0, 4, 0, 0, 0⟩ = true := by decide +kernel

/-- One word for each cause, and one for none. -/
theorem witness_IllegalWordRaises :
    demo.state = .idle ∧ IllegalCause ⟨0x00000000, 0, 0, 0, 0, 0, 0, 0⟩ .unknownOpcode ∧
    IllegalCause ⟨0x00000410, 0, 0, 0, 0, 0, 0, 0⟩ .reservedBits ∧ IllegalCause ⟨0x00000125, 0, 0, 0, 0, 0, 0, 0⟩ .formBit ∧
    IllegalCause ⟨0x00000213, 0, 0, 0, 0, 0, 0, 0⟩ .negBit ∧ IllegalCause ⟨0x00000002, 0, 0, 0, 0, 0, 0, 1⟩ .unusedWord ∧
    ¬IllegalWord ⟨0x00000002, 0, 0, 0, 0, 0, 0, 0⟩ := by
  refine ⟨rfl, fun op => by cases op <;> decide, by show (_ : Nat) ≠ 0; decide, by show _ ∧ _; decide, by show _ ∧ _; decide,
    ⟨.ack, by decide, 7, by decide⟩, ?_⟩
  rintro ⟨c, h⟩
  cases c with
  | unknownOpcode => exact h .ack (by decide)
  | reservedBits => exact h (by decide)
  | formBit => exact absurd h.1 (by decide)
  | negBit => exact absurd h.1 (by decide)
  | unusedWord =>
    obtain ⟨op, -, k, h1, hk, -, h⟩ := h
    have : ∀ k, k ≤ 7 → k ≠ 0 → CommandWord.word ⟨0x00000002, 0, 0, 0, 0, 0, 0, 0⟩ k = 0 := by decide
    by_cases h0 : k = 0
    · omega
    · exact h (this k hk h0)

theorem witness_StepRunsDecodedCommand :
    (demo.withPending [.command ⟨0x00000016, 0x200, 0x100, 0, 0, 0, 0, 0⟩]).pending =
      [.command ⟨0x00000016, 0x200, 0x100, 0, 0, 0, 0, 0⟩] ∧
    decode ⟨0x00000016, 0x200, 0x100, 0, 0, 0, 0, 0⟩ = .ok (.fneg 0x200 0x100) ∧ (Instr.fneg 0x200 0x100).WellFormed ∧
    demo.pending = [] := by decide +kernel

/-- BUSY; one byte past the end of MEM, written and read; the last byte, written and read; no byte at all, at an offset outside. -/
theorem witness_HostMemoryPort :
    demoBusy.state = .busy ∧
    (demo.state ≠ .busy ∧ ([1, 2] : List Byte) ≠ [] ∧ demo.memBytes < 0xFFF + ([1, 2] : List Byte).length) ∧
    (demo.state ≠ .busy ∧ (2 : Nat) ≠ 0 ∧ demo.memBytes < 0xFFF + 2) ∧
    (demo.state ≠ .busy ∧ (([1] : List Byte) = [] ∨ 0xFFF + ([1] : List Byte).length ≤ demo.memBytes)) ∧
    (demo.state ≠ .busy ∧ ((1 : Nat) = 0 ∨ 0xFFF + 1 ≤ demo.memBytes)) ∧
    (demo.state ≠ .busy ∧ demo.memBytes < 0x1001 ∧ (([] : List Byte) = [] ∨ 0x1001 + ([] : List Byte).length ≤ demo.memBytes)) ∧
    demo.state ≠ .busy ∧ demo.memBytes < 0x1001 ∧ ((0 : Nat) = 0 ∨ 0x1001 + 0 ≤ demo.memBytes) := by decide

theorem witness_RegisterReadPort : (7 : Nat) < 8 := by decide

/-- Two states that differ in every register and in MEM. -/
theorem witness_ResetEventForgets :
    (demoError.withPending [.reset]).pending = [.reset] ∧
    (State.reset.withPending [.reset]).pending = (demoError.withPending [.reset]).pending ∧
    (State.reset.withPending [.reset]).memBytes = (demoError.withPending [.reset]).memBytes ∧
    (State.reset.withPending [.reset]).seen = (demoError.withPending [.reset]).seen ∧
    (State.reset.withPending [.reset]).resets = (demoError.withPending [.reset]).resets := by decide +kernel

theorem witness_StepKeepsInv : ∃ t, Inv demo ∧ step demo = .next t := ⟨demo, demo_inv, rfl⟩

theorem witness_ErrorEntry :
    ∃ t, demo.state = .idle ∧ issue ⟨0x00000099, 0, 0, 0, 0, 0, 0, 0⟩ demo = .next t ∧ t.state = .error :=
  ⟨_, rfl, rfl, rfl⟩

theorem witness_WordsDroppedOutsideIdle :
    demoBusy.state = .busy ∧ demoError.state = .error ∧
    (⟨0x00000002, 1, 0, 0, 0, 0, 0, 0⟩ : CommandWord) ≠ ⟨0x00000002, 0, 0, 0, 0, 0, 0, 0⟩ := by decide

/-- Every clause: not configured; its own check; a source one element too far; 2^32 result elements, and one fewer; the destination on
the scratch slot; admitted. -/
theorem witness_StageOrder :
    (Inv demoUnconfigured ∧ demoUnconfigured.state = .idle ∧ demoUnconfigured.configured = false) ∧
    Inv demo ∧ demo.state = .idle ∧ demo.configured = true ∧
    (∃ sh, (Instr.pmul 0x200 0x100 0x101 0 1).shape = some sh ∧ sh.check = some .invalidArgument) ∧
    (∃ sh, (Instr.fneg 0x200 0x1000).shape = some sh ∧ sh.check = none ∧
      ¬(sh.tooMany = false ∧ Fits demo sh.dst sh.count ∧ ∀ r ∈ sh.sources, Fits demo r.1 r.2)) ∧
    (∃ sh, (Instr.zpoly 0 0 0xFFFFFFFF).shape = some sh ∧ sh.check = none ∧ sh.tooMany = true) ∧
    (∃ sh, (Instr.zpoly 0 0 0xFFFFFFFE).shape = some sh ∧ sh.check = none ∧ sh.tooMany = false) ∧
    (∃ sh, (Instr.fneg 0xF 0x100).shape = some sh ∧ sh.check = none ∧
      (sh.tooMany = false ∧ Fits demo sh.dst sh.count ∧ ∀ r ∈ sh.sources, Fits demo r.1 r.2) ∧
      ¬(OffScratch demo sh.dst sh.count ∧ ∀ r ∈ sh.sources, Apart demo sh.dst sh.count r.1 r.2)) ∧
    ∃ sh, (Instr.fneg 0x10 0x100).shape = some sh ∧ sh.check = none ∧ Admitted demo sh.dst sh.count sh.sources :=
  ⟨⟨demoUnconfigured_inv, rfl, rfl⟩, demo_inv, rfl, rfl, ⟨_, rfl, by decide⟩, ⟨_, rfl, by decide +kernel⟩,
    ⟨_, rfl, rfl, by decide⟩, ⟨_, rfl, rfl, by decide⟩, ⟨_, rfl, by decide +kernel⟩, ⟨_, rfl, by decide +kernel⟩⟩

theorem witness_FieldWrittenOnceBetweenResets :
    ∃ t, step (State.reset.withPending [.command (encode (.setmod 17))]) = .next t ∧ t.p = 17 := ⟨_, rfl, by decide +kernel⟩

theorem witness_OnlyDestinationWritten :
    ∃ t sh, Inv demo ∧ demo.state = .idle ∧ (Instr.vneg 0x200 0x100 3).shape = some sh ∧ exec (.vneg 0x200 0x100 3) demo = .next t ∧
      t.rlen = 3 := ⟨_, _, demo_inv, rfl, rfl, rfl, by decide +kernel⟩

theorem witness_OperandsAndScratchNeverWritten :
    (∃ t sh, Inv demo ∧ (Instr.vneg 0x200 0x100 3).shape = some sh ∧ exec (.vneg 0x200 0x100 3) demo = .next t) ∧
    ∃ t, exec .ack demo = .next t ∧ Instr.shape .ack = none := ⟨⟨_, _, demo_inv, rfl, rfl⟩, _, rfl, rfl⟩

theorem witness_StoredElementsCanonical :
    ∃ t sh, Inv demo ∧ demo.state = .idle ∧ (Instr.vneg 0x200 0x100 3).shape = some sh ∧ exec (.vneg 0x200 0x100 3) demo = .next t ∧
      t.state = .idle ∧ 2 < t.rlen.toNat := ⟨_, _, demo_inv, rfl, rfl, rfl, by decide +kernel⟩

/-- Two states that differ in a byte outside the operands. -/
theorem witness_ResultDependsOnOperandsOnly :
    ∃ t t' sh, Inv demo ∧ Inv { demo with mem := demo.mem.set 0x200 7 } ∧ (Instr.vaddVS 0x300 0x100 2).shape = some sh ∧
      (∀ r ∈ sh.sources, ∀ a, r.1 ≤ a → a < r.1 + r.2 * demo.elemBytes →
        State.byteAt { demo with mem := demo.mem.set 0x200 7 } a = demo.byteAt a) ∧
      (∀ a, a < 16 → State.byteAt { demo with mem := demo.mem.set 0x200 7 } a = demo.byteAt a) ∧
      State.byteAt { demo with mem := demo.mem.set 0x200 7 } 0x200 = 7 ∧
      exec (.vaddVS 0x300 0x100 2) demo = .next t ∧
      exec (.vaddVS 0x300 0x100 2) { demo with mem := demo.mem.set 0x200 7 } = .next t' := by
  have h : ∀ a, a ≠ 0x200 → State.byteAt { demo with mem := demo.mem.set 0x200 7 } a = demo.byteAt a := fun a ha => by
    simp [State.byteAt, get?_set, ha]
  refine ⟨_, _, _, demo_inv, ⟨by decide, by decide, by decide +kernel, by decide +kernel, by decide, by decide +kernel,
    by decide +kernel, by decide +kernel, by decide +kernel⟩, rfl, fun r hr a _ ha => h a ?_, fun a ha => h a (by omega),
    by decide +kernel, rfl, rfl⟩
  have : ∀ r ∈ [((0x100, 2) : Nat × Nat)], r.1 + r.2 * demo.elemBytes ≤ 0x102 := by decide +kernel
  have := this r hr
  omega

theorem witness_MemWriteSetsBytes : demo.mem.wf ∧ (1 : Nat) < 2 := ⟨demo_inv.mem_wf, by decide⟩

theorem witness_WideAddSubExact : 2 ^ 128 - 1 < 2 ^ 128 := by decide

/-- A prime modulus, and a composite one with a coprime element. -/
theorem witness_InverseIsTheInverse :
    (2 ≤ 17 ∧ 3 < 17 ∧ Nat.Prime 17) ∧ 2 ≤ 15 ∧ 4 < 15 ∧ Nat.Coprime 4 15 ∧ 4 * 4 % 15 = 1 := by
  refine ⟨⟨by decide, by decide, by norm_num⟩, by decide⟩

theorem witness_AddSubRecipesAgree : 2 ≤ big ∧ big < 2 ^ 128 ∧ big - 1 < big ∧ 0 < big := by decide

theorem witness_SquareAndMultiplyIsPower : 2 ≤ 17 ∧ 16 < 17 := by decide

theorem witness_FieldLaws :
    Nat.Prime 17 ∧ 16 < 17 ∧ 0 < 17 ∧ ((0 : Nat) = 0 → (-1 : Int) ≠ 0 ∧ (2 : Int) ≠ 0 ∧ (-1 : Int) + 2 ≠ 0) := by
  refine ⟨by norm_num, by decide⟩

theorem witness_MontgomeryBatchInversion : Nat.Prime 17 ∧ ∀ x ∈ [2, 0, 1, 16], x < 17 := by
  refine ⟨by norm_num, by decide⟩

/-- All clauses: configured; p = 1; the least and the greatest legal modulus; a malformed word. -/
theorem witness_SetmodConfigures :
    (demo.state = .idle ∧ demo.configured = true) ∧ (State.reset.state = .idle ∧ State.reset.configured = false ∧ 1 < 2) ∧
    (2 ≤ 2 ∧ 2 ≤ 2 ^ 128 - 1 ∧ 2 ^ 128 - 1 < 2 ^ 128) ∧
    CommandWord.opcodeField ⟨0x00000001, 1, 0, 0, 17, 0, 0, 0⟩ = 0x01 := by decide

theorem witness_AckAcknowledges :
    demoError.state ≠ .busy ∧ demo.state ≠ .busy ∧ CommandWord.opcodeField ⟨0x00000002, 1, 0, 0, 0, 0, 0, 0⟩ = 0x02 ∧
    (⟨0x00000002, 1, 0, 0, 0, 0, 0, 0⟩ : CommandWord) ≠ ⟨0x00000002, 0, 0, 0, 0, 0, 0, 0⟩ ∧ demo.state = .idle ∧
    demoError.state = .error := by decide

/-- The destination directly above the scratch slot, and at the last element of MEM. -/
theorem witness_FaddFsubComplete :
    Ready demo ∧ Admitted demo 0x10 1 [(0x100, 1), (0x101, 1)] ∧ Admitted demo 0xFFF 1 [(0x100, 1), (0x100, 1)] :=
  ⟨demo_ready, by decide +kernel⟩

theorem witness_FmulFnegComplete :
    Ready demo ∧ Admitted demo 0x10 1 [(0x100, 1), (0x101, 1)] ∧ Admitted demo 0x10 1 [(0x100, 1)] :=
  ⟨demo_ready, by decide +kernel⟩

theorem witness_FinvFdivComplete :
    Ready demo ∧ Admitted demo 0x10 1 [(0x100, 1)] ∧ Admitted demo 0x10 1 [(0x100, 1), (0x101, 1)] ∧ loadF demo 0x102 0 = 0 ∧
    Nat.Coprime (loadF demo 0x101 0) demo.modulus := ⟨demo_ready, by decide +kernel⟩

/-- 0 to the 0; a power; a negative exponent; exponent 0; base 0. -/
theorem witness_FexpCompletes :
    Ready demo ∧ Admitted demo 0x10 1 [(0x102, 1), (0x104, 1)] ∧ loadF demo 0x102 0 = 0 ∧ loadRaw demo 0x104 0 = 0 ∧
    Admitted demo 0x10 1 [(0x100, 1), (0x104, 1)] ∧ loadF demo 0x100 0 ≠ 0 ∧ loadRaw demo 0x101 0 ≠ 0 ∧
    Nat.Coprime (loadF demo 0x100 0) demo.modulus := ⟨demo_ready, by decide +kernel⟩

theorem witness_ElementwiseAddSubMulComplete :
    Ready demo ∧ Admitted demo 0x10 3 [(0x100, 3), (0x103, 3)] ∧ Admitted demo 0x10 3 [(0x100, 3)] ∧
    Admitted demo 0xFFFFFFF0 0 [(0, 0), (0, 0)] := ⟨demo_ready, by decide +kernel⟩

theorem witness_ElementwiseDivCompletes :
    Ready demo ∧ Admitted demo 0x10 3 [(0x100, 3), (0x101, 3)] ∧ Admitted demo 0x10 3 [(0x100, 3)] ∧
    loadF demo 0x101 1 = 0 ∧ Nat.Coprime (loadF demo 0x101 0) demo.modulus ∧ Nat.Coprime (scratch demo) demo.modulus :=
  ⟨demo_ready, by decide +kernel⟩

/-- A lane with 0 to the 0, and none, in the vv form; none in the vs form, and one with a zero scratch slot. -/
theorem witness_ElementwiseExpCompletes :
    Ready demo ∧ Admitted demo 0x10 3 [(0x100, 3), (0x102, 3)] ∧ (loadF demo 0x100 2 = 0 ∧ loadRaw demo 0x102 2 = 0) ∧
    (∀ i, i < 2 → loadF demo 0x100 i ≠ 0 ∨ loadRaw demo 0x102 i ≠ 0) ∧ Admitted demo 0x10 3 [(0x100, 3)] ∧
    (∀ i, i < 3 → loadF demo 0x100 i ≠ 0 ∨ scratch demo ≠ 0) ∧
    loadF (smallBlock 0 [0]) 0x100 0 = 0 ∧ scratch (smallBlock 0 [0]) = 0 ∧ Admitted (smallBlock 0 [0]) 0x10 1 [(0x100, 1)] :=
  ⟨demo_ready, by decide +kernel⟩

theorem witness_VnegVinvComplete :
    Ready demo ∧ Admitted demo 0x10 3 [(0x100, 3)] ∧
    (∀ i, i < 3 → loadF demo 0x100 i = 0 ∨ Nat.Coprime (loadF demo 0x100 i) demo.modulus) ∧ loadF demo 0x100 2 = 0 ∧
    loadF demo 0x100 0 ≠ 0 := ⟨demo_ready, by decide +kernel⟩

theorem witness_PseriesCompletes : Ready demo ∧ Admitted demo 0x200 5 [(0x100, 1)] := ⟨demo_ready, by decide +kernel⟩

theorem witness_MatmulCompletes :
    Ready demo ∧ Admitted demo 0x200 (2 * 1) [(0x100, 2 * 2), (0x104, 2 * 1)] ∧
    Admitted demo 0x200 (2 * 2) [(0x100, 2 * 0), (0x104, 0 * 2)] := ⟨demo_ready, by decide +kernel⟩

theorem witness_CombineCompletes :
    Ready demo ∧ Admitted demo 0x200 1 [(0x100, 3), (0x103, 3)] ∧ Admitted demo 0x200 1 [(0x100, 0), (0x103, 0)] :=
  ⟨demo_ready, by decide +kernel⟩

theorem witness_PaddPsubComplete : Ready demo ∧ Admitted demo 0x200 (max 3 2) [(0x100, 3), (0x103, 2)] :=
  ⟨demo_ready, by decide +kernel⟩

theorem witness_PmulCompletes :
    Ready demo ∧ (3 : Nat) ≠ 0 ∧ (2 : Nat) ≠ 0 ∧ Admitted demo 0x200 (3 + 2 - 1) [(0x100, 3), (0x103, 2)] :=
  ⟨demo_ready, by decide +kernel⟩

/-- A zero divisor at 0x104; a dividend of degree 0 by a divisor of degree 1; a dividend of degree 3 by a divisor of degree 1. -/
theorem witness_PdivCompletes :
    Ready demo ∧ (1 ≤ 4 ∧ Admitted demo 0x200 4 [(0x100, 4), (0x104, 1)] ∧ ∀ j, (if j < 1 then loadF demo 0x104 j else 0) = 0) ∧
    (2 ≤ 2 ∧ Admitted demo 0x200 2 [(0x103, 2), (0x100, 2)] ∧ loadF demo 0x100 1 ≠ 0 ∧
      ∀ i, 1 ≤ i → (if i < 2 then loadF demo 0x103 i else 0) = 0) ∧
    loadF demo 0x100 3 ≠ 0 ∧ (∀ i, 3 < i → (if i < 4 then loadF demo 0x100 i else 0) = 0) ∧ demo.modulus.Prime := by
  have h₁ : loadF demo 0x104 0 = 0 := by decide +kernel
  have h₂ : loadF demo 0x103 1 = 0 := by decide +kernel
  refine ⟨demo_ready, ⟨by decide, by decide +kernel, fun j => ?_⟩, ⟨by decide, by decide +kernel, by decide +kernel,
    fun i hi => ?_⟩, by decide +kernel, fun i hi => if_neg (by omega), demo_prime⟩
  · split
    · rename_i h; obtain rfl : j = 0 := by omega
      exact h₁
    · rfl
  · split
    · obtain rfl : i = 1 := by omega
      exact h₂
    · rfl

theorem witness_PevalCompletes :
    Ready demo ∧ Admitted demo 0x200 1 [(0x100, 3), (0x103, 1)] ∧ Admitted demo 0x200 1 [(0x100, 0), (0x103, 1)] :=
  ⟨demo_ready, by decide +kernel⟩

theorem witness_ZpolyCompletes : Ready demo ∧ Admitted demo 0x200 (3 + 1) [(0x100, 3)] ∧ Admitted demo 0x200 (0 + 1) [(0x100, 0)] :=
  ⟨demo_ready, by decide +kernel⟩

/-- Domains of one, two and four elements. -/
theorem witness_FftFollowsRecursion :
    Ready demo ∧ (1 ≤ 2 ^ 0 ∧ Admitted demo 0x200 (2 ^ 0) [(0x100, 1), (0x110, 2 ^ 0)]) ∧
    (2 ≤ 2 ^ 1 ∧ Admitted demo 0x200 (2 ^ 1) [(0x100, 2), (0x110, 2 ^ 1)]) ∧
    (3 ≤ 2 ^ 2 ∧ Admitted demo 0x200 (2 ^ 2) [(0x100, 3), (0x110, 2 ^ 2)]) := ⟨demo_ready, by decide +kernel⟩

theorem demo_root : RootOfUnity demo.modulus 2 13 := ⟨by decide +kernel, fun _ => by decide +kernel⟩

theorem witness_FftEvaluatesAtRoots :
    Ready demo ∧ demo.modulus.Prime ∧ 3 ≤ 2 ^ 2 ∧ Admitted demo 0x200 (2 ^ 2) [(0x100, 3), (0x110, 2 ^ 2)] ∧
    RootOfUnity demo.modulus 2 13 ∧ ∀ i, i < 2 ^ 2 → loadF demo 0x110 i = 13 ^ i % demo.modulus :=
  ⟨demo_ready, demo_prime, by decide, by decide +kernel, demo_root, by decide +kernel⟩

theorem witness_IfftCompletes : Ready demo ∧ Admitted demo 0x200 (2 ^ 2) [(0x110, 2 ^ 2), (0x114, 2 ^ 2)] :=
  ⟨demo_ready, by decide +kernel⟩

theorem witness_IfftInvertsFft :
    Ready demo ∧ demo.modulus.Prime ∧ Admitted demo 0x200 (2 ^ 2) [(0x110, 2 ^ 2), (0x114, 2 ^ 2)] ∧
    RootOfUnity demo.modulus 2 13 ∧ (∀ i, i < 2 ^ 2 → loadF demo 0x110 i = 13 ^ i % demo.modulus) ∧
    [1, 2, 3, 4].length = 2 ^ 2 ∧ (∀ x ∈ [1, 2, 3, 4], x < demo.modulus) ∧
    ∀ i, i < 2 ^ 2 → loadF demo 0x114 i =
      (∑ j ∈ Finset.range (2 ^ 2), [1, 2, 3, 4].getD j 0 * (13 ^ i) ^ j) % demo.modulus :=
  ⟨demo_ready, demo_prime, by decide +kernel, demo_root, by decide +kernel, by decide, by decide +kernel, by decide +kernel⟩

theorem witness_LagrangeFormula : Ready demo ∧ Admitted demo 0x200 3 [(0x100, 3), (0x103, 3)] ∧ demo.modulus.Prime :=
  ⟨demo_ready, by decide +kernel, demo_prime⟩

theorem witness_LagrangeInterpolates :
    Ready demo ∧ demo.modulus.Prime ∧ Admitted demo 0x200 4 [(0x100, 4), (0x110, 4)] ∧
    ∀ i j, i < 4 → j < 4 → loadF demo 0x100 i = loadF demo 0x100 j → i = j := by
  have h : ∀ i < 4, ∀ j < 4, loadF demo 0x100 i = loadF demo 0x100 j → i = j := by decide +kernel
  exact ⟨demo_ready, demo_prime, by decide +kernel, fun i j hi hj => h i hi j hj⟩

theorem witness_QbatchIsRowwiseLagrange :
    Ready demo ∧ Admitted demo 0x200 (4 * 2) [(0x100, 4 * 2), (0x110, 4 * 2)] ∧ demo.modulus.Prime :=
  ⟨demo_ready, by decide +kernel, demo_prime⟩

/-- The element 13 has order 4: room for its cycle, and too little. -/
theorem witness_PcycleCompletes :
    Ready demo ∧ Admitted demo 0x200 4 [(0x105, 1)] ∧ Admitted demo 0x200 3 [(0x105, 1)] ∧
    (1 ≤ 4 ∧ 4 ≤ 4 ∧ loadF demo 0x105 0 ^ 4 % demo.modulus = 1 ∧
      ∀ j, 1 ≤ j → j < 4 → loadF demo 0x105 0 ^ j % demo.modulus ≠ 1) ∧
    ∀ j, 1 ≤ j → j ≤ 3 → loadF demo 0x105 0 ^ j % demo.modulus ≠ 1 := by
  have h : ∀ j < 4, 1 ≤ j → loadF demo 0x105 0 ^ j % demo.modulus ≠ 1 := by decide +kernel
  exact ⟨demo_ready, by decide +kernel, by decide +kernel, ⟨by decide, by decide, by decide +kernel, fun j h₁ h₂ => h j h₂ h₁⟩,
    fun j h₁ h₂ => h j (by omega) h₁⟩

/-- Order 4: the candidate 3 is good and 2 is not. Order 32: none is. -/
theorem witness_RootCompletes :
    Ready demo ∧ Admitted demo 0x200 1 [] ∧
    (2 ≤ 3 ∧ 3 < demo.modulus ∧ (3 ^ ((demo.modulus - 1) / 2 ^ 2) % demo.modulus) ^ 2 ^ 2 % demo.modulus = 1 ∧
      (3 ^ ((demo.modulus - 1) / 2 ^ 2) % demo.modulus) ^ 2 ^ 1 % demo.modulus ≠ 1) ∧
    (2 ^ ((demo.modulus - 1) / 2 ^ 2) % demo.modulus) ^ 2 ^ 1 % demo.modulus = 1 ∧
    ∀ i < demo.modulus, ¬(2 ≤ i ∧ (i ^ ((demo.modulus - 1) / 2 ^ 5) % demo.modulus) ^ 2 ^ 5 % demo.modulus = 1 ∧
      (i ^ ((demo.modulus - 1) / 2 ^ 5) % demo.modulus) ^ 2 ^ 4 % demo.modulus ≠ 1) :=
  ⟨demo_ready, by decide +kernel⟩

theorem witness_FftDomainFromRoot : Nat.Prime 17 ∧ 2 ^ 4 ∣ 17 - 1 ∧ 2 ^ 4 ≤ 16 := ⟨by norm_num, by decide, by decide⟩

end Sys2Proof.Tests
end

/-! PROOFS of the statements about the block's state, its ports and its reset (10_state.md), with the lemmas they share. -/

namespace Sys2Proof

open Machine

/-! ### The decoder -/

/-- A word decodes to a command exactly when it passes the five checks of 30_encoding.md R306 and the command is what its opcode
assembles. -/
theorem decode_ok_iff {cw : CommandWord} {i : Instr} :
    decode cw = .ok i ↔ ∃ op, Opcode.ofCode cw.opcodeField = some op ∧ cw.reservedField = 0 ∧
      (cw.formField && !op.hasForms) = false ∧ (cw.negField && !op.hasNeg) = false ∧
      cw.unusedNonZero op cw.formField = false ∧ op.assemble cw cw.formField cw.negField = i := by
  unfold decode
  cases Opcode.ofCode cw.opcodeField with
  | none => simp
  | some op => grind

theorem toNat_wordOf {n : Nat} (h : n < 2 ^ 32) : (wordOf n).toNat = n := by
  rw [wordOf, BitVec.toNat_ofNat, Nat.mod_eq_of_lt h]

/-- The four words of SETMOD's immediate hold the modulus (30_encoding.md R303). -/
theorem toNat_wordOf_limbs {p : Nat} (h : p < 2 ^ 128) :
    (wordOf p).toNat + (wordOf (p / 2 ^ 32)).toNat * 2 ^ 32 + (wordOf (p / 2 ^ 64)).toNat * 2 ^ 64 +
      (wordOf (p / 2 ^ 96)).toNat * 2 ^ 96 = p := by
  simp only [wordOf, BitVec.toNat_ofNat]
  omega

/-- The words of a number put together from four words are those words (30_encoding.md R303). -/
theorem wordOf_limbs (a b c d : Word) :
    let q := a.toNat + b.toNat * 2 ^ 32 + c.toNat * 2 ^ 64 + d.toNat * 2 ^ 96
    q < 2 ^ 128 ∧ wordOf q = a ∧ wordOf (q / 2 ^ 32) = b ∧ wordOf (q / 2 ^ 64) = c ∧ wordOf (q / 2 ^ 96) = d := by
  refine ⟨by omega, ?_, ?_, ?_, ?_⟩ <;> apply BitVec.eq_of_toNat_eq <;> simp only [wordOf, BitVec.toNat_ofNat] <;> omega

/-- The decoder undoes the encoder on well-formed commands: W0 names the opcode, FORM and NEG, every word the command does not
use is 0, and every operand fits its word. -/
theorem decode_encode {i : Instr} (h : i.WellFormed) : decode (encode i) = .ok i := by
  rw [decode_ok_iff]
  cases i with
  | setmod p =>
    simp only [Instr.WellFormed, Instr.wf, modulusFits, decide_eq_true_eq] at h
    refine ⟨.setmod, rfl, ?_, ?_, ?_, ?_, congrArg Instr.setmod (toNat_wordOf_limbs h)⟩ <;>
      simp [encode, CommandWord.reservedField, CommandWord.formField, CommandWord.negField, CommandWord.unusedNonZero,
        CommandWord.word, Opcode.uses]
  | fexp neg d a b =>
    simp [Instr.WellFormed, Instr.wf, offsetFits] at h
    refine ⟨.fexp, ?_⟩
    cases neg <;>
      simp [encode, CommandWord.opcodeField, Opcode.ofCode, Opcode.all, Opcode.code, CommandWord.reservedField,
        CommandWord.formField, CommandWord.negField, Opcode.hasNeg, CommandWord.unusedNonZero, CommandWord.word, Opcode.uses,
        Opcode.assemble, toNat_wordOf, h]
  | _ =>
    simp [Instr.WellFormed, Instr.wf, offsetFits, countFits] at h
    refine ⟨_, by simp only [encode, CommandWord.opcodeField, BitVec.reduceToNat, Nat.reduceMod]; rfl, ?_⟩
    simp [encode, CommandWord.reservedField, CommandWord.formField, CommandWord.negField, Opcode.hasForms,
      CommandWord.unusedNonZero, CommandWord.word, Opcode.uses, Opcode.assemble, toNat_wordOf, h]

theorem code_of_ofCode {n : Nat} {op : Opcode} (h : Opcode.ofCode n = some op) : op.code = n :=
  beq_iff_eq.1 (List.find?_some (p := fun op : Opcode => op.code == n) h)

/-- SETMOD's opcode is the only one that assembles a SETMOD command. -/
theorem assemble_eq_setmod {cw : CommandWord} {op : Opcode} {form neg : Bool} {q : Nat}
    (h : op.assemble cw form neg = .setmod q) :
    op = .setmod ∧ cw.w4.toNat + cw.w5.toNat * 2 ^ 32 + cw.w6.toNat * 2 ^ 64 + cw.w7.toNat * 2 ^ 96 = q := by
  cases op
  case setmod => exact ⟨rfl, Instr.setmod.inj h⟩
  all_goals cases form <;> simp [Opcode.assemble] at h

/-- A word that decodes to a SETMOD is that command's own encoding, and its modulus fits the 128-bit immediate
(30_encoding.md R303, R304). -/
theorem decode_setmod {cw : CommandWord} {q : Nat} (h : decode cw = .ok (.setmod q)) :
    q < 2 ^ 128 ∧ cw = encode (.setmod q) := by
  obtain ⟨op, hop, hres, hform, hneg, hunused, has⟩ := decode_ok_iff.1 h
  obtain ⟨rfl, rfl⟩ := assemble_eq_setmod has
  obtain ⟨hlt, h4, h5, h6, h7⟩ := wordOf_limbs cw.w4 cw.w5 cw.w6 cw.w7
  have hcode : cw.w0.toNat % 256 = 1 := (code_of_ofCode hop).symm
  have hw0 : cw.w0 = 1 := by
    simp only [Opcode.hasForms, Opcode.hasNeg, CommandWord.formField, CommandWord.negField, CommandWord.reservedField,
      Bool.not_false, Bool.and_true, decide_eq_false_iff_not] at hres hform hneg
    exact BitVec.eq_of_toNat_eq (show cw.w0.toNat = 1 by omega)
  obtain ⟨h1, h2, h3⟩ : cw.w1 = 0 ∧ cw.w2 = 0 ∧ cw.w3 = 0 := by
    simpa [CommandWord.unusedNonZero, Opcode.uses, CommandWord.word] using hunused
  refine ⟨hlt, ?_⟩
  rw [encode, h4, h5, h6, h7]
  cases cw
  simp_all

/-- The eight words of the 256-bit number are the words it was put together from (30_encoding.md R300). -/
theorem ofBits_toBits (cw : CommandWord) : CommandWord.ofBits cw.toBits = cw := by
  simp (disch := omega) only [CommandWord.ofBits, CommandWord.toBits, BitVec.extractLsb'_append_eq_of_le,
    BitVec.extractLsb'_append_eq_of_add_le, BitVec.extractLsb'_eq_self, Nat.reduceSub, Nat.sub_self]

theorem tableWord_toBits (cw : CommandWord) : tableWord 256 cw.toBits.toNat = cw := by
  rw [tableWord, Nat.mod_eq_of_lt cw.toBits.isLt, BitVec.ofNat_toNat, BitVec.setWidth_eq, ofBits_toBits]

/-! ### The ports -/

theorem issue_ok {cw : CommandWord} {i : Instr} (h : decode cw = .ok i) (s : State) : issue cw s = exec i s := by
  simp [issue, h]

theorem step_withFetchWord (s : State) (nbits w : Nat) : step (s.withFetchWord nbits w) = issue (tableWord nbits w) s := rfl

theorem outOfBounds_eq_true_iff (a n m : Nat) : (ByteRange.mk a n).outOfBounds m = true ↔ n ≠ 0 ∧ m < a + n := by
  simp only [ByteRange.outOfBounds, decide_eq_true_eq]
  omega

theorem outOfBounds_eq_false_iff (a n m : Nat) : (ByteRange.mk a n).outOfBounds m = false ↔ n = 0 ∨ a + n ≤ m := by
  simp only [ByteRange.outOfBounds, decide_eq_false_iff_not]
  omega

theorem hostWrite_busy {s : State} (h : s.state = .busy) (a : Nat) (bs : List Byte) :
    hostWrite a bs s = .refused .hostMemWhileBusy := if_pos h

theorem hostRead_busy {s : State} (h : s.state = .busy) (a n : Nat) : hostRead a n s = .refused .hostMemWhileBusy := if_pos h

theorem hostWrite_beyond {s : State} {a : Nat} {bs : List Byte} (hs : s.state ≠ .busy) (hb : bs.length ≠ 0)
    (h : s.memBytes < a + bs.length) : hostWrite a bs s = .fault .hostOffsetBeyondMem := by
  rw [hostWrite, if_neg hs, if_pos ((outOfBounds_eq_true_iff _ _ _).2 ⟨hb, h⟩)]

theorem hostRead_beyond {s : State} {a n : Nat} (hs : s.state ≠ .busy) (hn : n ≠ 0) (h : s.memBytes < a + n) :
    hostRead a n s = .fault .hostOffsetBeyondMem := by
  rw [hostRead, if_neg hs, if_pos ((outOfBounds_eq_true_iff _ _ _).2 ⟨hn, h⟩)]

theorem hostWrite_within {s : State} {a : Nat} {bs : List Byte} (hs : s.state ≠ .busy)
    (h : bs.length = 0 ∨ a + bs.length ≤ s.memBytes) :
    hostWrite a bs s = .next { s with mem := s.mem.writeBytes a bs } := by
  simp [hostWrite, hs, (outOfBounds_eq_false_iff _ _ _).2 h]

theorem hostRead_within {s : State} {a n : Nat} (hs : s.state ≠ .busy) (h : n = 0 ∨ a + n ≤ s.memBytes) :
    hostRead a n s =
      .next { s with seen := .bytes a ((List.range n).map fun k => s.byteAt (a + k)) :: s.seen } := by
  simp [hostRead, hs, (outOfBounds_eq_false_iff _ _ _).2 h]

/-- Every byte the host wrote is listed at its offset: the later bytes go to higher offsets (10_state.md R122). -/
theorem get?_writeBytes (m : Memory) (a : Nat) (bs : List Byte) (k : Nat) (hk : k < bs.length) :
    (m.writeBytes a bs).get? (a + k) = some bs[k] := by
  induction bs generalizing m a k with
  | nil => simp at hk
  | cons b bs ih =>
    cases k with
    | zero => simp [Memory.writeBytes, (keeps_writeBytes (m.set a b) (a + 1) bs).outside a (by omega)]
    | succ k => simpa [Memory.writeBytes, Nat.add_assoc, Nat.add_comm 1] using ih (m.set a b) (a + 1) k (by simpa using hk)

/-- The fields of STATUS (10_state.md R109). -/
theorem statusRegister_fields (s : State) :
    (statusRegister s).extractLsb' 0 2 = s.state.code ∧
    (statusRegister s).extractLsb' 2 1 = BitVec.ofBool s.configured ∧
    (statusRegister s).extractLsb' 3 5 = 0 ∧
    (statusRegister s).extractLsb' 8 8 = s.err ∧
    (statusRegister s).extractLsb' 16 16 = 0 := by
  simp (disch := omega) only [statusRegister, BitVec.extractLsb'_append_eq_of_le, BitVec.extractLsb'_append_eq_of_add_le,
    BitVec.extractLsb'_eq_self, Nat.reduceSub, Nat.sub_self]
  decide

/-- A 128-bit number is its four 32-bit words joined, the most significant first. -/
theorem words_append (p : BitVec 128) :
    p.extractLsb' 96 32 ++ p.extractLsb' 64 32 ++ p.extractLsb' 32 32 ++ p.extractLsb' 0 32 = p := by
  have upper : p.extractLsb' 96 32 ++ p.extractLsb' 64 32 = p.extractLsb' 64 64 :=
    BitVec.extractLsb'_append_extractLsb'_eq_extractLsb' rfl
  have upper' : p.extractLsb' 64 64 ++ p.extractLsb' 32 32 = p.extractLsb' 32 96 :=
    BitVec.extractLsb'_append_extractLsb'_eq_extractLsb' rfl
  have all : p.extractLsb' 32 96 ++ p.extractLsb' 0 32 = p.extractLsb' 0 128 :=
    BitVec.extractLsb'_append_extractLsb'_eq_extractLsb' rfl
  rw [upper, upper', all, BitVec.extractLsb'_eq_self]

theorem readRegister_above {n : Nat} (h : 7 < n) (s : State) : readRegister s n = 0 := by
  obtain ⟨k, rfl⟩ : ∃ k, n = k + 8 := ⟨n - 8, by omega⟩
  rfl

/-! ### Every operation on the state keeps the invariant -/

theorem Fits.mono {s : State} {base n m : Nat} (h : Fits s base m) (hn : n ≤ m) : Fits s base n := by
  have := Nat.mul_le_mul_right s.elemBytes hn
  simp only [Fits] at h ⊢
  omega

/-- Writes within a range that ends below a bound list no offset at or above it. -/
theorem Machine.Keeps.below {m m' : Memory} {lo hi b : Nat} (h : Keeps m m' lo hi) (hm : ∀ c ∈ m, c.1 < b)
    (hb : hi = lo ∨ hi ≤ b) : ∀ c ∈ m', c.1 < b := by
  intro c hc
  rcases h.within c hc with hc | hc
  · exact hm c hc
  · omega

/-- A modulus that fits P has an element size that fits ES: at most 16 bytes (10_state.md R103). -/
theorem elementSize_le {q : Nat} (h : q < 2 ^ 128) : elementSize q ≤ 16 := by
  have : Nat.log2 q < 128 := by
    by_cases hq : q = 0
    · simp [hq]
    · exact (Nat.log2_lt hq).2 h
  simp only [elementSize, bitWidth]
  omega

theorem raise_inv {s : State} (h : Inv s) {e : ErrorCode} (he : e.code ∈ raisedCodes) (w : Word) : Inv (raise e w s) where
  memBytes_ge := h.memBytes_ge
  memBytes_le := h.memBytes_le
  mem_wf := h.mem_wf
  mem_below := h.mem_below
  not_busy := by simp
  field := h.field
  no_field := h.no_field
  no_error hs := absurd rfl hs
  error _ := ⟨he, rfl⟩

/-- What every success and every reset have to keep: they leave the block in IDLE with no error noted. -/
theorem inv_of_idle {s t : State} (h : Inv s) (hbytes : t.memBytes = s.memBytes) (hwf : t.mem.wf)
    (hbelow : ∀ c ∈ t.mem, c.1 < s.memBytes)
    (hfield : t.configured = true → 2 ≤ t.p.toNat ∧ t.es.toNat = elementSize t.p.toNat)
    (hno : t.configured = false → t.p = 0 ∧ t.es = 0)
    (hs : t.state = .idle) (herr : t.err = 0) (hinfo : t.errinfo = 0) : Inv t where
  memBytes_ge := hbytes ▸ h.memBytes_ge
  memBytes_le := hbytes ▸ h.memBytes_le
  mem_wf := hwf
  mem_below := hbytes ▸ hbelow
  not_busy := by simp [hs]
  field := hfield
  no_field := hno
  no_error _ := ⟨herr, hinfo⟩
  error he := by simp [hs] at he

theorem acknowledge_inv {s : State} (h : Inv s) : Inv (acknowledge s) :=
  inv_of_idle h rfl h.mem_wf h.mem_below h.field h.no_field rfl rfl rfl

theorem configure_inv {s : State} (h : Inv s) {q : Nat} (hq : 2 ≤ q) (hlt : q < 2 ^ 128) : Inv (configure q s) := by
  have hes := elementSize_le hlt
  refine inv_of_idle h rfl h.mem_wf h.mem_below (fun _ => ?_) (by simp) rfl rfl rfl
  rw [configure_p, configure_es, BitVec.toNat_ofNat, BitVec.toNat_ofNat, Nat.mod_eq_of_lt hlt, Nat.mod_eq_of_lt (by omega)]
  exact ⟨hq, rfl⟩

theorem commit_inv {s : State} (h : Inv s) {dst : Nat} {vals : List Nat} (hf : Fits s dst vals.length) :
    Inv (commit dst vals s) := by
  have hk := keeps_store s.es.toNat s.mem dst vals
  refine inv_of_idle h rfl (hk.wf h.mem_wf) (hk.below h.mem_below ?_) h.field h.no_field rfl rfl rfl
  simp only [Fits, State.elemBytes] at hf
  omega

theorem applyReset_inv {s : State} (h : Inv s) : Inv (applyReset s) :=
  inv_of_idle h rfl List.Pairwise.nil (by simp) (by simp) (fun _ => ⟨rfl, rfl⟩) rfl rfl rfl

/-- Bytes written below MEM_BYTES, and nothing else, keep the invariant. -/
theorem withMem_inv {s : State} (h : Inv s) {m : Memory} {lo hi : Nat} (hk : Keeps s.mem m lo hi)
    (hb : hi = lo ∨ hi ≤ s.memBytes) : Inv { s with mem := m } where
  memBytes_ge := h.memBytes_ge
  memBytes_le := h.memBytes_le
  mem_wf := hk.wf h.mem_wf
  mem_below := hk.below h.mem_below hb
  not_busy := h.not_busy
  field := h.field
  no_field := h.no_field
  no_error := h.no_error
  error := h.error

/-- The invariant does not speak of the model's own lists `pending` and `seen`. -/
theorem withLists_inv {s : State} (h : Inv s) (pending : List PortEvent) (seen : List PortReply) :
    Inv { s with pending := pending, seen := seen } :=
  ⟨h.memBytes_ge, h.memBytes_le, h.mem_wf, h.mem_below, h.not_busy, h.field, h.no_field, h.no_error, h.error⟩

theorem reset_inv : Inv State.reset where
  memBytes_ge := by decide
  memBytes_le := by decide
  mem_wf := List.Pairwise.nil
  mem_below := by simp [State.reset]
  not_busy := by decide
  field hc := by simp [State.reset] at hc
  no_field _ := ⟨rfl, rfl⟩
  no_error _ := ⟨rfl, rfl⟩
  error hs := by simp [State.reset] at hs

/-- A command keeps the invariant, when SETMOD's modulus is one the immediate can hold. -/
theorem exec_inv {s t : State} {i : Instr} (h : Inv s) (hi : ∀ q, i = .setmod q → q < 2 ^ 128) (ht : exec i s = .next t) :
    Inv t := by
  rcases exec_cases i s with ⟨-, he⟩ | ⟨-, -, he⟩ | ⟨-, e, he, hcode⟩ | ⟨-, -, q, hq, hle, he⟩ |
    ⟨-, hc, sh, vals, -, -, ha, he, hv⟩ <;> cases he.symm.trans ht
  · exact h
  · exact acknowledge_inv h
  · exact raise_inv h (hcode fun hc => (h.field hc).1) _
  · exact configure_inv h hle (hi q hq)
  · exact commit_inv h (Fits.mono ha.1 (hv (h.field hc).1).1)

theorem issue_inv {s t : State} {cw : CommandWord} (h : Inv s) (ht : issue cw s = .next t) : Inv t := by
  rcases issue_cases cw s with ⟨i, hd, he⟩ | ⟨-, -, -, he⟩ | ⟨-, -, -, he⟩
  · exact exec_inv h (fun q hq => (decode_setmod (hq ▸ hd)).1) (he.symm.trans ht)
  · cases he.symm.trans ht
    exact raise_inv h (by decide) _
  · cases he.symm.trans ht
    exact h

theorem perform_inv {s t : State} {e : PortEvent} (h : Inv s) (ht : perform e s = .next t) : Inv t := by
  rcases perform_cases ht with ⟨cw, -, hi⟩ | ⟨a, bs, -, -, hb, rfl⟩ | ⟨r, rfl⟩ | ⟨-, rfl⟩
  · exact issue_inv h hi
  · refine withMem_inv h (keeps_writeBytes s.mem a bs) ?_
    cases bs with
    | nil => exact .inl rfl
    | cons b bs => exact .inr (hb (by simp))
  · exact withLists_inv h s.pending (r :: s.seen)
  · exact applyReset_inv h

/-! ### What changes P, ES and CONFIGURED -/

/-- P, ES and CONFIGURED are the same in both states. -/
def SameField (s t : State) : Prop := t.p = s.p ∧ t.es = s.es ∧ t.configured = s.configured

/-- A command leaves P, ES and CONFIGURED alone, unless it is a SETMOD that configures the block (10_state.md R102 to R104). -/
theorem exec_field {s t : State} {i : Instr} (ht : exec i s = .next t) :
    SameField s t ∨
      ∃ q, i = .setmod q ∧ s.state = .idle ∧ s.configured = false ∧ 2 ≤ q ∧ t = configure q s := by
  rcases exec_cases i s with ⟨-, he⟩ | ⟨-, -, he⟩ | ⟨-, e, he, -⟩ | ⟨hs, hc, q, hq, hle, he⟩ |
    ⟨-, -, sh, vals, -, -, -, he, -⟩ <;> cases he.symm.trans ht
  · exact .inl ⟨rfl, rfl, rfl⟩
  · exact .inl ⟨rfl, rfl, rfl⟩
  · exact .inl ⟨rfl, rfl, rfl⟩
  · exact .inr ⟨q, hq, hs, hc, hle, rfl⟩
  · exact .inl ⟨rfl, rfl, rfl⟩

/-- An action leaves P, ES and CONFIGURED alone, unless it is the reset event or a SETMOD word that configures the block. -/
theorem perform_field {s t : State} {e : PortEvent} (ht : perform e s = .next t) :
    SameField s t ∨ (e = .reset ∧ t = applyReset s) ∨
      ∃ q, e = .command (encode (.setmod q)) ∧ s.state = .idle ∧ s.configured = false ∧ 2 ≤ q ∧ q < 2 ^ 128 ∧
        t = configure q s := by
  rcases perform_cases ht with ⟨cw, rfl, hi⟩ | ⟨a, bs, -, -, -, rfl⟩ | ⟨r, rfl⟩ | hreset
  · rcases issue_cases cw s with ⟨i, hd, he⟩ | ⟨-, -, -, he⟩ | ⟨-, -, -, he⟩
    · rcases exec_field (he.symm.trans hi) with hsame | ⟨q, rfl, hs, hc, hle, hcfg⟩
      · exact .inl hsame
      · obtain ⟨hlt, rfl⟩ := decode_setmod hd
        exact .inr (.inr ⟨q, rfl, hs, hc, hle, hlt, hcfg⟩)
    · cases he.symm.trans hi
      exact .inl ⟨rfl, rfl, rfl⟩
    · cases he.symm.trans hi
      exact .inl ⟨rfl, rfl, rfl⟩
  · exact .inl ⟨rfl, rfl, rfl⟩
  · exact .inl ⟨rfl, rfl, rfl⟩
  · exact .inr (.inl hreset)

/-! ### The statements -/

/-- Settles O12: a step that answers a next state performed one action, and every action keeps the invariant. -/
theorem stepKeepsInv : Obligations.StepKeepsInv := by
  intro s t h ht
  rcases step_cases ht with ⟨-, rfl⟩ | ⟨e, rest, -, hp⟩
  · exact h
  · exact perform_inv (withLists_inv h rest s.seen) hp

/-- Settles O7, from the rules of the memory port, one per outcome, and the read-back of the bytes written. -/
theorem hostMemoryPort : Obligations.HostMemoryPort := by
  intro s a n bs
  refine ⟨fun hs => ⟨hostWrite_busy hs a bs, hostRead_busy hs a n⟩, fun hs hb h => ?_, fun hs hn h => hostRead_beyond hs hn h,
    fun hs h => ?_, fun hs h => hostRead_within hs h⟩
  · exact hostWrite_beyond hs (by simpa using hb) h
  · refine ⟨_, hostWrite_within hs (by simpa using h), rfl, fun k hk => ?_, fun x hx => ?_⟩
    · simp [State.byteAt, get?_writeBytes s.mem a bs k hk]
    · exact byteAt_congr ((keeps_writeBytes s.mem a bs).outside x hx) rfl

/-- Settles O17: of the actions a step performs, only the reset event and an accepted SETMOD word write P, ES or CONFIGURED. -/
theorem fieldWrittenOnceBetweenResets : Obligations.FieldWrittenOnceBetweenResets := by
  intro s t ht
  rcases step_cases ht with ⟨-, rfl⟩ | ⟨e, rest, hpending, hp⟩
  · exact .inl ⟨rfl, rfl, rfl⟩
  · rcases perform_field hp with hsame | ⟨rfl, rfl⟩ | ⟨q, rfl, hs, hc, hle, hlt, rfl⟩
    · exact .inl hsame
    · exact .inr (.inl ⟨rest, hpending, rfl, rfl, rfl⟩)
    · refine .inr (.inr ⟨q, rest, hpending, hs, hc, hle, hlt, ?_, rfl⟩)
      rw [configure_p, BitVec.toNat_ofNat, Nat.mod_eq_of_lt hlt]

/-- Settles O6: the port's word is decoded and executed; the word of a well-formed command decodes to that command. -/
theorem stepRunsDecodedCommand : Obligations.StepRunsDecodedCommand := by
  refine ⟨fun s cw i rest hp hd => ?_, fun s i hi => ?_, fun s hp => ?_⟩
  · rw [step_cons hp]
    exact issue_ok hd _
  · rw [step_withFetchWord, tableWord_toBits]
    exact issue_ok (decode_encode hi) s
  · rw [step, hp]

/-- Settles O8: the fields of STATUS, the words of P, and the rest of the map by its definition. -/
theorem registerReadPort : Obligations.RegisterReadPort := by
  intro s n
  obtain ⟨hstate, hconf, hzero, herr, hhigh⟩ := statusRegister_fields s
  exact ⟨rfl, hstate, hconf, hzero, herr, hhigh, rfl, rfl, (BitVec.toNat_append 0#27 s.es).trans (by simp), words_append s.p,
    fun h => readRegister_above h s⟩

/-- Settles O9: the fields of `State.reset` are those of R116's table, and its memory lists no byte. -/
theorem resetState : Obligations.ResetState :=
  ⟨rfl, rfl, rfl, rfl, rfl, rfl, rfl, by decide, fun _ => rfl⟩

/-- Settles O11: nothing is configured, listed or raised after reset. -/
theorem resetMeetsInv : Obligations.ResetMeetsInv := reset_inv

end Sys2Proof

/-! PROOFS of the statements about MEM (20_memory.md): what a read gives, what a command writes, and what it reads. -/

namespace Sys2Proof

open Machine

/-! ### One access -/

/-- `MemRead` is the little-endian sum of its bytes (20_memory.md R202). -/
theorem memRead_eq_sum (s : State) (addr n : Nat) :
    s.memRead addr n = ∑ k ∈ Finset.range n, (s.byteAt (addr + k)).toNat * 2 ^ (8 * k) := by
  induction n generalizing addr with
  | zero => rfl
  | succ n ih =>
    have shifted : ∀ k, (s.byteAt (addr + (k + 1))).toNat * 2 ^ (8 * (k + 1)) =
        256 * ((s.byteAt (addr + 1 + k)).toNat * 2 ^ (8 * k)) := fun k => by
      rw [show addr + (k + 1) = addr + 1 + k by omega, Nat.mul_succ, Nat.pow_add]
      ring
    rw [State.memRead, ih, Finset.sum_range_succ', Finset.mul_sum, Finset.sum_congr rfl fun k _ => shifted k]
    simp [Nat.add_comm]

/-- Every byte `MemWrite` wrote is listed at its offset, whatever the memory listed before (20_memory.md R203). -/
theorem get?_write (m : Memory) (addr n v k : Nat) (hk : k < n) :
    (m.write addr n v).get? (addr + k) = some (BitVec.ofNat 8 (v / 2 ^ (8 * k))) := by
  induction n generalizing m addr v k with
  | zero => omega
  | succ n ih =>
    cases k with
    | zero => simp [Memory.write, (keeps_write (m.set addr _) (addr + 1) n (v / 256)).outside addr (by omega)]
    | succ k =>
      have hv : v / 256 / 2 ^ (8 * k) = v / 2 ^ (8 * (k + 1)) := by
        rw [Nat.div_div_eq_div_mul, Nat.mul_succ, Nat.pow_add, Nat.mul_comm]
      rw [Memory.write, show addr + (k + 1) = addr + 1 + k by omega, ih _ _ _ _ (by omega), hv]

/-- A byte of a stored list is fixed by the list alone, whatever the memory was before (20_memory.md R207). -/
theorem get?_store (es base : Nat) (vals : List Nat) {a : Nat} (hlo : base ≤ a) (hhi : a < base + vals.length * es) :
    ∃ b, ∀ m : Memory, (m.store es base vals).get? a = some b := by
  induction vals generalizing base with
  | nil => simp at hhi; omega
  | cons v vals ih =>
    by_cases ha : a < base + es
    · obtain ⟨k, rfl⟩ := Nat.exists_eq_add_of_le hlo
      refine ⟨BitVec.ofNat 8 (v / 2 ^ (8 * k)), fun m => ?_⟩
      rw [Memory.store, (keeps_store es _ (base + es) vals).outside _ (.inl ha), get?_write m base es v k (by omega)]
    · obtain ⟨b, hb⟩ := ih (base + es) (by omega) (by simp only [List.length_cons, Nat.succ_mul] at hhi; omega)
      exact ⟨b, fun m => hb (m.write base es v)⟩

/-! ### What a command writes -/

/-- Everything a command can do to MEM: it leaves every byte alone, and if it is a data command in IDLE it has raised; or it is an
admitted data command that stored canonical elements, no more than its destination region holds. -/
theorem exec_bytes_or_stored {s t : State} {i : Instr} (h : Inv s) (ht : exec i s = .next t) :
    ((∀ a, t.byteAt a = s.byteAt a) ∧
      ∀ sh, i.shape = some sh → s.state = .idle → t.state = .error ∧ t.rlen = 0) ∨
    ∃ sh vals, i.shape = some sh ∧ Admitted s sh.dst sh.count sh.sources ∧ vals.length ≤ sh.count ∧
      Canonical s.modulus vals ∧ Stored s t sh.dst vals := by
  rcases exec_cases i s with ⟨hs, he⟩ | ⟨rfl, -, he⟩ | ⟨-, e, he, -⟩ | ⟨-, -, q, rfl, -, he⟩ |
    ⟨hs, hc, sh, vals, hsh, -, ha, he, hv⟩ <;> cases he.symm.trans ht
  · exact .inl ⟨fun _ => rfl, fun _ _ hidle => by simp [hidle] at hs⟩
  · exact .inl ⟨fun _ => rfl, fun _ hsh => by cases hsh⟩
  · exact .inl ⟨fun _ => rfl, fun _ _ _ => ⟨rfl, rfl⟩⟩
  · exact .inl ⟨fun _ => rfl, fun _ hsh => by cases hsh⟩
  · have hready : Ready s := ⟨h, hs, hc⟩
    obtain ⟨hlen, hcanon⟩ := hv hready.modulus_ge
    exact .inr ⟨sh, vals, hsh, ha, hlen, hcanon, commit_stored hready ha.1 ha.2.1 hlen hcanon⟩

/-- What a data command writes lies in its destination region, so an admitted command leaves the regions apart from that one
alone. -/
theorem stored_byteAt_of_apart {s t : State} {dst n other m : Nat} {vals : List Nat} (hst : Stored s t dst vals)
    (hlen : vals.length ≤ n) (h : Apart s dst n other m) {a : Nat} (hlo : other ≤ a) (hhi : a < other + m * s.elemBytes) :
    t.byteAt a = s.byteAt a := by
  have hbytes := Nat.mul_le_mul_right s.elemBytes hlen
  refine hst.memory a ?_
  simp only [Apart] at h
  omega

/-- The scratch slot lies outside every admitted destination region (20_memory.md R214). -/
theorem stored_byteAt_of_scratch {s t : State} {dst n : Nat} {vals : List Nat} (hst : Stored s t dst vals)
    (hlen : vals.length ≤ n) (h : OffScratch s dst n) {a : Nat} (ha : a < 16) : t.byteAt a = s.byteAt a := by
  have hbytes := Nat.mul_le_mul_right s.elemBytes hlen
  refine hst.memory a ?_
  simp only [OffScratch] at h
  omega

/-! ### What a command reads -/

/-- The two states agree on everything an evaluation may read: P, ES, the bytes of the source regions and, for a command that has
it as an operand, the scratch slot. -/
structure SameOperands (scratchRead : Bool) (sources : List (Nat × Nat)) (s s' : State) : Prop where
  p : s'.p = s.p
  es : s'.es = s.es
  source : ∀ r ∈ sources, ∀ a, r.1 ≤ a → a < r.1 + r.2 * s.elemBytes → s'.byteAt a = s.byteAt a
  slot : scratchRead = true → ∀ a, a < 16 → s'.byteAt a = s.byteAt a

theorem mul_add_lt {i j n m : Nat} (hi : i < n) (hj : j < m) : i * m + j < n * m :=
  calc i * m + j < (i + 1) * m := by rw [Nat.succ_mul]; omega
    _ ≤ n * m := Nat.mul_le_mul_right m hi

section

variable {scratchRead : Bool} {sources : List (Nat × Nat)} {s s' : State}

theorem SameOperands.modulus (h : SameOperands scratchRead sources s s') : s'.modulus = s.modulus := by
  rw [State.modulus, h.p, State.modulus]

theorem SameOperands.elemBytes (h : SameOperands scratchRead sources s s') : s'.elemBytes = s.elemBytes := by
  rw [State.elemBytes, h.es, State.elemBytes]

theorem SameOperands.loadRaw (h : SameOperands scratchRead sources s s') {a n i : Nat} (hr : (a, n) ∈ sources) (hi : i < n) :
    loadRaw s' a i = loadRaw s a i := by
  have hbytes := Nat.mul_le_mul_right s.elemBytes (Nat.succ_le_of_lt hi)
  rw [Nat.succ_mul] at hbytes
  rw [Machine.loadRaw, h.elemBytes]
  exact memRead_congr fun x hlo hhi => h.source (a, n) hr x (by dsimp only; omega) (by dsimp only; omega)

theorem SameOperands.loadF (h : SameOperands scratchRead sources s s') {a n i : Nat} (hr : (a, n) ∈ sources) (hi : i < n) :
    loadF s' a i = loadF s a i := by
  rw [Machine.loadF, h.loadRaw hr hi, h.modulus, Machine.loadF]

theorem SameOperands.loadArray (h : SameOperands scratchRead sources s s') {a n : Nat} (hr : (a, n) ∈ sources) :
    loadArray s' a n = loadArray s a n :=
  List.map_congr_left fun _ hi => h.loadF hr (List.mem_range.1 hi)

theorem SameOperands.loadRows (h : SameOperands scratchRead sources s s') {a rows cols : Nat}
    (hr : (a, rows * cols) ∈ sources) : loadRows s' a rows cols = loadRows s a rows cols :=
  List.map_congr_left fun _ hrow => List.map_congr_left fun _ hcol =>
    h.loadF hr (mul_add_lt (List.mem_range.1 hrow) (List.mem_range.1 hcol))

theorem SameOperands.scratch (h : SameOperands true sources s s') : scratch s' = scratch s :=
  memRead_congr fun a _ ha => h.slot rfl a (by simpa [Config.scratchBase, Config.scratchBytes] using ha)

theorem SameOperands.scratchF (h : SameOperands true sources s s') : scratchF s' = scratchF s := by
  rw [Machine.scratchF, h.scratch, h.modulus, Machine.scratchF]

theorem SameOperands.lanesVV (h : SameOperands scratchRead sources s s') {a b n : Nat} (ha : (a, n) ∈ sources)
    (hb : (b, n) ∈ sources) (f : Nat → Nat → Nat → Nat) : lanesVV f a b n s' = lanesVV f a b n s :=
  congrArg Except.ok <| List.map_congr_left fun _ hi => by
    rw [h.modulus, h.loadF ha (List.mem_range.1 hi), h.loadF hb (List.mem_range.1 hi)]

theorem SameOperands.lanesVS (h : SameOperands true sources s s') {a n : Nat} (ha : (a, n) ∈ sources)
    (f : Nat → Nat → Nat → Nat) : lanesVS f a n s' = lanesVS f a n s :=
  congrArg Except.ok <| List.map_congr_left fun _ hi => by
    rw [h.modulus, h.loadF ha (List.mem_range.1 hi), h.scratchF]

end

theorem fieldSum_congr {p m : Nat} {f g : Nat → Nat} (h : ∀ k, k < m → f k = g k) : fieldSum p m f = fieldSum p m g :=
  List.foldl_ext _ _ _ fun _ k hk => by rw [h k (List.mem_range.1 hk)]

theorem require_beq_eq_none {a b : Nat} {e : ErrorCode} (h : require (a == b) e = none) : a = b := by
  simpa [require_beq] using h

/-- Every data command runs the stages with an evaluation that reads its operands only, once its own check has passed
(20_memory.md R215). The shape is the one the command is executed with, for the same regions. -/
theorem exec_reads_operands {i : Instr} {sh : Shape} (h : i.shape = some sh) :
    ∃ sh' eval, (∀ s, exec i s = runData i sh' eval s) ∧ sh'.dst = sh.dst ∧
      ∀ s s', SameOperands i.readsScratch sh.sources s s' → sh'.check = none → eval s' = eval s := by
  cases i with
  | setmod p | ack => cases h
  | fadd d a b | fsub d a b | fmul d a b | fdiv d a b =>
    cases h
    refine ⟨_, _, fun _ => rfl, rfl, fun s s' h _ => ?_⟩
    simp only [h.modulus, h.loadF (a := a) (n := 1) (by simp) Nat.one_pos, h.loadF (a := b) (n := 1) (by simp) Nat.one_pos]
  | fexp neg d a b =>
    cases h
    refine ⟨_, _, fun _ => rfl, rfl, fun s s' h _ => ?_⟩
    simp only [h.modulus, h.loadF (a := a) (n := 1) (by simp) Nat.one_pos, h.loadRaw (a := b) (n := 1) (by simp) Nat.one_pos]
  | finv d a | fneg d a =>
    cases h
    refine ⟨_, _, fun _ => rfl, rfl, fun s s' h _ => ?_⟩
    simp only [h.modulus, h.loadF (a := a) (n := 1) (by simp) Nat.one_pos]
  | vaddVV d a b n m | vsubVV d a b n m | vmulVV d a b n m | vdivVV d a b n m =>
    cases h
    refine ⟨vvShape d a b n m, _, fun _ => rfl, rfl, fun s s' h hk => ?_⟩
    obtain rfl := require_beq_eq_none hk
    exact h.lanesVV (by simp) (by simp) _
  | vexpVV d a b n m =>
    cases h
    refine ⟨vvShape d a b n m, _, fun _ => rfl, rfl, fun s s' h hk => ?_⟩
    obtain rfl := require_beq_eq_none hk
    refine congrArg collect (List.map_congr_left fun j hj => ?_)
    rw [h.modulus, h.loadF (a := a) (n := n) (by simp) (List.mem_range.1 hj),
      h.loadRaw (a := b) (n := n) (by simp) (List.mem_range.1 hj)]
  | vaddVS d a n | vsubVS d a n | vmulVS d a n | vdivVS d a n =>
    cases h
    exact ⟨_, _, fun _ => rfl, rfl, fun s s' h _ => h.lanesVS (by simp) _⟩
  | vexpVS d a n =>
    cases h
    refine ⟨_, _, fun _ => rfl, rfl, fun s s' h _ => congrArg collect (List.map_congr_left fun j hj => ?_)⟩
    rw [h.modulus, h.loadF (a := a) (n := n) (by simp) (List.mem_range.1 hj), SameOperands.scratch h]
  | vinv d a n | vneg d a n | zpoly d a n =>
    cases h
    refine ⟨_, _, fun _ => rfl, rfl, fun s s' h _ => ?_⟩
    simp only [h.modulus, h.loadArray (a := a) (n := n) (by simp)]
  | pseries d b n | pcycle d b n =>
    cases h
    refine ⟨_, _, fun _ => rfl, rfl, fun s s' h _ => ?_⟩
    simp only [h.modulus, h.loadF (a := b) (n := 1) (by simp) Nat.one_pos]
  | matmul d a b n m k q =>
    cases h
    refine ⟨_, _, fun _ => rfl, rfl, fun s s' h hk => ?_⟩
    obtain rfl := require_beq_eq_none hk
    refine congrArg Except.ok (List.flatMap_congr fun row hrow => List.map_congr_left fun col hcol => ?_)
    rw [h.modulus]
    refine fieldSum_congr fun x hx => ?_
    rw [h.loadF (a := a) (n := n * m) (by simp) (mul_add_lt (List.mem_range.1 hrow) hx),
      h.loadF (a := b) (n := m * q) (by simp) (mul_add_lt hx (List.mem_range.1 hcol))]
  | combine d a b n m =>
    cases h
    refine ⟨_, _, fun _ => rfl, rfl, fun s s' h hk => ?_⟩
    obtain rfl := require_beq_eq_none hk
    refine congrArg (fun x => Except.ok [x]) ?_
    rw [h.modulus]
    refine fieldSum_congr fun x hx => ?_
    rw [h.loadF (a := a) (n := n) (by simp) hx, h.loadF (a := b) (n := n) (by simp) hx]
  | padd d a b n m | psub d a b n m | pmul d a b n m | pdiv d a b n m | fft d a b n m | ifft d a b n m
  | lagrange d a b n m =>
    cases h
    refine ⟨_, _, fun _ => rfl, rfl, fun s s' h _ => ?_⟩
    simp only [h.modulus, h.loadArray (a := a) (n := n) (by simp), h.loadArray (a := b) (n := m) (by simp)]
  | peval d a b n =>
    cases h
    refine ⟨_, _, fun _ => rfl, rfl, fun s s' h _ => ?_⟩
    simp only [h.modulus, h.loadArray (a := a) (n := n) (by simp), h.loadF (a := b) (n := 1) (by simp) Nat.one_pos]
  | qbatch d a b n m =>
    cases h
    refine ⟨_, _, fun _ => rfl, rfl, fun s s' h _ => ?_⟩
    simp only [h.modulus, h.loadRows (a := a) (rows := n) (cols := 4) (by simp [Nat.mul_comm]),
      h.loadRows (a := b) (rows := m) (cols := 4) (by simp [Nat.mul_comm])]
  | root d n =>
    cases h
    refine ⟨_, _, fun _ => rfl, rfl, fun s s' h _ => ?_⟩
    simp only [h.modulus]

/-- From two states with the same CONFIGURED, ES and MEM_BYTES and the same evaluation, the stages of 60_exceptions.md R620 raise
the same error in both or commit the same list in both. -/
theorem dataStages_agree {i : Instr} {sh : Shape} {eval : State → Except ErrorCode (List Nat)} {s s' : State}
    (hc : s'.configured = s.configured) (hes : s'.es = s.es) (hm : s'.memBytes = s.memBytes)
    (heval : sh.check = none → eval s' = eval s) :
    (∃ e w, dataStages i sh eval s = raise e w s ∧ dataStages i sh eval s' = raise e w s') ∨
      ∃ vals, dataStages i sh eval s = commit sh.dst vals s ∧ dataStages i sh eval s' = commit sh.dst vals s' := by
  simp only [dataStages, hc, hes, hm]
  split
  · exact .inl ⟨_, _, rfl, rfl⟩
  · split
    · exact .inl ⟨_, _, rfl, rfl⟩
    · rename_i hk
      rw [heval hk]
      split
      · exact .inl ⟨_, _, rfl, rfl⟩
      · split
        · exact .inl ⟨_, _, rfl, rfl⟩
        · cases eval s with
          | error e => exact .inl ⟨e, _, rfl, rfl⟩
          | ok vals => exact .inr ⟨vals, rfl, rfl⟩

/-- The same list committed to two states with the same ES reads the same, whatever their memories were. -/
theorem loadRaw_commit_congr {s s' : State} (hes : s'.es = s.es) (dst : Nat) {vals : List Nat} {k : Nat}
    (hk : k < vals.length) : loadRaw (commit dst vals s') dst k = loadRaw (commit dst vals s) dst k := by
  have hbytes := Nat.mul_le_mul_right s.es.toNat (Nat.succ_le_of_lt hk)
  rw [Nat.succ_mul] at hbytes
  simp only [loadRaw, State.elemBytes, commit_es, hes]
  refine memRead_congr fun a hlo hhi => ?_
  obtain ⟨b, hb⟩ := get?_store s.es.toNat dst vals (a := a) (by omega) (by omega)
  simp only [State.byteAt, commit_mem, hes, hb, Option.getD_some]

/-! ### The statements -/

/-- Settles O18: a data command that stores leaves the bytes outside the stored elements alone; one that raises leaves all of MEM
alone, with RLEN 0. -/
theorem onlyDestinationWritten : Obligations.OnlyDestinationWritten := by
  intro s t i sh h hs hsh ht
  rcases exec_bytes_or_stored h ht with ⟨hbytes, herr⟩ | ⟨sh', vals, hsh', -, hlen, -, hst⟩
  · rw [(herr sh hsh hs).2]
    exact ⟨Nat.zero_le _, fun a _ => hbytes a⟩
  · cases hsh.symm.trans hsh'
    rw [hst.rlen]
    exact ⟨hlen, hst.memory⟩

/-- Settles O19: what a command stores lies in its destination region, which the overlap check keeps apart from its sources and
from the scratch slot. -/
theorem operandsAndScratchNeverWritten : Obligations.OperandsAndScratchNeverWritten := by
  intro s t i h ht
  rcases exec_bytes_or_stored h ht with ⟨hbytes, -⟩ | ⟨sh, vals, hsh, ⟨-, hoff, hsrc⟩, hlen, -, hst⟩
  · exact ⟨fun a _ => hbytes a, fun _ _ _ _ a _ _ => hbytes a, fun _ => hbytes⟩
  · refine ⟨fun a ha => stored_byteAt_of_scratch hst hlen hoff ha, fun sh' hsh' r hr a hlo hhi => ?_, fun hnone => ?_⟩
    · cases hsh.symm.trans hsh'
      exact stored_byteAt_of_apart hst hlen (hsrc r hr).2 hlo hhi
    · cases hsh.symm.trans hnone

/-- Settles O20: in IDLE after a data command, the elements at DST read as the canonical list that was stored. -/
theorem storedElementsCanonical : Obligations.StoredElementsCanonical := by
  intro s t i sh h hs hsh ht hidle k hk
  rcases exec_bytes_or_stored h ht with ⟨-, herr⟩ | ⟨sh', vals, hsh', -, -, hcanon, hst⟩
  · cases hidle.symm.trans (herr sh hsh hs).1
  · cases hsh.symm.trans hsh'
    rw [hst.rlen] at hk
    rw [hst.elements k hk]
    exact hcanon _ (List.getElem_mem hk)

/-- Settles O21: the evaluation reads the operands only, so both runs raise the same error or commit the same list. -/
theorem resultDependsOnOperandsOnly : Obligations.ResultDependsOnOperandsOnly := by
  intro s s' t t' i sh _ _ hsh hs hs' hc hp hes hm hsrc hslot ht ht'
  obtain ⟨sh', eval, hrun, hdst, hreads⟩ := exec_reads_operands hsh
  have heval := hreads s s' ⟨hp, hes, hsrc, hslot⟩
  rw [hrun, runData, accept_idle hs] at ht
  rw [hrun, runData, accept_idle (hs'.trans hs)] at ht'
  cases ht
  cases ht'
  rcases dataStages_agree hc hes hm heval with ⟨e, w, h, h'⟩ | ⟨vals, h, h'⟩ <;> rw [h, h']
  · exact ⟨rfl, rfl, rfl, rfl, fun k hk => by simp at hk⟩
  · refine ⟨rfl, rfl, rfl, rfl, fun k hk => ?_⟩
    rw [commit_rlen, BitVec.toNat_ofNat] at hk
    rw [← hdst]
    exact loadRaw_commit_congr hes sh'.dst (hk.trans_le (Nat.mod_le _ _))

/-- Settles O23: the written bytes are listed at their offsets, and a write keeps the canonical form and the other bytes. -/
theorem memWriteSetsBytes : Obligations.MemWriteSetsBytes := by
  intro s addr n v
  have hkeeps := keeps_write s.mem addr n v
  refine ⟨fun k hk => ?_, fun a ha => byteAt_congr (hkeeps.outside a ha) rfl, hkeeps.wf⟩
  simp [State.byteAt, get?_write s.mem addr n v k hk]

/-- Settles O22, by induction on the number of bytes. -/
theorem memReadIsLittleEndianSum : Obligations.MemReadIsLittleEndianSum :=
  fun s addr n => ⟨memRead_eq_sum s addr n, by rw [Nat.pow_mul]; exact memRead_lt s addr n⟩

/-- Settles O24: every operand is a little-endian read of its bytes, reduced modulo P where it is a field element. -/
theorem operandLoads : Obligations.OperandLoads :=
  fun s base i => ⟨memRead_eq_sum s _ _, rfl, (memRead_eq_sum s 0 16).trans (by simp only [Nat.zero_add]), rfl⟩

end Sys2Proof

/-! PROOFS of the statements about the encoding (30_encoding.md): the opcode map, the two directions of the round trip, the rows of
the opcode table, and the causes that make a word illegal. -/

namespace Sys2Proof

open Machine

/-! ### The opcode map -/

theorem code_lt (op : Opcode) : op.code < 256 := by cases op <;> decide

theorem ofCode_code (op : Opcode) : Opcode.ofCode op.code = some op := by cases op <;> rfl

theorem ofCode_eq_some_iff {n : Nat} {op : Opcode} : Opcode.ofCode n = some op ↔ op.code = n :=
  ⟨code_of_ofCode, fun h => h ▸ ofCode_code op⟩

theorem ofCode_eq_none_iff {n : Nat} : Opcode.ofCode n = none ↔ ∀ op : Opcode, op.code ≠ n := by
  simp only [Option.eq_none_iff_forall_ne_some, ne_eq, ofCode_eq_some_iff]

theorem code_injective : Function.Injective Opcode.code := fun op op' h =>
  Option.some.inj ((ofCode_code op).symm.trans (h ▸ ofCode_code op'))

/-- FORM applies to the opcodes 0x20 to 0x24 (30_encoding.md R301). -/
theorem hasForms_iff (op : Opcode) : op.hasForms = true ↔ 0x20 ≤ op.code ∧ op.code ≤ 0x24 := by
  cases op <;> decide

/-- NEG applies to the opcode 0x14 (30_encoding.md R301). -/
theorem hasNeg_iff (op : Opcode) : op.hasNeg = true ↔ op.code = 0x14 := by
  cases op <;> decide

/-! ### The words an opcode accepts -/

/-- W0 with the given OPCODE, FORM and NEG and no reserved bit (30_encoding.md R301). -/
def Opcode.head (op : Opcode) (form neg : Bool) : Word := BitVec.ofNat 32 (op.code + 256 * form.toNat + 512 * neg.toNat)

/-- W0 is the head of an opcode, FORM and NEG exactly when these are its fields and it has no reserved bit. -/
theorem w0_eq_head_iff {cw : CommandWord} {op : Opcode} {form neg : Bool} :
    cw.w0 = op.head form neg ↔
      op.code = cw.opcodeField ∧ cw.reservedField = 0 ∧ cw.formField = form ∧ cw.negField = neg := by
  have hcode := code_lt op
  rw [← BitVec.toNat_inj, Opcode.head, BitVec.toNat_ofNat, CommandWord.opcodeField, CommandWord.reservedField,
    CommandWord.formField, CommandWord.negField]
  cases form <;> cases neg <;>
    simp only [decide_eq_true_eq, decide_eq_false_iff_not, Bool.toNat_true, Bool.toNat_false] <;> omega

theorem unusedNonZero_eq_false_iff {cw : CommandWord} {op : Opcode} {form : Bool} :
    cw.unusedNonZero op form = false ↔ ∀ k ∈ [1, 2, 3, 4, 5, 6, 7], k ∉ op.uses form → cw.word k = 0 := by
  simp only [CommandWord.unusedNonZero, List.any_eq_false, Bool.and_eq_true, Bool.not_eq_true', List.contains_eq_mem,
    decide_eq_false_iff_not, bne_iff_ne, not_and, not_not]

/-- The words that are legal for an opcode, FORM and NEG: the two bits are 1 only where they apply, W0 holds nothing else, and
every word the command does not use is 0 (30_encoding.md R301, R304). -/
structure Opcode.Accepts (op : Opcode) (form neg : Bool) (cw : CommandWord) : Prop where
  form_applies : form = true → op.hasForms = true
  neg_applies : neg = true → op.hasNeg = true
  w0 : cw.w0 = op.head form neg
  unused : ∀ k ∈ [1, 2, 3, 4, 5, 6, 7], k ∉ op.uses form → cw.word k = 0

/-- A word decodes exactly to the command that the opcode, FORM and NEG accepting it assemble. -/
theorem decode_ok_iff_accepts {cw : CommandWord} {i : Instr} :
    decode cw = .ok i ↔
      ∃ (op : Opcode) (form neg : Bool), op.Accepts form neg cw ∧ op.assemble cw form neg = i := by
  simp only [decode_ok_iff, ofCode_eq_some_iff]
  constructor
  · rintro ⟨op, hcode, hres, hform, hneg, hunused, has⟩
    exact ⟨op, _, _, ⟨by simpa using hform, by simpa using hneg, w0_eq_head_iff.2 ⟨hcode, hres, rfl, rfl⟩,
      unusedNonZero_eq_false_iff.1 hunused⟩, has⟩
  · rintro ⟨op, form, neg, ⟨hform, hneg, hw0, hunused⟩, has⟩
    obtain ⟨hcode, hres, rfl, rfl⟩ := w0_eq_head_iff.1 hw0
    exact ⟨op, hcode, hres, by simpa using hform, by simpa using hneg, unusedNonZero_eq_false_iff.2 hunused, has⟩

/-! ### A word that decodes is the encoding of its command -/

@[simp] theorem wordOf_toNat (w : Word) : wordOf w.toNat = w := by simp [wordOf]

@[simp] theorem offsetFits_toNat (w : Word) : offsetFits w.toNat = true := decide_eq_true w.isLt

@[simp] theorem countFits_toNat (w : Word) : countFits w.toNat = true := decide_eq_true w.isLt

/-- Every operand the decoder reads fits its field (30_encoding.md R302, R303). -/
theorem assemble_wellFormed (cw : CommandWord) (op : Opcode) (form neg : Bool) : (op.assemble cw form neg).WellFormed := by
  cases op with
  | setmod => exact decide_eq_true (wordOf_limbs cw.w4 cw.w5 cw.w6 cw.w7).1
  | vadd | vsub | vmul | vdiv | vexp => cases form <;> simp [Opcode.assemble, Instr.WellFormed, Instr.wf]
  | _ => simp [Opcode.assemble, Instr.WellFormed, Instr.wf]

/-- The encoder puts back the W0, the operands and the zeros of an accepted word (30_encoding.md R304). -/
theorem encode_assemble {cw : CommandWord} {op : Opcode} {form neg : Bool} (h : op.Accepts form neg cw) :
    encode (op.assemble cw form neg) = cw := by
  obtain ⟨hform, hneg, hw0, hunused⟩ := h
  obtain ⟨w0, w1, w2, w3, w4, w5, w6, w7⟩ := cw
  obtain rfl : w0 = op.head form neg := hw0
  cases op with
  | setmod =>
    obtain ⟨-, h4, h5, h6, h7⟩ := wordOf_limbs w4 w5 w6 w7
    obtain rfl : form = false := by simpa [Opcode.hasForms] using hform
    obtain rfl : neg = false := by simpa [Opcode.hasNeg] using hneg
    simp [Opcode.uses, CommandWord.word] at hunused
    rw [Opcode.assemble, encode, h4, h5, h6, h7]
    simp [hunused, Opcode.head, Opcode.code]
  | fexp =>
    obtain rfl : form = false := by simpa [Opcode.hasForms] using hform
    simp [Opcode.uses, CommandWord.word] at hunused
    cases neg <;> simp [Opcode.assemble, encode, hunused, Opcode.head, Opcode.code]
  | vadd | vsub | vmul | vdiv | vexp =>
    obtain rfl : neg = false := by simpa [Opcode.hasNeg] using hneg
    cases form <;> simp [Opcode.uses, CommandWord.word] at hunused <;>
      simp [Opcode.assemble, encode, hunused, Opcode.head, Opcode.code]
  | _ =>
    obtain rfl : form = false := by simpa [Opcode.hasForms] using hform
    obtain rfl : neg = false := by simpa [Opcode.hasNeg] using hneg
    simp [Opcode.uses, CommandWord.word] at hunused
    simp [Opcode.assemble, encode, hunused, Opcode.head, Opcode.code]

/-! ### The rows of the opcode table -/

/-- The row of spec/opcode_table.json for an opcode and a FORM that applies to it: NEG is free in W0 where it applies, and the
words the command does not use must be zero (30_encoding.md R305). -/
def Opcode.row (op : Opcode) (form : Bool) : OpcodeRow where
  mnemonic := (op.assemble ⟨0, 0, 0, 0, 0, 0, 0, 0⟩ form false).mnemonic
  w0Match := op.head form false
  w0Mask := if op.hasNeg then ~~~BitVec.twoPow 32 9 else BitVec.allOnes 32
  mustBeZero := [1, 2, 3, 4, 5, 6, 7].filter (· ∉ op.uses form)

theorem mnemonic_row (op : Opcode) (form neg : Bool) (cw : CommandWord) :
    (op.row form).mnemonic = (op.assemble cw form neg).mnemonic := by
  cases op with
  | vadd | vsub | vmul | vdiv | vexp => cases form <;> simp only [Opcode.row, Opcode.assemble, Instr.mnemonic]
  | _ => simp only [Opcode.row, Opcode.assemble, Instr.mnemonic]

/-- The table lists the rows of all opcodes, FORM = 0 before FORM = 1. -/
theorem opcodeRows_eq :
    opcodeRows = Opcode.all.flatMap fun op => op.row false :: if op.hasForms then [op.row true] else [] := rfl

theorem mem_opcodeRows {r : OpcodeRow} :
    r ∈ opcodeRows ↔ ∃ (op : Opcode) (form : Bool), (form = true → op.hasForms = true) ∧ r = op.row form := by
  have hall (op : Opcode) : op ∈ Opcode.all := by cases op <;> decide
  rw [opcodeRows_eq, List.mem_flatMap]
  refine exists_congr fun op => ?_
  cases h : op.hasForms <;> simp [hall]

/-- Clearing a bit of a word leaves `v`, in which that bit is clear, exactly when the word is `v` or `v` with the bit set. -/
theorem and_not_twoPow_eq_iff {x v : Word} {i : Nat} (hv : v.getLsbD i = false) :
    x &&& ~~~BitVec.twoPow 32 i = v ↔ x = v ∨ x = v ||| BitVec.twoPow 32 i := by
  have hparts (y : Word) : y = (y &&& ~~~BitVec.twoPow 32 i) ||| (y &&& BitVec.twoPow 32 i) := by
    rw [← BitVec.and_or_distrib_left, BitVec.or_comm, BitVec.or_not_self, BitVec.and_allOnes]
  constructor
  · rintro rfl
    have hx := hparts x
    rw [BitVec.and_twoPow] at hx
    split at hx
    · exact .inr hx
    · exact .inl (by simpa using hx)
  · have hkeep : v &&& ~~~BitVec.twoPow 32 i = v := by
      have h := hparts v
      rw [BitVec.and_twoPow, hv] at h
      simpa using h.symm
    rintro (rfl | rfl)
    · exact hkeep
    · rw [BitVec.and_or_distrib_right, hkeep, BitVec.and_not_self]
      exact BitVec.or_zero

/-- The row's test of W0 leaves OPCODE and FORM fixed, no reserved bit, and NEG free where it applies. -/
theorem w0_passes_row_iff {op : Opcode} {form : Bool} {w : Word} :
    w &&& (op.row form).w0Mask = op.head form false ↔ ∃ neg, (neg = true → op.hasNeg = true) ∧ w = op.head form neg := by
  rw [Bool.exists_bool, Opcode.row]
  cases hneg : op.hasNeg with
  | false => simp [-BitVec.reduceAllOnes]
  | true =>
    obtain rfl : op = .fexp := code_injective ((hasNeg_iff op).1 hneg)
    have hclear : (Opcode.fexp.head form false).getLsbD 9 = false := by cases form <;> decide
    have hset : Opcode.fexp.head form true = Opcode.fexp.head form false ||| BitVec.twoPow 32 9 := by
      cases form <;> decide
    simp [and_not_twoPow_eq_iff hclear, hset]

/-- A row admits exactly the words that its opcode accepts with its FORM and some NEG. -/
theorem admits_row_iff {op : Opcode} {form : Bool} {cw : CommandWord} (hform : form = true → op.hasForms = true) :
    (op.row form).admits cw = true ↔ ∃ neg, op.Accepts form neg cw := by
  have hzero : (∀ k ∈ (op.row form).mustBeZero, cw.word k = 0) ↔
      ∀ k ∈ [1, 2, 3, 4, 5, 6, 7], k ∉ op.uses form → cw.word k = 0 := by
    simp only [Opcode.row, List.mem_filter, decide_eq_true_eq, and_imp]
  rw [OpcodeRow.admits, Bool.and_eq_true, beq_iff_eq, List.all_eq_true]
  simp only [beq_iff_eq]
  rw [hzero]
  constructor
  · rintro ⟨hw0, hunused⟩
    obtain ⟨neg, hneg, hw0⟩ := w0_passes_row_iff.1 hw0
    exact ⟨neg, hform, hneg, hw0, hunused⟩
  · rintro ⟨neg, -, hneg, hw0, hunused⟩
    exact ⟨w0_passes_row_iff.2 ⟨neg, hneg, hw0⟩, hunused⟩

/-- The rows a word passes are the rows of the opcodes and FORMs that accept it. -/
theorem mem_opcodeRows_admits_iff {r : OpcodeRow} {cw : CommandWord} :
    r ∈ opcodeRows ∧ r.admits cw = true ↔
      ∃ (op : Opcode) (form neg : Bool), op.Accepts form neg cw ∧ r = op.row form := by
  rw [mem_opcodeRows]
  constructor
  · rintro ⟨⟨op, form, hform, rfl⟩, hadmits⟩
    obtain ⟨neg, h⟩ := (admits_row_iff hform).1 hadmits
    exact ⟨op, form, neg, h, rfl⟩
  · rintro ⟨op, form, neg, h, rfl⟩
    exact ⟨⟨op, form, h.form_applies, rfl⟩, (admits_row_iff h.form_applies).2 ⟨neg, h⟩⟩

/-- No word is accepted by two opcodes or with two FORMs. -/
theorem Opcode.Accepts.unique {op op' : Opcode} {form form' neg neg' : Bool} {cw : CommandWord}
    (h : op.Accepts form neg cw) (h' : op'.Accepts form' neg' cw) : op = op' ∧ form = form' := by
  obtain ⟨hcode, -, hform, -⟩ := w0_eq_head_iff.1 h.w0
  obtain ⟨hcode', -, hform', -⟩ := w0_eq_head_iff.1 h'.w0
  exact ⟨code_injective (hcode.trans hcode'.symm), hform.symm.trans hform'⟩

/-! ### The causes that make a word illegal -/

/-! The causes (c) to (e), for a word whose opcode is known, are the tests the decoder makes. -/

theorem formBit_iff {cw : CommandWord} {op : Opcode} (hop : op.code = cw.opcodeField) :
    IllegalCause cw .formBit ↔ (cw.formField && !op.hasForms) = true := by
  rw [IllegalCause, ← hop, ← hasForms_iff, Bool.and_eq_true, Bool.not_eq_true', Bool.not_eq_true]

theorem negBit_iff {cw : CommandWord} {op : Opcode} (hop : op.code = cw.opcodeField) :
    IllegalCause cw .negBit ↔ (cw.negField && !op.hasNeg) = true := by
  rw [IllegalCause, ← hop, ne_eq, ← hasNeg_iff, Bool.and_eq_true, Bool.not_eq_true', Bool.not_eq_true]

theorem unusedWord_iff {cw : CommandWord} {op : Opcode} (hop : op.code = cw.opcodeField) :
    IllegalCause cw .unusedWord ↔ cw.unusedNonZero op cw.formField = true := by
  rw [← Bool.not_eq_false, unusedNonZero_eq_false_iff]
  constructor
  · rintro ⟨op', hop', k, hlo, hhi, hk, hne⟩ hzero
    obtain rfl := code_injective (hop'.trans hop.symm)
    exact hne (hzero k (by simp; omega) hk)
  · intro h
    push Not at h
    obtain ⟨k, hmem, hk, hne⟩ := h
    simp only [List.mem_cons, List.not_mem_nil, or_false] at hmem
    exact ⟨op, hop, k, by omega, by omega, hk, hne⟩

/-- The first cause in the order (a) to (e) that holds of the word. -/
def FirstCause (cw : CommandWord) (c : Illegal) : Prop :=
  IllegalCause cw c ∧ ∀ c' : Illegal, c'.rank < c.rank → ¬IllegalCause cw c'

theorem FirstCause.unique {cw : CommandWord} {c c' : Illegal} (h : FirstCause cw c) (h' : FirstCause cw c') : c = c' := by
  have hle : c'.rank ≤ c.rank := not_lt.1 fun hlt => h'.2 c hlt h.1
  have hge : c.rank ≤ c'.rank := not_lt.1 fun hlt => h.2 c' hlt h'.1
  have hinj : ∀ a b : Illegal, a.rank = b.rank → a = b := by
    intro a b; cases a <;> cases b <;> simp [Illegal.rank]
  exact hinj c c' (le_antisymm hge hle)

theorem forall_illegal {P : Illegal → Prop} :
    (∀ c, P c) ↔ P .unknownOpcode ∧ P .reservedBits ∧ P .formBit ∧ P .negBit ∧ P .unusedWord :=
  ⟨fun h => ⟨h _, h _, h _, h _, h _⟩, fun ⟨ha, hb, hc, hd, he⟩ c => by cases c <;> assumption⟩

/-- The decoder takes the checks in the order (a) to (e): it decodes a word of which no cause holds, and otherwise names the first
that holds. -/
theorem decode_cases (cw : CommandWord) :
    (∃ i, decode cw = .ok i ∧ ¬IllegalWord cw) ∨ ∃ c, decode cw = .error c ∧ FirstCause cw c := by
  unfold decode
  cases hop : Opcode.ofCode cw.opcodeField with
  | none => exact .inr ⟨_, rfl, ofCode_eq_none_iff.1 hop, fun c' hlt => absurd hlt (Nat.not_lt_zero _)⟩
  | some op =>
    rw [ofCode_eq_some_iff] at hop
    have ha : ¬IllegalCause cw .unknownOpcode := fun hno => hno op hop
    have hb : IllegalCause cw .reservedBits ↔ cw.reservedField ≠ 0 := .rfl
    have hc := formBit_iff hop
    have hd := negBit_iff hop
    have he := unusedWord_iff hop
    dsimp only
    split_ifs with hres hform hneg hunused
    · exact .inr ⟨_, rfl, by simp [FirstCause, forall_illegal, Illegal.rank, ha, hb, hres]⟩
    · exact .inr ⟨_, rfl, by simp [FirstCause, forall_illegal, Illegal.rank, ha, hb, hc, hres, hform]⟩
    · exact .inr ⟨_, rfl, by simp [FirstCause, forall_illegal, Illegal.rank, ha, hb, hc, hd, hres, hform, hneg]⟩
    · exact .inr ⟨_, rfl, by simp [FirstCause, forall_illegal, Illegal.rank, ha, hb, hc, hd, he, hres, hform, hneg, hunused]⟩
    · exact .inl ⟨_, rfl, by simp [IllegalWord, forall_illegal, ha, hb, hc, hd, he, hres, hform, hneg, hunused]⟩

/-- The decoder names a cause exactly when it is the first that holds. -/
theorem decode_error_iff {cw : CommandWord} {c : Illegal} : decode cw = .error c ↔ FirstCause cw c := by
  rcases decode_cases cw with ⟨i, hd, hlegal⟩ | ⟨c', hd, hfirst⟩
  · exact ⟨fun h => by simp [hd] at h, fun h => absurd ⟨c, h.1⟩ hlegal⟩
  · rw [hd, Except.error.injEq]
    exact ⟨fun h => h ▸ hfirst, hfirst.unique⟩

/-- A word no cause holds of decodes. -/
theorem decode_of_legal {cw : CommandWord} (h : ¬IllegalWord cw) : ∃ i, decode cw = .ok i := by
  rcases decode_cases cw with ⟨i, hd, -⟩ | ⟨c, -, hfirst⟩
  · exact ⟨i, hd⟩
  · exact absurd ⟨c, hfirst.1⟩ h

/-- A word some cause holds of does not decode. -/
theorem decode_of_illegal {cw : CommandWord} (h : IllegalWord cw) : ∃ c, decode cw = .error c := by
  rcases decode_cases cw with ⟨-, -, hlegal⟩ | ⟨c, hd, -⟩
  · exact absurd h hlegal
  · exact ⟨c, hd⟩

/-- An illegal word in IDLE takes error entry with its own W0 (60_exceptions.md R620 stage 2). -/
theorem issue_error {cw : CommandWord} {c : Illegal} {s : State} (h : decode cw = .error c) (hs : s.state = .idle) :
    issue cw s = .next (raise .illegalCommand cw.w0 s) := by
  simp [issue, h, accept_idle hs]

/-! ### The statements -/

/-- Settles O1: W0 names the command, and every operand is read back from its word. -/
theorem decodeOfEncode : Obligations.DecodeOfEncode := fun _ => decode_encode

/-- Settles O2: what an opcode assembles from a word it accepts is encoded by that word. -/
theorem encodeOfDecode : Obligations.EncodeOfDecode := by
  intro cw i hd
  obtain ⟨op, form, neg, h, rfl⟩ := decode_ok_iff_accepts.1 hd
  exact ⟨assemble_wellFormed cw op form neg, encode_assemble h⟩

/-- Settles O3: both the decoder and the table accept a word by an opcode and FORM, and no word is accepted by two. -/
theorem decoderFollowsOpcodeTable : Obligations.DecoderFollowsOpcodeTable := by
  intro cw
  simp only [decode_ok_iff_accepts, mem_opcodeRows_admits_iff]
  refine ⟨?_, fun i r hd hr ha => ?_, fun r q hr hq har haq => ?_⟩
  · constructor <;> exact fun ⟨_, op, form, neg, h, _⟩ => ⟨_, op, form, neg, h, rfl⟩
  · obtain ⟨op, form, neg, h, rfl⟩ := hd
    obtain ⟨op', form', neg', h', rfl⟩ := mem_opcodeRows_admits_iff.1 ⟨hr, ha⟩
    obtain ⟨rfl, rfl⟩ := h.unique h'
    exact mnemonic_row op form neg cw
  · obtain ⟨op, form, neg, h, rfl⟩ := mem_opcodeRows_admits_iff.1 ⟨hr, har⟩
    obtain ⟨op', form', neg', h', rfl⟩ := mem_opcodeRows_admits_iff.1 ⟨hq, haq⟩
    obtain ⟨rfl, rfl⟩ := h.unique h'
    rfl

/-- Settles O4: the decoder's checks are the causes (a) to (e), made in that order; OPCODE 0 is not one of the 31. -/
theorem illegalWordRaises : Obligations.IllegalWordRaises := by
  refine ⟨fun s cw hs => ⟨fun h => ?_, fun h => ?_⟩, fun cw c => decode_error_iff, .unknownOpcode, ?_⟩
  · obtain ⟨c, hd⟩ := decode_of_illegal h
    exact issue_error hd hs
  · obtain ⟨i, hd⟩ := decode_of_legal h
    exact ⟨i, hd, issue_ok hd s⟩
  · exact ofCode_eq_none_iff.1 rfl

/-- Settles O5, by running the decoder on the ten words. -/
theorem sampleWordsDecode : Obligations.SampleWordsDecode := by
  refine ⟨?_, ?_, ?_, ?_, ?_, ?_, ?_, ?_, ?_, ?_⟩ <;> decide

end Sys2Proof

/-! PROOFS of the statements about the wide integers (40_wide_integer.md) and the field inverse built on them. -/

namespace Sys2Proof

open Machine

/-! ### Addition and subtraction with carry and borrow -/

/-- The carry is worth 2^128: the wrapped sum loses nothing else. -/
theorem add128_exact (a b : Nat) : a + b = (add128 a b).2 * 2 ^ 128 + (add128 a b).1 :=
  (Nat.div_add_mod' (a + b) (2 ^ 128)).symm

theorem add128_carry_le_one {a b : Nat} (ha : a < 2 ^ 128) (hb : b < 2 ^ 128) : (add128 a b).2 ≤ 1 := by
  simp only [add128]; omega

/-- The wrapped difference is the residue of the signed one. -/
theorem sub128_diff_eq_residue {b : Nat} (a : Nat) (hb : b < 2 ^ 128) :
    (sub128 a b).1 = residue (2 ^ 128) ((a : Int) - b) := by
  simp only [sub128, residue]; omega

/-- The borrow is worth 2^128: the wrapped difference loses nothing else. -/
theorem sub128_exact {a b : Nat} (ha : a < 2 ^ 128) (hb : b < 2 ^ 128) :
    (a : Int) - b = (sub128 a b).1 - (sub128 a b).2 * 2 ^ 128 := by
  simp only [sub128]
  split <;> omega

/-! ### The extended Euclidean algorithm -/

section Euclid

variable {m a : Int}

/-- One division step keeps the congruence that ties an accumulator to its remainder. -/
theorem euclid_step_modEq {r0 r1 : Nat} {t0 t1 : Int} (h0 : a * t0 ≡ r0 [ZMOD m]) (h1 : a * t1 ≡ r1 [ZMOD m]) :
    a * (t0 - ((r0 / r1 : Nat) : Int) * t1) ≡ (r0 % r1 : Nat) [ZMOD m] := by
  have hr : ((r0 % r1 : Nat) : Int) = r0 - ((r0 / r1 : Nat) : Int) * r1 := by
    push_cast
    rw [Int.emod_def, mul_comm]
  have ht : a * (t0 - ((r0 / r1 : Nat) : Int) * t1) = a * t0 - ((r0 / r1 : Nat) : Int) * (a * t1) := by ring
  rw [hr, ht]
  exact h0.sub (h1.mul_left _)

/-- The accumulator of the last remainder is a multiplier of `a` that gives it modulo `m` (40_wide_integer.md R405). -/
theorem mul_euclid_modEq (fuel : Nat) {r0 r1 : Nat} {t0 t1 : Int}
    (h0 : a * t0 ≡ r0 [ZMOD m]) (h1 : a * t1 ≡ r1 [ZMOD m]) :
    a * (euclid fuel r0 r1 t0 t1).2 ≡ (euclid fuel r0 r1 t0 t1).1 [ZMOD m] := by
  induction fuel generalizing r0 r1 t0 t1 with
  | zero => exact h0
  | succ fuel ih =>
    rw [euclid]
    split
    · exact h0
    · exact ih h1 (euclid_step_modEq h0 h1)

end Euclid

/-- With enough steps the last non-zero remainder is the greatest common divisor (40_wide_integer.md R405). -/
theorem euclid_fst_eq_gcd {fuel r0 r1 : Nat} (hfuel : r1 < fuel) (t0 t1 : Int) :
    (euclid fuel r0 r1 t0 t1).1 = Nat.gcd r0 r1 := by
  induction fuel generalizing r0 r1 t0 t1 with
  | zero => omega
  | succ fuel ih =>
    rw [euclid]
    split
    next h => rw [h, Nat.gcd_zero_right]
    next h =>
      have hlt : r0 % r1 < r1 := Nat.mod_lt _ (by omega)
      rw [ih (by omega), Nat.gcd_comm r1, ← Nat.gcd_rec, Nat.gcd_comm]

/-! ### The field inverse -/

section Inverse

variable {p a : Nat}

theorem euclid_fst_of_coprime (h : Nat.Coprime a p) : (euclid (a + 1) p a 0 1).1 = 1 :=
  (euclid_fst_eq_gcd (Nat.lt_succ_self a) 0 1).trans h.symm

/-- Where the inverse exists, it is the accumulator of the Euclidean algorithm reduced to [0, p). -/
theorem fieldInv_of_coprime (hp : 2 ≤ p) (h : Nat.Coprime a p) :
    (fieldInv p a : Int) = (euclid (a + 1) p a 0 1).2 % p := by
  have ha : a ≠ 0 := by
    rintro rfl
    rw [Nat.coprime_zero_left] at h
    omega
  have hnonneg := Int.emod_nonneg (euclid (a + 1) p a 0 1).2 (by omega : (p : Int) ≠ 0)
  simp [fieldInv, modinv128, ha, euclid_fst_of_coprime h, hnonneg]

/-- The inverse of an element coprime to the modulus is an inverse (41_field_ops.md R413). -/
theorem mul_fieldInv (hp : 2 ≤ p) (h : Nat.Coprime a p) : a * fieldInv p a % p = 1 := by
  have hmod : (a : Int) * fieldInv p a ≡ 1 [ZMOD p] := calc
    (a : Int) * fieldInv p a
        ≡ a * (euclid (a + 1) p a 0 1).2 [ZMOD p] := by
          rw [fieldInv_of_coprime hp h]
          exact (Int.mod_modEq _ _).mul_left _
      _ ≡ ((euclid (a + 1) p a 0 1).1 : Nat) [ZMOD p] := mul_euclid_modEq _ (by simp [Int.ModEq]) (by simp)
      _ = 1 := by rw [euclid_fst_of_coprime h, Nat.cast_one]
  have hnat : a * fieldInv p a ≡ 1 [MOD p] := Int.natCast_modEq_iff.1 (by exact_mod_cast hmod)
  exact Nat.mod_eq_of_modEq hnat hp

/-- The inverse is unique in [0, p). -/
theorem eq_fieldInv_of_mul_mod_eq_one {y : Nat} (hp : 2 ≤ p) (hy : y < p) (h : a * y % p = 1) : y = fieldInv p a := by
  have hone : a * y ≡ 1 [MOD p] := h.trans (Nat.mod_eq_of_lt hp).symm
  have hco : Nat.Coprime a p := Nat.coprime_of_mul_modEq_one y hone
  have hmod : a * y ≡ a * fieldInv p a [MOD p] := h.trans (mul_fieldInv hp hco).symm
  exact (hmod.cancel_left_of_coprime hco.symm).eq_of_lt_of_lt hy (fieldInv_lt (by omega) a)

/-- A canonical element that has an inverse is the inverse of its inverse. -/
theorem fieldInv_fieldInv_of_coprime (hp : 2 ≤ p) (ha : a < p) (h : Nat.Coprime a p) : fieldInv p (fieldInv p a) = a :=
  (eq_fieldInv_of_mul_mod_eq_one hp ha (by rw [Nat.mul_comm, mul_fieldInv hp h])).symm

end Inverse

/-! ### The statements -/

/-- Settles O25: the sum and the carry are the remainder and the quotient by 2^128, and the borrow is the wrap of the difference. -/
theorem wideAddSubExact : Obligations.WideAddSubExact := fun a b ha hb =>
  ⟨⟨rfl, rfl, add128_carry_le_one ha hb, add128_exact a b⟩, sub128_diff_eq_residue a hb, rfl, sub128_exact ha hb⟩

/-- Settles O26: the Euclidean algorithm ends with gcd(a, p) and a multiplier of a that gives it, and inverses are unique. -/
theorem inverseIsTheInverse : Obligations.InverseIsTheInverse := by
  intro p a hp ha
  refine ⟨fieldInv_lt (by omega) a, fun h => by rw [h, fieldInv_zero], fun h => ?_, fun hprime h0 => ?_, fun hprime => ?_⟩
  · exact ⟨mul_fieldInv hp h, fun y hy => eq_fieldInv_of_mul_mod_eq_one hp hy⟩
  · exact mul_fieldInv hp (Nat.coprime_of_lt_prime h0 ha hprime).symm
  · rcases eq_or_ne a 0 with rfl | h0
    · rw [fieldInv_zero, fieldInv_zero]
    · exact fieldInv_fieldInv_of_coprime hp ha (Nat.coprime_of_lt_prime h0 ha hprime).symm

end Sys2Proof

/-! PROOFS of the statements about the field functions and the scalar commands (41_field_ops.md). -/

namespace Sys2Proof

open Machine

/-! ### Residues of signed numbers -/

/-- The residue is the one number below `p` that is congruent to `z`. -/
theorem residue_eq_of_modEq {p r : Nat} {z : Int} (hr : r < p) (h : z ≡ r [ZMOD p]) : residue p z = r := by
  rw [residue, h.eq, ← Int.natCast_mod, Nat.mod_eq_of_lt hr, Int.toNat_natCast]

/-- `sub` is the residue of the difference, for a subtrahend of any size (41_field_ops.md R411). -/
theorem fieldSub_eq_residue {p : Nat} (hp : 0 < p) (x y : Nat) : fieldSub p x y = residue p ((x : Int) - y) := by
  refine (residue_eq_of_modEq (fieldSub_lt hp x y) ?_).symm
  have hle : y % p ≤ p := (Nat.mod_lt y hp).le
  rw [fieldSub, mod128, Int.natCast_mod, Nat.cast_add, Nat.cast_sub hle, Int.natCast_mod]
  calc (x : Int) - y
      ≡ x - y % p [ZMOD p] := (Int.ModEq.refl _).sub (Int.mod_modEq _ _).symm
    _ ≡ x + (p - y % p) [ZMOD p] := Int.modEq_iff_dvd.2 ⟨1, by ring⟩
    _ ≡ (x + (p - y % p)) % p [ZMOD p] := (Int.mod_modEq _ _).symm

/-- `neg` is the residue of the negation (41_field_ops.md R415): it subtracts from 0. -/
theorem fieldNeg_eq_residue {p : Nat} (hp : 0 < p) (x : Nat) : fieldNeg p x = residue p (-(x : Int)) := by
  have hsub : fieldNeg p x = fieldSub p 0 x := by rw [fieldNeg, fieldSub, Nat.zero_add]
  rw [hsub, fieldSub_eq_residue hp, Nat.cast_zero, zero_sub]

/-! ### The source's recipes for `add` and `sub` -/

/-- One conditional subtraction reduces the sum, because x + y < 2p (41_field_ops.md R410). -/
theorem addRecipe_eq {p x y : Nat} (hp : p < 2 ^ 128) (hx : x < p) (hy : y < p) : addRecipe p x y = (x + y) % p := by
  have hcond : ((add128 x y).2 = 1 ∨ p ≤ (add128 x y).1) ↔ p ≤ x + y := by simp only [add128]; omega
  rcases Nat.lt_or_ge (x + y) p with h | h
  · calc addRecipe p x y
        = (add128 x y).1 := if_neg fun hc => absurd (hcond.1 hc) (Nat.not_le.2 h)
      _ = x + y := Nat.mod_eq_of_lt (h.trans hp)
      _ = (x + y) % p := (Nat.mod_eq_of_lt h).symm
  · calc addRecipe p x y
        = (sub128 (add128 x y).1 p).1 := if_pos (hcond.2 h)
      _ = x + y - p := by simp only [add128, sub128]; omega
      _ = (x + y) % p := by rw [Nat.mod_eq_sub_mod h, Nat.mod_eq_of_lt (show x + y - p < p by omega)]

/-- One conditional addition reduces the difference, because x − y > −p (41_field_ops.md R411). -/
theorem subRecipe_eq_residue {p x y : Nat} (hp : p < 2 ^ 128) (hx : x < p) (hy : y < p) :
    subRecipe p x y = residue p ((x : Int) - y) := by
  rcases Nat.lt_or_ge x y with h | h
  · calc subRecipe p x y
        = (add128 (sub128 x y).1 p).1 := if_pos (if_pos h)
      _ = x + p - y := by simp only [add128, sub128]; omega
      _ = residue p ((x : Int) - y) := (residue_eq_of_modEq (by omega) (Int.modEq_iff_dvd.2 ⟨1, by omega⟩)).symm
  · have hborrow : (sub128 x y).2 = 0 := if_neg (Nat.not_lt.2 h)
    calc subRecipe p x y
        = (sub128 x y).1 := if_neg fun hc => Nat.zero_ne_one (hborrow.symm.trans hc)
      _ = x - y := by simp only [sub128]; omega
      _ = residue p ((x : Int) - y) := (residue_eq_of_modEq (by omega) (by rw [Nat.cast_sub h])).symm

/-! ### Powers -/

/-- The loop multiplies its running result by `s ^ k`, when it has at least `k` rounds (41_field_ops.md R417). -/
theorem powLoop_eq {p fuel r k : Nat} (s : Nat) (hr : r < p) (hk : k ≤ fuel) : powLoop p fuel r s k = r * s ^ k % p := by
  induction fuel generalizing r s k with
  | zero =>
    obtain rfl : k = 0 := by omega
    rw [powLoop, pow_zero, Nat.mul_one, Nat.mod_eq_of_lt hr]
  | succ fuel ih =>
    rw [powLoop]
    by_cases h0 : k = 0
    · rw [if_pos h0, h0, pow_zero, Nat.mul_one, Nat.mod_eq_of_lt hr]
    have hp : 0 < p := by omega
    have hsquare : (s * s % p) ^ (k / 2) ≡ s ^ (2 * (k / 2)) [MOD p] := by
      rw [pow_mul, pow_two]
      exact (Nat.mod_modEq _ _).pow _
    rw [if_neg h0]
    simp only [fieldMul_eq]
    rcases Nat.mod_two_eq_zero_or_one k with h | h
    · rw [if_neg (by omega), ih _ hr (by omega)]
      have hkk : 2 * (k / 2) = k := by omega
      rw [hkk] at hsquare
      exact hsquare.mul_left r
    · rw [if_pos h, ih _ (Nat.mod_lt _ hp) (by omega)]
      have hkk : s ^ k = s * s ^ (2 * (k / 2)) := by rw [← pow_succ']; congr 1; omega
      rw [hkk, ← Nat.mul_assoc]
      exact (Nat.mod_modEq _ _).mul hsquare

/-- `pow(b, m)` is the power modulo p, for a base of any size (41_field_ops.md R417). -/
theorem fieldPow_eq {p : Nat} (hp : 2 ≤ p) (b m : Nat) : fieldPow p b m = b ^ m % p := by
  rw [fieldPow, powLoop_eq b (by omega) (Nat.le_refl m), Nat.one_mul]

/-- The base that `exp` raises to the magnitude of its exponent: inverted for a negative one (41_field_ops.md R418). -/
def signedBase (p b : Nat) (e : Int) : Nat := if e < 0 then fieldInv p b else b

/-- `exp` away from 0 to the 0 (41_field_ops.md R418). -/
theorem fieldExp_eq_ok {p b : Nat} {e : Int} (hp : 2 ≤ p) (h : b ≠ 0 ∨ e ≠ 0) :
    fieldExp p b e = .ok (signedBase p b e ^ e.natAbs % p) := by
  have hok : ¬(e.natAbs = 0 ∧ signedBase p b e = 0) := by
    rintro ⟨he, hb⟩
    obtain rfl : e = 0 := Int.natAbs_eq_zero.1 he
    exact h.elim (fun hb0 => hb0 hb) fun he0 => he0 rfl
  rw [← fieldPow_eq hp]
  exact if_neg hok

theorem fieldExp_zero_zero (p : Nat) : fieldExp p 0 0 = .error .invalidArgument := rfl

/-! ### The field of a prime modulus -/

section Prime

variable {p x : Nat} [Fact p.Prime]

/-- `inv` is the inverse of the field ZMod p, 0 for 0 included (41_field_ops.md R413). -/
theorem natCast_fieldInv (hx : x < p) : (fieldInv p x : ZMod p) = (x : ZMod p)⁻¹ := by
  have hp : p.Prime := Fact.out
  rcases eq_or_ne x 0 with rfl | h0
  · simp
  · refine eq_inv_of_mul_eq_one_right ?_
    have hmul := mul_fieldInv hp.two_le (Nat.coprime_of_lt_prime h0 hx hp).symm
    rw [← Nat.cast_mul, ← ZMod.natCast_mod, hmul, Nat.cast_one]

/-- `exp` away from 0 to the 0 is the integer power of the field ZMod p (41_field_ops.md R418). -/
theorem fieldExp_eq_zpow {e : Int} (hx : x < p) (h : x ≠ 0 ∨ e ≠ 0) : fieldExp p x e = .ok ((x : ZMod p) ^ e).val := by
  rw [fieldExp_eq_ok (Nat.Prime.two_le Fact.out) h, ← ZMod.val_natCast, Nat.cast_pow, signedBase]
  rcases Int.natAbs_eq e with he | he
  · rw [if_neg (by omega)]
    conv_rhs => rw [he, zpow_natCast]
  · by_cases hneg : e < 0
    · rw [if_pos hneg, natCast_fieldInv hx]
      conv_rhs => rw [he, zpow_neg, zpow_natCast, ← inv_pow]
    · obtain rfl : e = 0 := by omega
      simp

theorem natCast_ne_zero_of_lt (hx : x < p) (h0 : x ≠ 0) : (x : ZMod p) ≠ 0 := fun h =>
  h0 (Nat.eq_zero_of_dvd_of_lt ((ZMod.natCast_eq_zero_iff x p).1 h) hx)

/-- Fermat's little theorem for `exp` (41_field_ops.md R419). -/
theorem fieldExp_card_sub_one (hx : x < p) (h0 : x ≠ 0) : fieldExp p x ((p : Int) - 1) = .ok 1 := by
  have hp : p.Prime := Fact.out
  have hone : Fact (1 < p) := ⟨hp.one_lt⟩
  have hcast : (p : Int) - 1 = ((p - 1 : Nat) : Int) := by have := hp.one_lt; omega
  rw [fieldExp_eq_zpow hx (.inl h0), hcast, zpow_natCast,
    ZMod.pow_card_sub_one_eq_one (natCast_ne_zero_of_lt hx h0), ZMod.val_one]

/-- The exponent law for signed exponents, away from 0 to the 0 (41_field_ops.md R419). -/
theorem fieldExp_add (hx : x < p) {a b : Int} (h : x = 0 → a ≠ 0 ∧ b ≠ 0 ∧ a + b ≠ 0) :
    ∃ u v w, fieldExp p x a = .ok u ∧ fieldExp p x b = .ok v ∧ fieldExp p x (a + b) = .ok w ∧ w = fieldMul p u v := by
  have hdefined : x ≠ 0 ∨ (a ≠ 0 ∧ b ≠ 0 ∧ a + b ≠ 0) := or_iff_not_imp_left.2 fun h0 => h (not_not.1 h0)
  refine ⟨_, _, _, fieldExp_eq_zpow hx (hdefined.imp_right fun ⟨ha, _, _⟩ => ha),
    fieldExp_eq_zpow hx (hdefined.imp_right fun ⟨_, hb, _⟩ => hb),
    fieldExp_eq_zpow hx (hdefined.imp_right fun ⟨_, _, hab⟩ => hab), ?_⟩
  have hadd : (x : ZMod p) ^ (a + b) = (x : ZMod p) ^ a * (x : ZMod p) ^ b :=
    zpow_add' (hdefined.imp (natCast_ne_zero_of_lt hx) fun ⟨_, _, hab⟩ => .inl hab)
  rw [hadd, ZMod.val_mul, fieldMul_eq]

end Prime

/-! ### Quotients and powers of inverses, for any modulus -/

/-- The quotient times its divisor is the dividend, when the divisor has an inverse (41_field_ops.md R414). -/
theorem mul_fieldDiv {p y : Nat} (hp : 2 ≤ p) (x : Nat) (h : Nat.Coprime y p) : y * fieldDiv p x y % p = x % p := by
  have hinv : y * fieldInv p y ≡ 1 [MOD p] := (mul_fieldInv hp h).trans (Nat.mod_eq_of_lt hp).symm
  rw [fieldDiv, fieldMul_eq, Nat.mul_mod_mod, Nat.mul_left_comm]
  exact (hinv.mul_left x).trans (by rw [Nat.mul_one])

theorem fieldDiv_zero (p x : Nat) : fieldDiv p x 0 = 0 := by simp [fieldDiv]

/-- The power of the inverse is the inverse of the power (41_field_ops.md R418). -/
theorem pow_fieldInv_mul_pow {p b : Nat} (hp : 2 ≤ p) (m : Nat) (h : Nat.Coprime b p) :
    fieldInv p b ^ m % p * b ^ m % p = 1 := by
  rw [Nat.mod_mul_mod, ← Nat.mul_pow, Nat.mul_comm, Nat.pow_mod, mul_fieldInv hp h, one_pow, Nat.mod_eq_of_lt hp]

/-! ### The scalar commands -/

theorem Ready.modulus_pos {s : State} (h : Ready s) : 0 < s.modulus := by
  have := h.modulus_ge
  omega

/-- A scalar command, ready and admitted, that evaluates to one canonical element completes and stores it. -/
theorem scalar_stored {i : Instr} {dst v : Nat} {sources : List Nat} {eval : State → Except ErrorCode (List Nat)} {s : State}
    (h : Ready s) (hrun : exec i s = runData i (scalarShape dst sources) eval s)
    (ha : Admitted s dst 1 (sources.map fun a => (a, 1))) (he : eval s = .ok [v]) (hv : v < s.modulus) :
    ∃ t, exec i s = .next t ∧ Stored s t dst [v] := by
  rw [hrun]
  exact runData_stored h rfl rfl ha he (Nat.le_refl 1) ((Canonical.nil _).cons hv)

@[simp] theorem signedExponent_natAbs (neg : Bool) (m : Nat) : (signedExponent neg m).natAbs = m := by
  cases neg <;> simp [signedExponent]

@[simp] theorem signedExponent_eq_zero_iff {neg : Bool} {m : Nat} : signedExponent neg m = 0 ↔ m = 0 := by
  rw [← Int.natAbs_eq_zero, signedExponent_natAbs]

/-- Without NEG the base of FEXP is raised as it is (41_field_ops.md R426). -/
@[simp] theorem signedBase_signedExponent_false (p b m : Nat) : signedBase p b (signedExponent false m) = b :=
  if_neg (by simp [signedExponent])

/-- With NEG, a non-zero exponent has the base inverted (41_field_ops.md R426). -/
theorem signedBase_signedExponent_true {m : Nat} (p b : Nat) (hm : m ≠ 0) :
    signedBase p b (signedExponent true m) = fieldInv p b := if_pos (by rw [signedExponent, if_pos rfl]; omega)

@[simp] theorem signedBase_zero (p : Nat) (e : Int) : signedBase p 0 e = 0 := by simp [signedBase]

/-- FEXP's evaluation away from 0 to the 0 (41_field_ops.md R426). -/
theorem fieldExp_signedExponent {p b m : Nat} (neg : Bool) (hp : 2 ≤ p) (h : b ≠ 0 ∨ m ≠ 0) :
    fieldExp p b (signedExponent neg m) = .ok (signedBase p b (signedExponent neg m) ^ m % p) := by
  rw [fieldExp_eq_ok hp (h.imp_right fun hm => mt signedExponent_eq_zero_iff.1 hm), signedExponent_natAbs]

/-- The header word of FEXP: its opcode, and the NEG bit (30_encoding.md R302, R305). -/
theorem encode_fexp_w0 (neg : Bool) (dst a b : Nat) :
    (encode (.fexp neg dst a b)).w0 = if neg then 0x00000214 else 0x00000014 := by cases neg <;> rfl

/-! ### The statements -/

/-- Settles O27: canonical operands keep the sum below 2p and the difference above −p, so that one correction reduces. -/
theorem addSubRecipesAgree : Obligations.AddSubRecipesAgree := fun p x y _ hlt hx hy =>
  ⟨fieldAdd_eq p x y, addRecipe_eq hlt hx hy, fieldSub_eq_residue (by omega) x y, subRecipe_eq_residue hlt hx hy⟩

/-- Settles O28, by induction on the rounds of the loop. -/
theorem squareAndMultiplyIsPower : Obligations.SquareAndMultiplyIsPower := fun _ b m hp _ => fieldPow_eq hp b m

/-- Settles O29: the sums and products are those of natural numbers modulo p, and the powers those of the field ZMod p. -/
theorem fieldLaws : Obligations.FieldLaws := by
  intro p x y z hp hx hy hz
  have hfact : Fact p.Prime := ⟨hp⟩
  refine ⟨?_, ?_, ?_, fun h0 => ?_, fieldInv_zero p, ?_, ?_, ?_, fun h0 => fieldExp_card_sub_one hx h0,
    fun a b h => fieldExp_add hx h⟩
  · rw [fieldAdd_eq, fieldNeg_eq hx, Nat.add_mod_mod, Nat.add_sub_cancel' hx.le, Nat.mod_self]
  · rw [fieldAdd_eq, Nat.add_zero, Nat.mod_eq_of_lt hx]
  · simp only [fieldAdd_eq, Nat.mod_add_mod, Nat.add_mod_mod, Nat.add_assoc]
  · exact mul_fieldInv hp.two_le (Nat.coprime_of_lt_prime h0 hx hp).symm
  · rw [fieldMul_eq, Nat.mul_one, Nat.mod_eq_of_lt hx]
  · simp only [fieldMul_eq, Nat.mod_mul_mod, Nat.mul_mod_mod, Nat.mul_assoc]
  · simp only [fieldMul_eq, fieldAdd_eq, Nat.mul_mod_mod, Nat.mod_add_mod, Nat.add_mod_mod, Nat.mul_add]

/-- Settles O33: the evaluation is the residue of the sum or of the difference. -/
theorem faddFsubComplete : Obligations.FaddFsubComplete := by
  intro s dst a b h ha
  have hp := h.modulus_pos
  rw [← fieldAdd_eq, ← fieldSub_eq_residue hp]
  exact ⟨scalar_stored h rfl ha rfl (by simpa using Nat.mod_lt _ hp), scalar_stored h rfl ha rfl (fieldSub_lt hp _ _)⟩

/-- Settles O34: the evaluation is the residue of the product or of the negation. -/
theorem fmulFnegComplete : Obligations.FmulFnegComplete := by
  refine ⟨fun s dst a b h ha => ?_, fun s dst a h ha => ?_⟩
  · exact scalar_stored h rfl ha rfl (Nat.mod_lt _ h.modulus_pos)
  · rw [← fieldNeg_eq_residue h.modulus_pos]
    exact scalar_stored h rfl ha rfl (fieldNeg_lt h.modulus_pos _)

/-- Settles O35: the evaluation is the field inverse or the quotient, which are inverses where the operand has one. -/
theorem finvFdivComplete : Obligations.FinvFdivComplete := by
  refine ⟨fun s dst a h ha => ?_, fun s dst a b h ha => ?_⟩
  · have hlt := fieldInv_lt h.modulus_pos (loadF s a 0)
    obtain ⟨t, ht, hst⟩ := scalar_stored (i := .finv dst a) h rfl ha rfl hlt
    exact ⟨t, _, ht, hst, hlt, fun h0 => by rw [h0, fieldInv_zero], mul_fieldInv h.modulus_ge⟩
  · have hlt := fieldDiv_lt h.modulus_pos (loadF s a 0) (loadF s b 0)
    obtain ⟨t, ht, hst⟩ := scalar_stored (i := .fdiv dst a b) h rfl ha rfl hlt
    refine ⟨t, _, ht, hst, hlt, fun h0 => by rw [h0, fieldDiv_zero], fun hco => ?_⟩
    rw [mul_fieldDiv h.modulus_ge _ hco, Nat.mod_eq_of_lt (loadF_lt h.modulus_pos a 0)]

/-- Settles O36: 0 to the 0 is the one error; everything else evaluates to the power of the base or of its inverse. -/
theorem fexpCompletes : Obligations.FexpCompletes := by
  intro s neg dst a b h ha
  have hp := h.modulus_ge
  refine ⟨fun hb hm => ?_, fun hbm => ?_⟩
  · have herr : fieldExp s.modulus (loadF s a 0) (signedExponent neg (loadRaw s b 0)) = .error .invalidArgument := by
      rw [hb, hm, signedExponent_eq_zero_iff.2 rfl, fieldExp_zero_zero]
    rw [← encode_fexp_w0 neg dst a b]
    exact runData_error (sh := scalarShape dst [a, b]) h.idle h.configured rfl rfl ha (congrArg (fun r => collect [r]) herr)
  · have hok := fieldExp_signedExponent neg hp hbm
    have hlt := Nat.mod_lt (signedBase s.modulus (loadF s a 0) (signedExponent neg (loadRaw s b 0)) ^ loadRaw s b 0)
      h.modulus_pos
    obtain ⟨t, ht, hst⟩ := scalar_stored (i := .fexp neg dst a b) h rfl ha (congrArg (fun r => collect [r]) hok) hlt
    refine ⟨t, _, ht, hst, hlt, ?_, fun hm => ?_, fun hb => ?_, ?_⟩
    · rintro rfl
      rw [signedBase_signedExponent_false]
    · rw [hm, pow_zero, Nat.mod_eq_of_lt hp]
    · have hm : loadRaw s b 0 ≠ 0 := hbm.resolve_left (not_not.2 hb)
      rw [hb, signedBase_zero, zero_pow hm, Nat.zero_mod]
    · rintro rfl hco
      rcases eq_or_ne (loadRaw s b 0) 0 with hm | hm
      · simp [hm, Nat.mod_eq_of_lt hp]
      · rw [signedBase_signedExponent_true _ _ hm, pow_fieldInv_mul_pow hp _ hco]

end Sys2Proof

/-! PROOFS of the statements about the elementwise commands and the batch inversion (42_elementwise.md). -/

namespace Sys2Proof

open Machine

/-! ### Batch inversion -/

section BatchInversion

variable {p x y : Nat}

theorem coprime_mod (h : Nat.Coprime x p) : Nat.Coprime (x % p) p := (Nat.mod_modEq x p).gcd_eq.trans h

theorem coprime_fieldMul (hx : Nat.Coprime x p) (hy : Nat.Coprime y p) : Nat.Coprime (fieldMul p x y) p :=
  coprime_mod (hx.mul_left hy)

theorem fieldMul_comm (p x y : Nat) : fieldMul p x y = fieldMul p y x := by rw [fieldMul_eq, fieldMul_eq, Nat.mul_comm]

/-- The inverse of a product, times one factor, is the inverse of the other factor. -/
theorem fieldMul_fieldInv_fieldMul (hp : 2 ≤ p) (hx : Nat.Coprime x p) (hy : Nat.Coprime y p) :
    fieldMul p (fieldInv p (fieldMul p x y)) y = fieldInv p x := by
  refine eq_fieldInv_of_mul_mod_eq_one hp (Nat.mod_lt _ (by omega)) ?_
  calc x * fieldMul p (fieldInv p (fieldMul p x y)) y % p
      = x * y % p * fieldInv p (fieldMul p x y) % p := by
        rw [fieldMul_eq, Nat.mul_mod_mod, Nat.mod_mul_mod, Nat.mul_comm _ y, Nat.mul_assoc]
    _ = 1 := mul_fieldInv hp (coprime_fieldMul hx hy)

theorem nz_of_ne_zero (h : x ≠ 0) : nz x = x := if_neg h

theorem coprime_nz (h : x = 0 ∨ Nat.Coprime x p) : Nat.Coprime (nz x) p := by
  rcases eq_or_ne x 0 with rfl | h0
  · exact Nat.coprime_one_left p
  · rw [nz_of_ne_zero h0]
    exact h.resolve_left h0

/-- The running product of the forward pass after all of `v` (42_elementwise.md R437). -/
def nzProduct (p : Nat) (v : List Nat) (acc : Nat) : Nat := v.foldl (fun acc x => fieldMul p acc (nz x)) acc

theorem coprime_nzProduct {v : List Nat} (hv : ∀ x ∈ v, x = 0 ∨ Nat.Coprime x p) {acc : Nat} (hacc : Nat.Coprime acc p) :
    Nat.Coprime (nzProduct p v acc) p := by
  induction v generalizing acc with
  | nil => exact hacc
  | cons x v ih =>
    exact ih (fun y hy => hv y (List.mem_cons_of_mem x hy)) (coprime_fieldMul hacc (coprime_nz (hv x List.mem_cons_self)))

/-- The last entry of the forward pass is the product of all of `v`. -/
theorem prefixProducts_getD_length (v : List Nat) (acc : Nat) : (prefixProducts p acc v).getD v.length 0 = nzProduct p v acc := by
  induction v generalizing acc with
  | nil => rfl
  | cons x v ih => exact ih _

/-- The last element is paired with the product of the elements before it. -/
theorem zip_prefixProducts_concat (v : List Nat) (x acc : Nat) :
    (v ++ [x]).zip (prefixProducts p acc (v ++ [x])) = v.zip (prefixProducts p acc v) ++ [(x, nzProduct p v acc)] := by
  induction v generalizing acc with
  | nil => rfl
  | cons y v ih => exact congrArg _ (ih _)

/-- The source's algorithm in terms of the product the forward pass ends with. -/
theorem montgomeryBatchInv_eq (p : Nat) (v : List Nat) :
    montgomeryBatchInv p v =
      (backwardPass p (fieldInv p (nzProduct p v 1)) (v.zip (prefixProducts p 1 v)).reverse).reverse := by
  rw [montgomeryBatchInv, prefixProducts_getD_length]

/-- A lane of the backward pass, from the product `y` before it and the inverse of the product after it. -/
theorem backwardPass_lane (hp : 2 ≤ p) (hy : Nat.Coprime y p) (hx : x = 0 ∨ Nat.Coprime x p) :
    (if x = 0 then 0 else fieldMul p y (fieldInv p (fieldMul p y (nz x)))) = fieldInv p x := by
  rcases eq_or_ne x 0 with rfl | h0
  · rfl
  · rw [if_neg h0, nz_of_ne_zero h0, fieldMul_comm p y, fieldMul_comm p y x]
    exact fieldMul_fieldInv_fieldMul hp (hx.resolve_left h0) hy

/-- The backward pass gives the inverse of the last element first and goes on with the inverse of the product before it
(42_elementwise.md R437). -/
theorem montgomeryBatchInv_concat {v : List Nat} (hp : 2 ≤ p) (hv : ∀ x ∈ v, x = 0 ∨ Nat.Coprime x p)
    (hx : x = 0 ∨ Nat.Coprime x p) : montgomeryBatchInv p (v ++ [x]) = montgomeryBatchInv p v ++ [fieldInv p x] := by
  have hT : Nat.Coprime (nzProduct p v 1) p := coprime_nzProduct hv (Nat.coprime_one_left p)
  have htotal : nzProduct p (v ++ [x]) 1 = fieldMul p (nzProduct p v 1) (nz x) := List.foldl_append
  have hnext : fieldMul p (fieldInv p (fieldMul p (nzProduct p v 1) (nz x))) (nz x) = fieldInv p (nzProduct p v 1) :=
    fieldMul_fieldInv_fieldMul hp hT (coprime_nz hx)
  rw [montgomeryBatchInv_eq, montgomeryBatchInv_eq, zip_prefixProducts_concat, List.reverse_concat, htotal, backwardPass,
    hnext, backwardPass_lane hp hT hx, List.reverse_cons]

/-- The source's algorithm gives the elementwise inverses whenever every non-zero element has one. -/
theorem montgomeryBatchInv_eq_map {v : List Nat} (hp : 2 ≤ p) (hv : ∀ x ∈ v, x = 0 ∨ Nat.Coprime x p) :
    montgomeryBatchInv p v = v.map (fieldInv p) := by
  induction v using List.reverseRecOn with
  | nil => rfl
  | append_singleton v x ih =>
    have hinit : ∀ y ∈ v, y = 0 ∨ Nat.Coprime y p := fun y hy => hv y (List.mem_append_left [x] hy)
    rw [montgomeryBatchInv_concat hp hinit (hv x (by simp)), ih hinit, List.map_append, List.map_singleton]

/-- `batchInv` gives the elementwise inverses whenever every non-zero element has one. -/
theorem batchInv_eq_map {v : List Nat} (hv : ∀ x ∈ v, x = 0 ∨ Nat.Coprime x p) : batchInv p v = v.map (fieldInv p) :=
  if_pos (by simpa [List.all_eq_true] using hv)

/-- A zero lane stays zero, also where another lane has no inverse. -/
theorem batchInv_getD_of_zero {v : List Nat} {i : Nat} (hi : i < v.length) (h0 : v.getD i 0 = 0) :
    (batchInv p v).getD i 0 = 0 := by
  have hvi : v[i] = 0 := (List.getD_eq_getElem v 0 hi).symm.trans h0
  rw [batchInv]
  split <;> simp [hi, hvi]

end BatchInversion

/-! ### Lanes of powers -/

/-- Every lane succeeds, and so does the command. -/
theorem collect_map_ok {l : List Nat} {g : Nat → Except ErrorCode Nat} {f : Nat → Nat} (h : ∀ i ∈ l, g i = .ok (f i)) :
    collect (l.map g) = .ok (l.map f) := by
  induction l with
  | nil => rfl
  | cons i l ih =>
    rw [List.map_cons, h i List.mem_cons_self, collect, ih fun j hj => h j (List.mem_cons_of_mem i hj), List.map_cons]

/-- One lane fails, no lane fails otherwise, and the command fails in that way. -/
theorem collect_map_error {l : List Nat} {g : Nat → Except ErrorCode Nat} {e : ErrorCode}
    (hlanes : ∀ i ∈ l, g i = .error e ∨ ∃ v, g i = .ok v) (h : ∃ i ∈ l, g i = .error e) :
    collect (l.map g) = .error e := by
  induction l with
  | nil => simp at h
  | cons i l ih =>
    rcases hlanes i List.mem_cons_self with hi | ⟨v, hi⟩
    · rw [List.map_cons, hi, collect]
    · have htail : ∃ j ∈ l, g j = .error e := by simpa [hi] using h
      rw [List.map_cons, hi, collect, ih (fun j hj => hlanes j (List.mem_cons_of_mem i hj)) htail]

section Powers

variable {p n : Nat} {b e : Nat → Nat}

/-- `exp` with a raw exponent, away from 0 to the 0 (42_elementwise.md R435). -/
theorem fieldExp_natCast {x m : Nat} (hp : 2 ≤ p) (h : x ≠ 0 ∨ m ≠ 0) : fieldExp p x m = .ok (x ^ m % p) :=
  fieldExp_signedExponent false hp h

/-- VEXP's evaluation where no lane has 0 to the 0. -/
theorem expLanes_ok (hp : 2 ≤ p) (h : ∀ i, i < n → b i ≠ 0 ∨ e i ≠ 0) :
    collect ((List.range n).map fun i => fieldExp p (b i) (e i)) = .ok ((List.range n).map fun i => b i ^ e i % p) :=
  collect_map_ok fun i hi => fieldExp_natCast hp (h i (List.mem_range.1 hi))

/-- VEXP's evaluation where some lane has 0 to the 0. -/
theorem expLanes_error (hp : 2 ≤ p) (h : ∃ i, i < n ∧ b i = 0 ∧ e i = 0) :
    collect ((List.range n).map fun i => fieldExp p (b i) (e i)) = .error .invalidArgument := by
  refine collect_map_error (fun i _ => ?_) ?_
  · exact (fieldExp_cases hp (b i) (e i)).imp (fun ⟨_, _, hi⟩ => hi) fun ⟨v, _, hv⟩ => ⟨v, hv⟩
  · obtain ⟨i, hi, hb, he⟩ := h
    exact ⟨i, List.mem_range.2 hi, by rw [hb, he, Nat.cast_zero, fieldExp_zero_zero]⟩

end Powers

/-! ### The elementwise commands -/

theorem fieldAdd_lt {p : Nat} (hp : 0 < p) (x y : Nat) : fieldAdd p x y < p := by
  rw [fieldAdd_eq]
  exact Nat.mod_lt _ hp

theorem fieldMul_lt {p : Nat} (hp : 0 < p) (x y : Nat) : fieldMul p x y < p := Nat.mod_lt _ hp

/-- Equal lengths pass the check of a vv form (42_elementwise.md R430). -/
theorem vvShape_check (dst a b n : Nat) : (vvShape dst a b n n).check = none := by simp [vvShape, require]

section Stored

variable {i : Instr} {dst a b n : Nat} {s : State} {vals : List Nat} {eval : State → Except ErrorCode (List Nat)}
  {f : Nat → Nat → Nat → Nat} {r : Nat → Nat}

/-- A vv form, ready and admitted, that evaluates to canonical elements completes and stores them. -/
theorem vv_stored (h : Ready s) (hrun : exec i s = runData i (vvShape dst a b n n) eval s)
    (ha : Admitted s dst n [(a, n), (b, n)]) (he : eval s = .ok vals) (hl : vals.length = n) (hv : Canonical s.modulus vals) :
    ∃ t, exec i s = .next t ∧ Stored s t dst vals := by
  rw [hrun]
  exact runData_stored h (vvShape_check dst a b n) rfl ha he hl.le hv

/-- A vs form, or a command of one operand, ready and admitted, that evaluates to canonical elements completes and stores
them: both have the one source array. -/
theorem unary_stored (h : Ready s) (hrun : exec i s = runData i (unaryShape dst a n) eval s)
    (ha : Admitted s dst n [(a, n)]) (he : eval s = .ok vals) (hl : vals.length = n) (hv : Canonical s.modulus vals) :
    ∃ t, exec i s = .next t ∧ Stored s t dst vals := by
  rw [hrun]
  exact runData_stored h rfl rfl ha he hl.le hv

/-- A vv form of a field function completes with its value `r` lane by lane (42_elementwise.md R430). -/
theorem lanesVV_stored (h : Ready s) (hrun : exec i s = runData i (vvShape dst a b n n) (lanesVV f a b n) s)
    (ha : Admitted s dst n [(a, n), (b, n)]) (hf : ∀ x y, f s.modulus x y < s.modulus)
    (hr : ∀ k, f s.modulus (loadF s a k) (loadF s b k) = r k) :
    ∃ t, exec i s = .next t ∧ Stored s t dst ((List.range n).map r) := by
  rw [← funext hr]
  exact vv_stored h hrun ha rfl (by simp) (Canonical.map _ fun _ => hf _ _)

/-- A vs form of a field function completes with its value `r` lane by lane (42_elementwise.md R430). -/
theorem lanesVS_stored (h : Ready s) (hrun : exec i s = runData i (vsShape dst a n) (lanesVS f a n) s)
    (ha : Admitted s dst n [(a, n)]) (hf : ∀ x y, f s.modulus x y < s.modulus)
    (hr : ∀ k, f s.modulus (loadF s a k) (scratchF s) = r k) :
    ∃ t, exec i s = .next t ∧ Stored s t dst ((List.range n).map r) := by
  rw [← funext hr]
  exact unary_stored h hrun ha rfl (by simp) (Canonical.map _ fun _ => hf _ _)

end Stored

/-! The scratch slot as a field operand: it may be reduced before or after the operation (20_memory.md R209). -/

theorem fieldAdd_scratchF (s : State) (x : Nat) : fieldAdd s.modulus x (scratchF s) = (x + scratch s) % s.modulus := by
  rw [fieldAdd_eq, scratchF, Nat.add_mod_mod]

theorem fieldSub_scratchF {s : State} (hp : 0 < s.modulus) (x : Nat) :
    fieldSub s.modulus x (scratchF s) = residue s.modulus ((x : Int) - scratch s) := by
  rw [← fieldSub_eq_residue hp, fieldSub, fieldSub, scratchF, Nat.mod_mod]

theorem fieldMul_scratchF (s : State) (x : Nat) : fieldMul s.modulus x (scratchF s) = x * scratch s % s.modulus := by
  rw [fieldMul_eq, scratchF, Nat.mul_mod_mod]

/-- The quotient of a loaded element by a divisor that has an inverse, times the divisor, is the element. -/
theorem mul_fieldDiv_loadF {s : State} (h : Ready s) (a k : Nat) {y : Nat} (hy : Nat.Coprime y s.modulus) :
    y * fieldDiv s.modulus (loadF s a k) y % s.modulus = loadF s a k := by
  rw [mul_fieldDiv h.modulus_ge _ hy, Nat.mod_eq_of_lt (loadF_lt h.modulus_pos a k)]

theorem map_range_getD {l : List Nat} {n : Nat} (h : l.length = n) : (List.range n).map (fun i => l.getD i 0) = l :=
  List.ext_getElem (by simp [h]) fun i _ hi => by simp [hi]

/-! ### The statements -/

/-- Settles O30: every element of the field of a prime modulus is zero or has an inverse. -/
theorem montgomeryBatchInversion : Obligations.MontgomeryBatchInversion := by
  intro p v hp hv
  have hinv : ∀ x ∈ v, x = 0 ∨ Nat.Coprime x p := fun x hx =>
    (eq_or_ne x 0).imp_right fun h0 => (Nat.coprime_of_lt_prime h0 (hv x hx) hp).symm
  exact ⟨montgomeryBatchInv_eq_map hp.two_le hinv, batchInv_eq_map hinv⟩

/-- Settles O37: every lane is the residue of the sum, the difference or the product. -/
theorem elementwiseAddSubMulComplete : Obligations.ElementwiseAddSubMulComplete := by
  refine ⟨fun s dst a b n h ha => ?_, fun s dst a n h ha => ?_⟩ <;> have hp := h.modulus_pos
  · exact ⟨lanesVV_stored h rfl ha (fieldAdd_lt hp) fun _ => fieldAdd_eq _ _ _,
      lanesVV_stored h rfl ha (fieldSub_lt hp) fun _ => fieldSub_eq_residue hp _ _,
      lanesVV_stored h rfl ha (fieldMul_lt hp) fun _ => fieldMul_eq _ _ _⟩
  · exact ⟨lanesVS_stored h rfl ha (fieldAdd_lt hp) fun _ => fieldAdd_scratchF s _,
      lanesVS_stored h rfl ha (fieldSub_lt hp) fun _ => fieldSub_scratchF hp _,
      lanesVS_stored h rfl ha (fieldMul_lt hp) fun _ => fieldMul_scratchF s _⟩

/-- Settles O38: every lane is the quotient, which is 0 for the divisor 0 and exact where the divisor has an inverse. -/
theorem elementwiseDivCompletes : Obligations.ElementwiseDivCompletes := by
  refine ⟨fun s dst a b n h ha => ?_, fun s dst a n h ha => ?_⟩ <;> have hp := h.modulus_pos
  · obtain ⟨t, ht, hst⟩ := lanesVV_stored (i := .vdivVV dst a b n n) h rfl ha (fieldDiv_lt hp) fun _ => rfl
    exact ⟨t, _, ht, hst, fun k _ => ⟨fieldDiv_lt hp _ _, fun h0 => by rw [h0, fieldDiv_zero],
      mul_fieldDiv_loadF h a k⟩⟩
  · obtain ⟨t, ht, hst⟩ := lanesVS_stored (i := .vdivVS dst a n) h rfl ha (fieldDiv_lt hp) fun _ => rfl
    refine ⟨t, _, ht, hst, fun k _ => ⟨fieldDiv_lt hp _ _, fun h0 => by rw [scratchF, h0, fieldDiv_zero], fun hco => ?_⟩⟩
    rw [← Nat.mod_mul_mod]
    exact mul_fieldDiv_loadF h a k (coprime_mod hco)

/-- Settles O39: one lane of 0 to the 0 is the outcome of the whole evaluation; otherwise every lane is the power. -/
theorem elementwiseExpCompletes : Obligations.ElementwiseExpCompletes := by
  refine ⟨fun s dst a b n h ha => ⟨fun h0 => ?_, fun h0 => ?_⟩, fun s dst a n h ha => ⟨fun h0 => ?_, fun h0 => ?_⟩⟩ <;>
    have hp := h.modulus_ge
  · exact runData_error h.idle h.configured (vvShape_check dst a b n) rfl ha (expLanes_error hp h0)
  · exact vv_stored h rfl ha (expLanes_ok hp h0) (by simp) (Canonical.map _ fun _ => Nat.mod_lt _ h.modulus_pos)
  · exact runData_error (sh := vsShape dst a n) h.idle h.configured rfl rfl ha (expLanes_error hp h0)
  · exact unary_stored h rfl ha (expLanes_ok hp h0) (by simp) (Canonical.map _ fun _ => Nat.mod_lt _ h.modulus_pos)

/-- Settles O40: the lanes of VNEG are negations, and those of VINV the batch inversion, which is the elementwise inverse where
every non-zero element has one. -/
theorem vnegVinvComplete : Obligations.VnegVinvComplete := by
  intro s dst a n h ha
  have hp := h.modulus_pos
  refine ⟨?_, ?_⟩
  · simp only [← fieldNeg_eq_residue hp]
    exact unary_stored h rfl ha (congrArg Except.ok (List.map_map ..)) (by simp) (Canonical.map _ fun _ => fieldNeg_lt hp _)
  · have hlen : (batchInv s.modulus (loadArray s a n)).length = n := by simp
    have hcanon := batchInv_canonical hp (loadArray s a n)
    obtain ⟨t, ht, hst⟩ := unary_stored (i := .vinv dst a n) h rfl ha rfl hlen hcanon
    rw [← map_range_getD hlen] at hst
    refine ⟨t, _, ht, hst, fun k hk => ⟨hcanon.coeff_lt hp k, fun h0 => ?_⟩, fun hinv k hk h0 => ?_⟩
    · exact batchInv_getD_of_zero (by simpa using hk) ((loadArray_getD hk).trans h0)
    · have hv : ∀ x ∈ loadArray s a n, x = 0 ∨ Nat.Coprime x s.modulus := by simpa [loadArray] using hinv
      have hlane : (batchInv s.modulus (loadArray s a n)).getD k 0 = fieldInv s.modulus (loadF s a k) := by
        rw [batchInv_eq_map hv]
        simp [loadArray, hk]
      rw [hlane]
      exact mul_fieldInv h.modulus_ge ((hinv k hk).resolve_left h0)

end Sys2Proof

/-! PROOFS of the statements about power series, matrix product and linear combination (43_bulk.md). -/

namespace Sys2Proof

open Machine

/-! ### The bulk functions as powers and sums of natural numbers -/

/-- Element 0 is the given constant and every later one the constant times the power of the seed, reduced (43_bulk.md R450). -/
theorem powerSeries_eq_map (p s n c : Nat) :
    powerSeries p s n c = (List.range n).map fun i => if i = 0 then c else c * s ^ i % p := by
  induction n generalizing c with
  | zero => rfl
  | succ n ih =>
    have htail : ∀ i, (if i = 0 then fieldMul p c s else fieldMul p c s * s ^ i % p) = c * s ^ (i + 1) % p := fun i => by
      rcases i with _ | i <;> simp [pow_succ', Nat.mul_assoc]
    rw [powerSeries, ih, List.range_succ_eq_map, List.map_cons, List.map_map]
    exact congrArg _ (List.map_congr_left fun i _ => htail i)

/-- Adding up in the field is adding up natural numbers and reducing once (43_bulk.md R451, R452). -/
theorem fieldSum_eq (p m : Nat) (f : Nat → Nat) : fieldSum p m f = (∑ k ∈ Finset.range m, f k) % p := by
  induction m with
  | zero => exact (Nat.zero_mod p).symm
  | succ m ih =>
    have hsucc : fieldSum p (m + 1) f = fieldAdd p (fieldSum p m f) (f m) := by
      rw [fieldSum, List.range_succ, List.foldl_concat, fieldSum]
    rw [hsucc, ih, fieldAdd_eq, Nat.mod_add_mod, Finset.sum_range_succ]

/-- An inner product in the field is that of natural numbers, reduced once (43_bulk.md R451, R452). -/
theorem fieldSum_fieldMul_eq (p m : Nat) (f g : Nat → Nat) :
    fieldSum p m (fun k => fieldMul p (f k) (g k)) = (∑ k ∈ Finset.range m, f k * g k) % p := by
  rw [fieldSum_eq, Finset.sum_nat_mod _ p fun k => f k * g k]
  rfl

/-! ### Row-major lists (20_memory.md R201) -/

section RowMajor

variable {α : Type} {q : Nat} (f : Nat → Nat → α)

theorem rowMajor_length (n q : Nat) : ((List.range n).flatMap fun i => (List.range q).map (f i)).length = n * q := by
  simp [List.length_flatMap]

/-- Element `j` of row `i` stands at index `i·q + j`. -/
theorem rowMajor_getElem? {n i j : Nat} (hi : i < n) (hj : j < q) :
    ((List.range n).flatMap fun i => (List.range q).map (f i))[i * q + j]? = some (f i j) := by
  induction n with
  | zero => omega
  | succ n ih =>
    rw [List.range_succ, List.flatMap_append, List.flatMap_singleton]
    rcases Nat.lt_succ_iff_lt_or_eq.1 hi with hlt | rfl
    · rw [List.getElem?_append_left (by simpa only [rowMajor_length] using mul_add_lt hlt hj), ih hlt]
    · simp [hj]

end RowMajor

/-- A matrix in row-major order, stored, has element `j` of row `i` at index `i·q + j` of the destination. -/
theorem Stored.loadRaw_rowMajor {s t : State} {dst n q i j : Nat} {f : Nat → Nat → Nat}
    (h : Stored s t dst ((List.range n).flatMap fun i => (List.range q).map (f i))) (hi : i < n) (hj : j < q) :
    loadRaw t dst (i * q + j) = f i j := by
  obtain ⟨hlt, hval⟩ := List.getElem?_eq_some_iff.1 (rowMajor_getElem? f hi hj)
  rw [h.elements _ hlt, hval]

/-! ### The check and the elements of MATMUL and COMBINE -/

/-- Equal dimensions pass the check of MATMUL and of COMBINE (43_bulk.md R451, R452). -/
theorem require_beq_self (n : Nat) (e : ErrorCode) : require (n == n) e = none := (require_beq n n e).trans (if_pos rfl)

/-- The element of MATMUL's product in row `i` and column `j`, added up in the field (43_bulk.md R451). -/
def matrixElement (s : State) (a b m q i j : Nat) : Nat :=
  fieldSum s.modulus m fun k => fieldMul s.modulus (loadF s a (i * m + k)) (loadF s b (k * q + j))

theorem matrixElement_lt {s : State} (hp : 0 < s.modulus) (a b m q i j : Nat) : matrixElement s a b m q i j < s.modulus :=
  fieldSum_lt hp _ _

/-! ### The statements -/

/-- Settles O41: the first power is the constant 1, so that every later one is the power of the seed. -/
theorem pseriesCompletes : Obligations.PseriesCompletes := by
  intro s dst b n h ha
  have hone : 1 < s.modulus := h.modulus_ge
  have hseries := powerSeries_eq_map s.modulus (loadF s b 0) n 1
  simp only [Nat.one_mul] at hseries
  rw [← hseries]
  exact runData_stored h rfl rfl ha rfl (powerSeries_length ..).le (powerSeries_canonical h.modulus_pos _ _ _ hone)

/-- Settles O42: every element of the product is a sum in the field, and an admitted destination holds fewer than 2^32 of
them. -/
theorem matmulCompletes : Obligations.MatmulCompletes := by
  intro s dst a b n m q h ha
  have hmany : decide (2 ^ 32 ≤ n * q) = false := decide_eq_false (Nat.not_le.2 (count_lt h ha.1 ha.2.1))
  have hlen := rowMajor_length (matrixElement s a b m q) n q
  have hcanon := Canonical.flatMap (List.range n) fun i =>
    Canonical.map (List.range q) (matrixElement_lt h.modulus_pos a b m q i)
  obtain ⟨t, ht, hst⟩ : ∃ t, exec (.matmul dst a b n m m q) s = .next t ∧ Stored s t dst _ :=
    runData_stored h (require_beq_self m _) hmany ha rfl hlen.le hcanon
  exact ⟨t, _, ht, hst, hlen, fun i j hi hj => (hst.loadRaw_rowMajor hi hj).trans (fieldSum_fieldMul_eq ..)⟩

/-- Settles O43: the evaluation is the inner product in the field. -/
theorem combineCompletes : Obligations.CombineCompletes := by
  intro s dst a b n h ha
  rw [← fieldSum_fieldMul_eq]
  exact runData_stored h (require_beq_self n _) rfl ha rfl (Nat.le_refl 1)
    ((Canonical.nil _).cons (fieldSum_lt h.modulus_pos _ _))

end Sys2Proof

/-! PROOFS of the statements about the polynomial commands (44_polynomial.md). -/

namespace Sys2Proof

open Machine
open Polynomial (X C)

/-! ### Coefficients -/

theorem coeff_of_length_le {l : List Nat} {i : Nat} (h : l.length ≤ i) : coeff l i = 0 := List.getD_eq_default l 0 h

theorem lt_length_of_coeff_ne_zero {l : List Nat} {i : Nat} (h : coeff l i ≠ 0) : i < l.length :=
  not_le.1 (mt coeff_of_length_le h)

/-- A coefficient of a loaded polynomial, 0 above its length (44_polynomial.md R460). -/
theorem coeff_loadArray (s : State) (base n i : Nat) :
    coeff (loadArray s base n) i = if i < n then loadF s base i else 0 := by
  split
  · exact loadArray_getD ‹i < n›
  · exact coeff_of_length_le (by rw [loadArray_length]; omega)

/-- A coefficient of a list given by its elements. -/
theorem coeff_map_range (f : Nat → Nat) (n i : Nat) : coeff ((List.range n).map f) i = if i < n then f i else 0 := by
  split
  · simp [coeff, *]
  · exact coeff_of_length_le (by simpa using ‹¬i < n›)

theorem coeff_take_succ (l : List Nat) (e i : Nat) : coeff (l.take (e + 1)) i = if i ≤ e then coeff l i else 0 := by
  split
  · simp [coeff, List.getD_eq_getElem?_getD, Nat.lt_succ_of_le ‹i ≤ e›]
  · exact coeff_of_length_le ((List.length_take_le _ _).trans (by omega))

/-! ### The polynomial over ZMod p that a list of coefficients stands for -/

/-- The polynomial with the coefficients of the list, index i for `X ^ i`. -/
noncomputable def toPolynomial (p : Nat) : List Nat → Polynomial (ZMod p)
  | [] => 0
  | c :: cs => X * toPolynomial p cs + C (c : ZMod p)

@[simp] theorem coeff_toPolynomial (p : Nat) (l : List Nat) (i : Nat) :
    (toPolynomial p l).coeff i = (coeff l i : ZMod p) := by
  induction l generalizing i with
  | nil => simp [toPolynomial, coeff]
  | cons c cs ih =>
    cases i with
    | zero => simp [toPolynomial, coeff]
    | succ i =>
      rw [toPolynomial, Polynomial.coeff_add, Polynomial.coeff_X_mul, Polynomial.coeff_C_succ, add_zero, ih]
      rfl

theorem natCast_fieldMul (p x y : Nat) : (fieldMul p x y : ZMod p) = x * y := by
  rw [fieldMul_eq, ZMod.natCast_mod, Nat.cast_mul]

theorem natCast_fieldSub {p : Nat} (hp : 0 < p) (x y : Nat) : (fieldSub p x y : ZMod p) = x - y := by
  rw [fieldSub, mod128, ZMod.natCast_mod, Nat.cast_add, Nat.cast_sub (Nat.mod_lt y hp).le, ZMod.natCast_self,
    ZMod.natCast_mod, zero_sub, sub_eq_add_neg]

/-! ### The vanishing polynomial -/

/-- One update of `zpoly` multiplies by `X - x` (44_polynomial.md R470). -/
theorem toPolynomial_timesLinear {p : Nat} (hp : 0 < p) (z : List Nat) (x : Nat) :
    toPolynomial p (timesLinear p z x) = toPolynomial p z * (X - C (x : ZMod p)) := by
  ext i
  rw [coeff_toPolynomial, timesLinear, coeff_map_range]
  rcases Nat.lt_or_ge i (z.length + 1) with hi | hi
  · rw [if_pos hi, natCast_fieldSub hp, natCast_fieldMul]
    cases i with
    | zero => simp [Polynomial.mul_coeff_zero]
    | succ i =>
      rw [Polynomial.coeff_mul_X_sub_C, coeff_toPolynomial, coeff_toPolynomial, if_neg i.succ_ne_zero, Nat.add_sub_cancel]
  · obtain ⟨i, rfl⟩ : ∃ k, i = k + 1 := ⟨i - 1, by omega⟩
    rw [if_neg (by omega), Polynomial.coeff_mul_X_sub_C, coeff_toPolynomial, coeff_toPolynomial,
      coeff_of_length_le (by omega), coeff_of_length_le (by omega)]
    simp

/-- The list that `zpoly` gives stands for the product of the `X - x` over its points (44_polynomial.md R470). -/
theorem toPolynomial_vanishing {p : Nat} (hp : 0 < p) (xs : List Nat) :
    toPolynomial p (vanishing p xs) = (xs.map fun x : Nat => X - C (x : ZMod p)).prod := by
  induction xs using List.reverseRecOn with
  | nil => simp [vanishing, toPolynomial]
  | append_singleton xs x ih =>
    rw [vanishing, List.foldl_concat, ← vanishing, toPolynomial_timesLinear hp, ih, List.map_append, List.map_singleton,
      List.prod_append, List.prod_singleton]

/-! ### Horner's rule -/

theorem polyEval_cons (p c : Nat) (cs : List Nat) (x : Nat) : polyEval p (c :: cs) x = (polyEval p cs x * x + c) % p := by
  rw [polyEval, List.foldr_cons, ← polyEval, fieldAdd_eq, fieldMul_eq, Nat.mod_add_mod]

/-- Horner's rule gives the value of the polynomial, reduced once (44_polynomial.md R469). -/
theorem polyEval_eq (p : Nat) (c : List Nat) (x : Nat) :
    polyEval p c x = (∑ i ∈ Finset.range c.length, coeff c i * x ^ i) % p := by
  induction c with
  | nil => exact (Nat.zero_mod p).symm
  | cons a c ih =>
    have hsum : ∑ i ∈ Finset.range (c.length + 1), coeff (a :: c) i * x ^ i =
        (∑ i ∈ Finset.range c.length, coeff c i * x ^ i) * x + a := by
      rw [Finset.sum_range_succ', Finset.sum_mul]
      simp [coeff, pow_succ, Nat.mul_assoc]
    have hred : polyEval p c x ≡ ∑ i ∈ Finset.range c.length, coeff c i * x ^ i [MOD p] := by
      rw [ih]
      exact Nat.mod_modEq _ _
    rw [polyEval_cons, List.length_cons, hsum]
    exact (hred.mul_right x).add_right a

/-! ### The convolution -/

/-- The products with `i + j = d`, over all pairs of indices, are those over the indices `i ≤ d` of the first polynomial: every
other summand has a coefficient above its polynomial's length (44_polynomial.md R462). -/
theorem sum_pairs_eq_sum_range_succ {n m : Nat} (f g : Nat → Nat) (d : Nat) :
    (∑ i ∈ Finset.range n, ∑ j ∈ Finset.range m, if i + j = d then f i * g j else 0) =
      ∑ i ∈ Finset.range (d + 1), (if i < n then f i else 0) * if d - i < m then g (d - i) else 0 := by
  have hinner : ∀ i, (∑ j ∈ Finset.range m, if i + j = d then f i * g j else 0) =
      if i ∈ Finset.range (d + 1) then f i * (if d - i < m then g (d - i) else 0) else 0 := fun i => by
    by_cases hi : i ≤ d
    · have hj : ∀ j, i + j = d ↔ d - i = j := by omega
      simp [hj, Nat.lt_succ_of_le hi]
    · have hj : ∀ j, i + j ≠ d := by omega
      simp [hj, hi]
  calc (∑ i ∈ Finset.range n, ∑ j ∈ Finset.range m, if i + j = d then f i * g j else 0)
      = ∑ i ∈ Finset.range n ∩ Finset.range (d + 1), f i * (if d - i < m then g (d - i) else 0) := by
        rw [Finset.sum_congr rfl fun i _ => hinner i, Finset.sum_ite_mem]
    _ = ∑ i ∈ Finset.range (d + 1), (if i < n then f i else 0) * if d - i < m then g (d - i) else 0 := by
        rw [Finset.inter_comm, ← Finset.sum_ite_mem]
        simp only [Finset.mem_range, ite_mul, zero_mul]

/-- A coefficient of the product of two loaded polynomials, reduced once (44_polynomial.md R462). -/
theorem polyMul_loadArray (s : State) (a b n m : Nat) :
    polyMul s.modulus (loadArray s a n) (loadArray s b m) = (List.range (n + m - 1)).map fun d =>
      (∑ i ∈ Finset.range n, ∑ j ∈ Finset.range m, if i + j = d then loadF s a i * loadF s b j else 0) % s.modulus := by
  rw [polyMul, loadArray_length, loadArray_length]
  refine List.map_congr_left fun d _ => ?_
  rw [fieldSum_fieldMul_eq, sum_pairs_eq_sum_range_succ]
  simp only [coeff_loadArray]

/-! ### The division -/

/-- `last_nonzero` finds nothing in the zero polynomial (44_polynomial.md R463). -/
theorem lastNonzero_eq_none {l : List Nat} (h : ∀ i, coeff l i = 0) : lastNonzero l = none := by
  induction l with
  | nil => rfl
  | cons x l ih =>
    obtain rfl : x = 0 := h 0
    rw [lastNonzero, ih fun i => h (i + 1)]
    rfl

/-- `last_nonzero` finds the degree: the index of a non-zero coefficient with none above it (44_polynomial.md R463). -/
theorem lastNonzero_eq_some {l : List Nat} {d : Nat} (h : coeff l d ≠ 0) (habove : ∀ i, d < i → coeff l i = 0) :
    lastNonzero l = some d := by
  induction l generalizing d with
  | nil => exact absurd rfl h
  | cons x l ih =>
    cases d with
    | zero =>
      rw [lastNonzero, lastNonzero_eq_none fun i => habove (i + 1) i.succ_pos]
      exact if_neg h
    | succ d => rw [lastNonzero, ih h fun i hi => habove (i + 1) (Nat.succ_lt_succ hi)]

/-- The coefficient that `last_nonzero` finds is not 0 (44_polynomial.md R463). -/
theorem coeff_ne_zero_of_lastNonzero {l : List Nat} {d : Nat} (h : lastNonzero l = some d) : coeff l d ≠ 0 := by
  induction l generalizing d with
  | nil => cases h
  | cons x l ih =>
    rw [lastNonzero] at h
    split at h
    · cases h
      exact ih ‹_›
    · split at h
      · cases h
      · cases h
        assumption

theorem toPolynomial_concat (p : Nat) (l : List Nat) (c : Nat) :
    toPolynomial p (l ++ [c]) = toPolynomial p l + C (c : ZMod p) * X ^ l.length := by
  induction l with
  | nil => simp [toPolynomial]
  | cons x l ih =>
    simp only [List.cons_append, toPolynomial, ih, List.length_cons, pow_succ]
    ring

/-- What the dividend `a` leaves after the divisor `b` times the quotient `q`. -/
noncomputable def remainder (p : Nat) (a b q : List Nat) : Polynomial (ZMod p) :=
  toPolynomial p a - toPolynomial p b * toPolynomial p q

section Division

variable {p bpos d q t : Nat} {b r : List Nat}

/-- One step of the division, where the shifted divisor lies within the working copy (44_polynomial.md R468). -/
theorem coeff_subtractShifted (hlen : d + bpos < r.length) :
    coeff (subtractShifted p b bpos q d r) t =
      if d ≤ t ∧ t ≤ d + bpos then fieldSub p (coeff r t) (fieldMul p (coeff b (t - d)) q) else coeff r t := by
  rw [subtractShifted, coeff_map_range]
  rcases Nat.lt_or_ge t r.length with ht | ht
  · rw [if_pos ht]
  · rw [if_neg (by omega), if_neg (by omega), coeff_of_length_le ht]

/-- One step of the division subtracts the divisor times `q * X ^ d` (44_polynomial.md R468). -/
theorem toPolynomial_subtractShifted (hp : 0 < p) (hb : ∀ i, bpos < i → coeff b i = 0) (hlen : d + bpos < r.length) :
    toPolynomial p (subtractShifted p b bpos q d r) =
      toPolynomial p r - toPolynomial p b * (C (q : ZMod p) * X ^ d) := by
  ext t
  rw [coeff_toPolynomial, coeff_subtractShifted hlen, ← mul_assoc, Polynomial.coeff_sub, Polynomial.coeff_mul_X_pow',
    Polynomial.coeff_mul_C, coeff_toPolynomial, coeff_toPolynomial]
  by_cases hd : d ≤ t
  · rcases Nat.lt_or_ge (d + bpos) t with ht | ht
    · rw [if_neg (by omega), if_pos hd, hb (t - d) (by omega), Nat.cast_zero, zero_mul, sub_zero]
    · rw [if_pos ⟨hd, ht⟩, if_pos hd, natCast_fieldSub hp, natCast_fieldMul]
  · rw [if_neg (by omega), if_neg hd, sub_zero]

/-- A divisor with an invertible leading coefficient: the step clears the leading coefficient of the working copy
(44_polynomial.md R468). -/
theorem coeff_toPolynomial_subtractShifted_of_le (hp : 2 ≤ p) (hlead : Nat.Coprime (coeff b bpos) p)
    (hb : ∀ i, bpos < i → coeff b i = 0) (hlen : bpos + (d + 1) ≤ r.length)
    (hr : ∀ t, bpos + (d + 1) ≤ t → (toPolynomial p r).coeff t = 0) (ht : bpos + d ≤ t) :
    (toPolynomial p (subtractShifted p b bpos (fieldDiv p (coeff r (bpos + d)) (coeff b bpos)) d r)).coeff t = 0 := by
  rw [toPolynomial_subtractShifted (by omega) hb (by omega), ← mul_assoc, Polynomial.coeff_sub,
    Polynomial.coeff_mul_X_pow', if_pos (by omega), Polynomial.coeff_mul_C, coeff_toPolynomial p b]
  rcases ht.eq_or_lt with rfl | hlt
  · have hquot := (ZMod.natCast_eq_natCast_iff' _ _ p).2 (mul_fieldDiv hp (coeff r (bpos + d)) hlead)
    rw [Nat.cast_mul] at hquot
    rw [coeff_toPolynomial, Nat.add_sub_cancel, hquot, sub_self]
  · rw [hr t (by omega), hb (t - d) (by omega), Nat.cast_zero, zero_mul, sub_zero]

/-- The division by a divisor of degree `bpos` with an invertible leading coefficient: `n` steps give `n` coefficients of a
quotient, with which the remainder of the working copy has no coefficient from `bpos` on (44_polynomial.md R468). -/
theorem divSteps_quotient (hp : 2 ≤ p) (hlead : Nat.Coprime (coeff b bpos) p) (hb : ∀ i, bpos < i → coeff b i = 0)
    {n : Nat} (hlen : bpos + n ≤ r.length) (hr : ∀ t, bpos + n ≤ t → (toPolynomial p r).coeff t = 0) (out : List Nat) :
    ∃ q, divSteps p b bpos n r out = q ++ out ∧ q.length = n ∧
      ∀ t, bpos ≤ t → (remainder p r b q).coeff t = 0 := by
  induction n generalizing r out with
  | zero => exact ⟨[], rfl, rfl, by simpa [remainder, toPolynomial] using hr⟩
  | succ n ih =>
    obtain ⟨q, hq, hlq, hrem⟩ := ih (by rw [subtractShifted_length]; omega)
      (fun t ht => coeff_toPolynomial_subtractShifted_of_le hp hlead hb hlen hr ht)
      (fieldDiv p (coeff r (bpos + n)) (coeff b bpos) :: out)
    refine ⟨q ++ [fieldDiv p (coeff r (bpos + n)) (coeff b bpos)], ?_, by simp [hlq], fun t ht => ?_⟩
    · rw [divSteps, hq, List.append_assoc, List.singleton_append]
    · rw [remainder, toPolynomial_concat, hlq, mul_add, add_comm, ← sub_sub,
        ← toPolynomial_subtractShifted (by omega) hb (by omega)]
      exact hrem t ht

end Division

/-- The coefficients that `poly_div` computes for a dividend of degree `e` and a divisor of degree `d` (44_polynomial.md R468). -/
def longDivision (p : Nat) (a b : List Nat) (e d : Nat) : List Nat := divSteps p b d (e - d + 1) (a.take (e + 1)) []

theorem longDivision_length (p : Nat) (a b : List Nat) (e d : Nat) : (longDivision p a b e d).length = e - d + 1 :=
  divSteps_length ..

theorem longDivision_canonical {p : Nat} (hp : 0 < p) (a b : List Nat) (e d : Nat) : Canonical p (longDivision p a b e d) :=
  divSteps_canonical hp _ _ _ _ _ (Canonical.nil p)

section LongDivision

variable {p d e : Nat} {a b q : List Nat}

/-- `poly_div` of two polynomials of degrees `e` and `d`, `d ≤ e` (44_polynomial.md R468). -/
theorem polyDiv_eq_ok (hb : lastNonzero b = some d) (ha : lastNonzero a = some e) (hde : d ≤ e) :
    polyDiv p a b = .ok (longDivision p a b e d) := by
  rw [polyDiv, hb, ha]
  exact if_neg (not_lt.2 hde)

/-- `poly_div` of a dividend with no coefficient from the divisor's degree `d` on (44_polynomial.md R468). -/
theorem polyDiv_eq_error (hp : 0 < p) (hb : lastNonzero b = some d) (ha : ∀ i, d ≤ i → coeff a i = 0) :
    polyDiv p a b = .error .invalidArgument := by
  refine (polyDiv_cases hp a b).resolve_right ?_
  rintro ⟨e, d', _, he, hd', hde, _⟩
  obtain rfl : d = d' := Option.some.inj (hb.symm.trans hd')
  exact coeff_ne_zero_of_lastNonzero he (ha e hde)

theorem toPolynomial_take_succ (p : Nat) (ha : ∀ i, e < i → coeff a i = 0) :
    toPolynomial p (a.take (e + 1)) = toPolynomial p a := by
  ext i
  rw [coeff_toPolynomial, coeff_toPolynomial, coeff_take_succ]
  split
  · rfl
  · rw [ha i (by omega)]

/-- The quotient of two polynomials of degrees `e` and `d`, `d ≤ e`, leaves a remainder with no coefficient from `d` on, where
the divisor's leading coefficient is invertible (44_polynomial.md R468). -/
theorem coeff_remainder_longDivision (hp : 2 ≤ p) (hlead : Nat.Coprime (coeff b d) p) (hb : ∀ i, d < i → coeff b i = 0)
    (he : coeff a e ≠ 0) (ha : ∀ i, e < i → coeff a i = 0) (hde : d ≤ e) :
    ∀ i, d ≤ i → (remainder p a b (longDivision p a b e d)).coeff i = 0 := by
  have hlt := lt_length_of_coeff_ne_zero he
  have hlen : d + (e - d + 1) ≤ (a.take (e + 1)).length := by rw [List.length_take]; omega
  have habove : ∀ i, d + (e - d + 1) ≤ i → (toPolynomial p (a.take (e + 1))).coeff i = 0 := fun i hi => by
    rw [toPolynomial_take_succ p ha, coeff_toPolynomial, ha i (by omega), Nat.cast_zero]
  obtain ⟨q, hq, -, hrem⟩ := divSteps_quotient hp hlead hb hlen habove []
  rw [longDivision, hq, List.append_nil, remainder, ← toPolynomial_take_succ p ha]
  exact hrem

/-- The dividend is the divisor times the quotient plus the remainder, in natural numbers. -/
theorem coeff_eq_quotient_add_remainder (hp : 0 < p) (ha : Canonical p a) (i : Nat) :
    coeff a i = (∑ j ∈ Finset.range (i + 1), coeff b j * coeff q (i - j) + ((remainder p a b q).coeff i).val) % p := by
  have hne : NeZero p := ⟨hp.ne'⟩
  rw [← Nat.mod_eq_of_lt (ha.coeff_lt hp i), ← ZMod.natCast_eq_natCast_iff']
  simp [remainder, Polynomial.coeff_mul, Finset.Nat.sum_antidiagonal_eq_sum_range_succ_mk]

end LongDivision

/-! ### The commands -/

/-- A padded combination of two loaded polynomials, ready and admitted, completes with its value `r` coefficient by coefficient
(44_polynomial.md R460). -/
theorem padded_stored {i : Instr} {dst a b n m : Nat} {s : State} {f : Nat → Nat → Nat → Nat} {r : Nat → Nat}
    (h : Ready s) (hrun : exec i s = runData i (paddedShape dst a b n m)
      (fun s => .ok (padded (f s.modulus) (loadArray s a n) (loadArray s b m))) s)
    (ha : Admitted s dst (max n m) [(a, n), (b, m)]) (hf : ∀ x y, f s.modulus x y < s.modulus)
    (hr : ∀ k, f s.modulus (coeff (loadArray s a n) k) (coeff (loadArray s b m) k) = r k) :
    ∃ t, exec i s = .next t ∧ Stored s t dst ((List.range (max n m)).map r) := by
  have hval : padded (f s.modulus) (loadArray s a n) (loadArray s b m) = (List.range (max n m)).map r := by
    rw [padded, loadArray_length, loadArray_length, funext hr]
  rw [hrun, ← hval]
  exact runData_stored h rfl rfl ha rfl (by simp [paddedShape]) (padded_canonical hf _ _)

/-- A data command in IDLE whose own rule fails the bounds check for its element count raises BAD_ADDRESS (log 18). -/
theorem runData_tooMany {i : Instr} {sh : Shape} {eval : State → Except ErrorCode (List Nat)} {s : State} (h : Ready s)
    (hk : sh.check = none) (hm : sh.tooMany = true) :
    runData i sh eval s = .next (raise .badAddress (encode i).w0 s) := by
  simp [runData, accept_idle h.idle, dataStages, h.configured, hk, Shape.outOfBounds, hm]

/-- A divisor no longer than the dividend passes the check of PDIV (44_polynomial.md R464). -/
theorem pdiv_check {n m : Nat} (h : m ≤ n) : require (decide (m ≤ n)) .invalidArgument = none := by simp [require, h]

/-- PDIV, ready and admitted, raises what `poly_div` raises (44_polynomial.md R464). -/
theorem pdiv_raises {s : State} {dst a b n m : Nat} (h : Ready s) (hmn : m ≤ n) (ha : Admitted s dst n [(a, n), (b, m)])
    (he : polyDiv s.modulus (loadArray s a n) (loadArray s b m) = .error .invalidArgument) :
    exec (.pdiv dst a b n m) s = .next (raise .invalidArgument 0x00000043 s) :=
  runData_error h.idle h.configured (pdiv_check hmn) rfl ha he

/-! ### The statements -/

/-- Settles O44: every coefficient is the residue of the sum or of the difference, a missing one loaded as 0. -/
theorem paddPsubComplete : Obligations.PaddPsubComplete := by
  intro s dst a b n m h ha
  have hp := h.modulus_pos
  refine ⟨padded_stored h rfl ha (fieldAdd_lt hp) fun k => ?_, padded_stored h rfl ha (fieldSub_lt hp) fun k => ?_⟩
  · rw [fieldAdd_eq, coeff_loadArray, coeff_loadArray]
  · rw [fieldSub_eq_residue hp, coeff_loadArray, coeff_loadArray, Nat.cast_ite, Nat.cast_ite, Nat.cast_zero]

/-- Settles O45: the evaluation is the convolution in the field. -/
theorem pmulCompletes : Obligations.PmulCompletes := by
  intro s dst a b n m h hn hm ha
  have hcheck : require (n != 0 && m != 0) .invalidArgument = none := by simp [require, hn, hm]
  rw [← polyMul_loadArray]
  exact runData_stored h hcheck rfl ha rfl (by simp) (polyMul_canonical h.modulus_pos _ _)

/-- Settles O47: the evaluation is Horner's rule. -/
theorem pevalCompletes : Obligations.PevalCompletes := by
  intro s dst a b n h ha
  have hval : polyEval s.modulus (loadArray s a n) (loadF s b 0) =
      (∑ i ∈ Finset.range n, loadF s a i * loadF s b 0 ^ i) % s.modulus := by
    rw [polyEval_eq, loadArray_length]
    refine congrArg (· % s.modulus) (Finset.sum_congr rfl fun i hi => ?_)
    rw [coeff_loadArray, if_pos (Finset.mem_range.1 hi)]
  rw [← hval]
  exact runData_stored h rfl rfl ha rfl (Nat.le_refl 1) ((Canonical.nil _).cons (polyEval_lt h.modulus_pos _ _))

/-- Settles O48: the elements are the coefficients of the product of the `X - x_j`, and an admitted destination holds fewer than
2^32 of them. -/
theorem zpolyCompletes : Obligations.ZpolyCompletes := by
  have hlast : decide (2 ^ 32 ≤ 2 ^ 32 - 1 + 1) = true := by decide
  refine ⟨fun s dst a h => runData_tooMany h rfl hlast, fun s dst a n h ha => ?_⟩
  have hmany : decide (2 ^ 32 ≤ n + 1) = false := decide_eq_false (Nat.not_le.2 (count_lt h ha.1 ha.2.1))
  have hlen : (vanishing s.modulus (loadArray s a n)).length = n + 1 := by simp
  have hcanon := vanishing_canonical h.modulus_ge (loadArray s a n)
  obtain ⟨t, ht, hst⟩ : ∃ t, exec (.zpoly dst a n) s = .next t ∧ Stored s t dst _ :=
    runData_stored h rfl hmany ha rfl hlen.le hcanon
  refine ⟨t, _, ht, hst, hlen, fun i _ => ⟨hcanon.coeff_lt h.modulus_pos i, ?_⟩⟩
  rw [← coeff, ← coeff_toPolynomial, toPolynomial_vanishing h.modulus_pos, loadArray, List.map_map]
  rfl

/-- Settles O46: the error clauses are those of `poly_div`; otherwise, for a prime P, the divisor's leading coefficient has an
inverse, and the division leaves a remainder of degree below the divisor's. -/
theorem pdivCompletes : Obligations.PdivCompletes := by
  intro s dst a b n m h hmn ha
  simp only [← coeff_loadArray]
  have hp := h.modulus_pos
  refine ⟨fun hb => pdiv_raises h hmn ha ?_, fun d hd hbd => ?_⟩
  · rw [polyDiv, lastNonzero_eq_none hb]
  have hdeg := lastNonzero_eq_some hd hbd
  refine ⟨fun had => pdiv_raises h hmn ha (polyDiv_eq_error hp hdeg had), fun e hde he hae => ?_⟩
  have hlt : e < n := by simpa using lt_length_of_coeff_ne_zero he
  have hlen := longDivision_length s.modulus (loadArray s a n) (loadArray s b m) e d
  have hcanon := longDivision_canonical hp (loadArray s a n) (loadArray s b m) e d
  obtain ⟨t, ht, hst⟩ : ∃ t, exec (.pdiv dst a b n m) s = .next t ∧ Stored s t dst _ :=
    runData_stored h (pdiv_check hmn) rfl ha (polyDiv_eq_ok hdeg (lastNonzero_eq_some he hae) hde)
      (hlen.trans_le (show e - d + 1 ≤ n by omega)) hcanon
  refine ⟨t, _, ht, hst, hlen, hcanon, fun hprime => ?_⟩
  have hlead := (Nat.coprime_of_lt_prime hd ((loadArray_canonical hp b m).coeff_lt hp d) hprime).symm
  have hrem := coeff_remainder_longDivision h.modulus_ge hlead hbd he hae hde
  exact ⟨_, fun i hi => (congrArg ZMod.val (hrem i hi)).trans ZMod.val_zero,
    coeff_eq_quotient_add_remainder hp (loadArray_canonical hp a n)⟩

end Sys2Proof

/-! PROOFS of the statements about the FFT and its inverse (45_fft_interp.md R480 to R484, R489). -/

namespace Sys2Proof

open Machine

/-! ### Canonical lists as lists over ZMod p -/

/-- Canonical lists of one length that agree element by element modulo p are equal. -/
theorem canonical_ext {p : Nat} {l m : List Nat} (hl : Canonical p l) (hm : Canonical p m) (hlen : l.length = m.length)
    (h : ∀ i, i < l.length → (coeff l i : ZMod p) = coeff m i) : l = m := by
  refine List.ext_getElem hlen fun i hi hi' => ?_
  have hcast := h i hi
  rw [coeff, coeff, List.getD_eq_getElem l 0 hi, List.getD_eq_getElem m 0 hi'] at hcast
  exact CharP.natCast_injOn_Iio (ZMod p) p (hl _ (List.getElem_mem hi)) (hm _ (List.getElem_mem hi')) hcast

@[simp] theorem coeff_cons_zero (x : Nat) (l : List Nat) : coeff (x :: l) 0 = x := rfl

@[simp] theorem coeff_cons_succ (x : Nat) (l : List Nat) (i : Nat) : coeff (x :: l) (i + 1) = coeff l i := rfl

theorem coeff_map_of_lt {l : List Nat} {i : Nat} (f : Nat → Nat) (hi : i < l.length) : coeff (l.map f) i = f (coeff l i) := by
  simp [coeff, hi]

theorem natCast_residue {p : Nat} (hp : 0 < p) (z : Int) : (residue p z : ZMod p) = z := by
  have hnonneg : 0 ≤ z % p := Int.emod_nonneg z (by omega)
  rw [residue, ← Int.cast_natCast, Int.toNat_of_nonneg hnonneg, ZMod.intCast_mod]

/-- `sub` reduces its subtrahend, so that a product may be subtracted unreduced. -/
theorem fieldSub_fieldMul {p : Nat} (hp : 0 < p) (x y z : Nat) :
    fieldSub p x (fieldMul p y z) = residue p ((x : Int) - y * z) := by
  rw [← Nat.cast_mul, ← fieldSub_eq_residue hp, fieldSub, fieldSub, fieldMul_eq, Nat.mod_mod]

/-- A coefficient of a zero-padded polynomial (45_fft_interp.md R482). -/
theorem coeff_append_replicate_zero (l : List Nat) (m i : Nat) : coeff (l ++ List.replicate m 0) i = coeff l i := by
  rcases Nat.lt_or_ge i l.length with hi | hi
  · rw [coeff, coeff, List.getD_append _ _ _ _ hi]
  · rw [coeff, coeff, List.getD_append_right _ _ _ _ hi, List.getD_eq_default _ _ hi]
    rw [List.getD_eq_getElem?_getD, List.getElem?_replicate]
    split <;> rfl

/-! ### The equations of the recursion (45_fft_interp.md R481) -/

section Recursion

variable {p level step offset i : Nat} {v w : List Nat}

/-- The 4-point base case. -/
theorem coeff_fftRec_zero (hi : i < 4) :
    coeff (fftRec p v w 0 step offset) i =
      (∑ j ∈ Finset.range 4, coeff v (offset + j * step) * coeff w (i * j % 4 * step)) % p := by
  rw [fftRec, coeff_map_range, if_pos hi]
  rfl

/-- The combine equation of the lower half. -/
theorem coeff_fftRec_succ_low (hi : i < 2 ^ (level + 2)) :
    coeff (fftRec p v w (level + 1) step offset) i =
      (coeff (fftRec p v w level (2 * step) offset) i +
        coeff (fftRec p v w level (2 * step) (offset + step)) i * coeff w (i * step)) % p := by
  rw [fftRec, coeff, List.getD_append _ _ _ _ (by simpa using hi), ← coeff, coeff_map_range, if_pos hi, fieldAdd_eq,
    fieldMul_eq, Nat.add_mod_mod]

/-- The combine equation of the upper half. -/
theorem coeff_fftRec_succ_high (hp : 0 < p) (hi : i < 2 ^ (level + 2)) :
    coeff (fftRec p v w (level + 1) step offset) (i + 2 ^ (level + 2)) =
      residue p ((coeff (fftRec p v w level (2 * step) offset) i : Int) -
        coeff (fftRec p v w level (2 * step) (offset + step)) i * coeff w (i * step)) := by
  rw [fftRec, coeff, List.getD_append_right _ _ _ _ (by simp), List.length_map, List.length_range, Nat.add_sub_cancel,
    ← coeff, coeff_map_range, if_pos hi, fieldSub_fieldMul hp]

/-- Case B of R481: one combine step. -/
theorem fftCore_one (hp : 0 < p) :
    fftCore p v w 1 = [(coeff v 0 + coeff v 1 * coeff w 0) % p, residue p ((coeff v 0 : Int) - coeff v 1 * coeff w 0)] := by
  rw [fftCore, fieldSub_fieldMul hp, fieldAdd_eq, fieldMul_eq, Nat.add_mod_mod]

end Recursion

/-! ### The transform over the powers of a root of unity (45_fft_interp.md R489) -/

/-- The terms of even and of odd index of a polynomial's value: the split of R481's recursion. -/
theorem sum_range_two_mul_pow {R : Type*} [CommRing R] (f : Nat → R) (x : R) (m : Nat) :
    ∑ j ∈ Finset.range (2 * m), f j * x ^ j =
      ∑ j ∈ Finset.range m, f (2 * j) * (x ^ 2) ^ j + (∑ j ∈ Finset.range m, f (2 * j + 1) * (x ^ 2) ^ j) * x := by
  induction m with
  | zero => simp
  | succ m ih =>
    rw [Nat.mul_succ, Finset.sum_range_succ, Finset.sum_range_succ, ih, Finset.sum_range_succ, Finset.sum_range_succ]
    ring

/-- The split of a sub-sequence of the given step into its two halves of twice the step. -/
theorem sum_range_two_mul_stride {R : Type*} [CommRing R] (f : Nat → R) (x : R) (m step offset : Nat) :
    ∑ j ∈ Finset.range (2 * m), f (offset + j * step) * x ^ j =
      ∑ j ∈ Finset.range m, f (offset + j * (2 * step)) * (x ^ 2) ^ j +
        (∑ j ∈ Finset.range m, f (offset + step + j * (2 * step)) * (x ^ 2) ^ j) * x := by
  have heven : ∀ j, offset + 2 * j * step = offset + j * (2 * step) := fun j => by ring
  have hodd : ∀ j, offset + (2 * j + 1) * step = offset + step + j * (2 * step) := fun j => by ring
  rw [sum_range_two_mul_pow fun j => f (offset + j * step)]
  simp only [heven, hodd]

section Transform

variable {p level step offset i : Nat} {v w : List Nat}

/-- A call of the recursion on a sub-domain that holds the powers of `z` evaluates the sub-sequence at each of them. -/
theorem natCast_coeff_fftRec (hp : 0 < p) {z : ZMod p} (hz : z ^ 2 ^ (level + 1) = -1)
    (hw : ∀ i, i < 2 ^ (level + 2) → (coeff w (i * step) : ZMod p) = z ^ i) (hi : i < 2 ^ (level + 2)) :
    (coeff (fftRec p v w level step offset) i : ZMod p) =
      ∑ j ∈ Finset.range (2 ^ (level + 2)), (coeff v (offset + j * step) : ZMod p) * (z ^ i) ^ j := by
  induction level generalizing step offset i z with
  | zero =>
    have hone : z ^ 4 = 1 := by
      rw [show z ^ 4 = (z ^ 2 ^ 1) ^ 2 by ring, hz, neg_one_sq]
    rw [coeff_fftRec_zero hi, ZMod.natCast_mod, Nat.cast_sum]
    refine Finset.sum_congr rfl fun j _ => ?_
    have hroot : (coeff w (i * j % 4 * step) : ZMod p) = z ^ (i * j % 4) := hw _ (Nat.mod_lt _ (by decide))
    rw [Nat.cast_mul, hroot, ← pow_eq_pow_mod _ hone, pow_mul]
  | succ level ih =>
    have hz' : (z ^ 2) ^ 2 ^ (level + 1) = -1 := by rw [← pow_mul, ← pow_succ', hz]
    have hw' : ∀ i, i < 2 ^ (level + 2) → (coeff w (i * (2 * step)) : ZMod p) = (z ^ 2) ^ i := fun i hi => by
      rw [← pow_mul, ← hw (2 * i) (by rw [pow_succ']; omega), Nat.mul_left_comm, Nat.mul_assoc]
    have heven := fun i hi => ih (offset := offset) (i := i) hz' hw' hi
    have hodd := fun i hi => ih (offset := offset + step) (i := i) hz' hw' hi
    have hsize : 2 ^ (level + 1 + 2) = 2 * 2 ^ (level + 2) := pow_succ' 2 (level + 2)
    rw [hsize] at hi ⊢
    rw [sum_range_two_mul_stride fun j => (coeff v j : ZMod p)]
    rcases Nat.lt_or_ge i (2 ^ (level + 2)) with hlow | hhigh
    · rw [coeff_fftRec_succ_low hlow, ZMod.natCast_mod, Nat.cast_add, Nat.cast_mul, heven i hlow,
        hodd i hlow, hw i (by omega), pow_right_comm z 2 i]
    · obtain ⟨i, rfl⟩ := Nat.exists_eq_add_of_le' hhigh
      have hlow : i < 2 ^ (level + 2) := by omega
      have hpow : z ^ (i + 2 ^ (level + 2)) = -z ^ i := by rw [pow_add, hz, mul_neg_one]
      rw [coeff_fftRec_succ_high hp hlow, natCast_residue hp, Int.cast_sub, Int.cast_mul,
        Int.cast_natCast, Int.cast_natCast, Int.cast_natCast, heven i hlow, hodd i hlow, hw i (by omega), hpow, neg_sq,
        pow_right_comm z 2 i, mul_neg, sub_eq_add_neg]

variable [Fact p.Prime] {k : Nat} {z : ZMod p}

/-- The power of a root of unity of order 2^k at half its order. -/
theorem pow_half_eq_neg_one (hz : IsPrimitiveRoot z (2 ^ (k + 1))) : z ^ 2 ^ k = -1 :=
  (hz.pow (Nat.two_pow_pos _) (pow_succ 2 k)).eq_neg_one_of_two_right

/-- The transform over the power cycle of a root of unity evaluates the polynomial at each root (45_fft_interp.md R489 (a)). -/
theorem natCast_coeff_fftCore (hz : IsPrimitiveRoot z (2 ^ k)) (hw : ∀ i, i < 2 ^ k → (coeff w i : ZMod p) = z ^ i)
    (hi : i < 2 ^ k) :
    (coeff (fftCore p v w k) i : ZMod p) = ∑ j ∈ Finset.range (2 ^ k), (coeff v j : ZMod p) * (z ^ i) ^ j := by
  have hp : 0 < p := (Fact.out : p.Prime).pos
  match k with
  | 0 =>
    obtain rfl : i = 0 := by omega
    simp [fftCore]
  | 1 =>
    have hneg : z = -1 := by simpa using pow_half_eq_neg_one hz
    have hw0 : (coeff w 0 : ZMod p) = 1 := by simpa using hw 0 (by decide)
    obtain rfl | rfl : i = 0 ∨ i = 1 := by omega
    · simp [fftCore_one hp, hw0, Finset.sum_range_succ]
    · simp [fftCore_one hp, natCast_residue hp, hw0, hneg, Finset.sum_range_succ, sub_eq_add_neg]
  | k + 2 =>
    have h := natCast_coeff_fftRec (v := v) (step := 1) (offset := 0) hp (pow_half_eq_neg_one hz)
      (fun i hi => by rw [Nat.mul_one, hw i hi]) hi
    rw [fftCore, h]
    simp only [Nat.zero_add, Nat.mul_one]

/-- The sum over a power cycle of the powers of one quotient of two roots: the quotient is 1, or its powers add up to 0. -/
theorem sum_pow_mul_inv_pow {n l i : Nat} (hz : IsPrimitiveRoot z n) (hl : l < n) (hi : i < n) :
    ∑ j ∈ Finset.range n, (z ^ l * z⁻¹ ^ i) ^ j = if l = i then (n : ZMod p) else 0 := by
  have hz0 : z ^ i ≠ 0 := pow_ne_zero _ (hz.ne_zero (by omega))
  rw [inv_pow, ← div_eq_mul_inv]
  split
  next h => simp [h, div_self hz0]
  next h =>
    have hne : z ^ l / z ^ i - 1 ≠ 0 := sub_ne_zero.2 fun hq => h (hz.pow_inj hl hi ((div_eq_one_iff_eq hz0).1 hq))
    have hn : (z ^ l / z ^ i) ^ n = 1 := by
      rw [div_pow, pow_right_comm, pow_right_comm z i, hz.pow_eq_one, one_pow, one_pow, div_one]
    refine (mul_eq_zero.1 ?_).resolve_right hne
    rw [geom_sum_mul, hn, sub_self]

/-- The transform over the inverse cycle of a polynomial's values at the roots gives back each coefficient, n times. -/
theorem sum_values_mul_inv_pow {n i : Nat} (hz : IsPrimitiveRoot z n) (c : Nat → ZMod p) (hi : i < n) :
    ∑ j ∈ Finset.range n, (∑ l ∈ Finset.range n, c l * (z ^ j) ^ l) * (z⁻¹ ^ i) ^ j = n * c i := by
  calc ∑ j ∈ Finset.range n, (∑ l ∈ Finset.range n, c l * (z ^ j) ^ l) * (z⁻¹ ^ i) ^ j
      = ∑ j ∈ Finset.range n, ∑ l ∈ Finset.range n, c l * (z ^ l * z⁻¹ ^ i) ^ j := by
        refine Finset.sum_congr rfl fun j _ => ?_
        rw [Finset.sum_mul]
        refine Finset.sum_congr rfl fun l _ => ?_
        rw [mul_pow, pow_right_comm z j l, mul_assoc]
    _ = ∑ l ∈ Finset.range n, c l * if l = i then (n : ZMod p) else 0 := by
        rw [Finset.sum_comm]
        refine Finset.sum_congr rfl fun l hl => ?_
        rw [← Finset.mul_sum, sum_pow_mul_inv_pow hz (Finset.mem_range.1 hl) hi]
    _ = n * c i := by simp [hi, mul_comm]

/-- The statements' root of unity is a primitive root of the field (46_roots_twiddle.md R501). -/
theorem RootOfUnity.isPrimitiveRoot {w : Nat} (h : RootOfUnity p k w) : IsPrimitiveRoot (w : ZMod p) (2 ^ k) := by
  have hpow : ∀ m, (w : ZMod p) ^ m = 1 ↔ w ^ m % p = 1 := fun m => by
    rw [← Nat.cast_pow, ← Nat.cast_one, ZMod.natCast_eq_natCast_iff', Nat.mod_eq_of_lt (Fact.out : p.Prime).one_lt]
  obtain ⟨hone, hhalf⟩ := h
  cases k with
  | zero => exact IsPrimitiveRoot.one_right_iff.2 (by simpa using (hpow _).2 hone)
  | succ k =>
    have hne : ¬(w : ZMod p) ^ 2 ^ k = 1 := fun h1 => hhalf k.succ_ne_zero ((hpow _).1 h1)
    exact IsPrimitiveRoot.iff_orderOf.2 (orderOf_eq_prime_pow hne ((hpow _).2 hone))

/-- The reversed roots of a power cycle are the power cycle of the inverse root (45_fft_interp.md R483). -/
theorem natCast_coeff_reversedRoots {n : Nat} (hz : IsPrimitiveRoot z n) (hlen : w.length = n)
    (hw : ∀ i, i < n → (coeff w i : ZMod p) = z ^ i) (hi : i < n) : (coeff (reversedRoots w) i : ZMod p) = z⁻¹ ^ i := by
  rw [reversedRoots, coeff_map_range, hlen, if_pos hi]
  split
  next h => rw [h, Nat.cast_one, pow_zero]
  next h =>
    have hmul : z ^ (n - i) * z ^ i = 1 := by rw [← pow_add, Nat.sub_add_cancel hi.le, hz.pow_eq_one]
    rw [hw _ (by omega), inv_pow, eq_inv_of_mul_eq_one_left hmul]

/-- The inverse FFT of a polynomial's values at the power cycle gives the coefficients (45_fft_interp.md R489 (b)). -/
theorem natCast_coeff_ifftCore (hz : IsPrimitiveRoot z (2 ^ k)) (hlen : w.length = 2 ^ k)
    (hw : ∀ i, i < 2 ^ k → (coeff w i : ZMod p) = z ^ i) (c : Nat → ZMod p)
    (hv : ∀ j, j < 2 ^ k → (coeff v j : ZMod p) = ∑ l ∈ Finset.range (2 ^ k), c l * (z ^ j) ^ l) (hi : i < 2 ^ k) :
    (coeff (ifftCore p w v k) i : ZMod p) = c i := by
  have hne : NeZero ((2 ^ k : Nat) : ZMod p) := hz.neZero'
  have hscale : coeff (ifftCore p w v k) i =
      fieldMul p (coeff (fftCore p v (reversedRoots w) k) i) (fieldInv p (2 ^ k % p)) :=
    coeff_map_of_lt _ (by simpa using hi)
  have htransform : (coeff (fftCore p v (reversedRoots w) k) i : ZMod p) = (2 ^ k : Nat) * c i := by
    rw [natCast_coeff_fftCore hz.inv (fun i hi => natCast_coeff_reversedRoots hz hlen hw hi) hi,
      ← sum_values_mul_inv_pow hz c hi]
    exact Finset.sum_congr rfl fun j hj => by rw [hv j (Finset.mem_range.1 hj)]
  rw [hscale, natCast_fieldMul, htransform, natCast_fieldInv (Nat.mod_lt _ (Fact.out : p.Prime).pos), ZMod.natCast_mod,
    mul_right_comm, mul_inv_cancel₀ hne.out, one_mul]

end Transform

/-! ### FFT and IFFT -/

/-- The polynomial of FFT, zero-padded to the domain (45_fft_interp.md R482). -/
def paddedArray (s : State) (base n m : Nat) : List Nat := loadArray s base n ++ List.replicate (m - n) 0

theorem coeff_paddedArray (s : State) (base n m i : Nat) :
    coeff (paddedArray s base n m) i = if i < n then loadF s base i else 0 := by
  rw [paddedArray, coeff_append_replicate_zero, coeff_loadArray]

theorem paddedArray_canonical {s : State} (hp : 0 < s.modulus) (base n m : Nat) :
    Canonical s.modulus (paddedArray s base n m) :=
  (loadArray_canonical hp base n).append fun v hv => by rwa [List.eq_of_mem_replicate hv]

theorem isPowerOfTwo_two_pow (k : Nat) : isPowerOfTwo (2 ^ k) = true :=
  (isPowerOfTwo_iff _).2 ⟨k, Nat.lt_two_pow_self, rfl⟩

/-- FFT, ready and admitted, stores the transform of the padded polynomial (45_fft_interp.md R482). -/
theorem fft_stored {s : State} {dst a b n k : Nat} (h : Ready s) (hn : n ≤ 2 ^ k)
    (ha : Admitted s dst (2 ^ k) [(a, n), (b, 2 ^ k)]) :
    ∃ t, exec (.fft dst a b n (2 ^ k)) s = .next t ∧
      Stored s t dst (fftCore s.modulus (paddedArray s a n (2 ^ k)) (loadArray s b (2 ^ k)) k) := by
  have hcheck : (fftShape dst a b n (2 ^ k)).check = none := by simp [fftShape, require, isPowerOfTwo_two_pow, hn]
  refine runData_stored (sh := fftShape dst a b n (2 ^ k)) h hcheck rfl ha ?_ (fftCore_length ..).le
    (fftCore_canonical h.modulus_pos (paddedArray_canonical h.modulus_pos a n _) _ k)
  rw [Nat.log2_two_pow, paddedArray]

/-- IFFT, ready and admitted, stores the inverse transform (45_fft_interp.md R484). -/
theorem ifft_stored {s : State} {dst a b k : Nat} (h : Ready s) (ha : Admitted s dst (2 ^ k) [(a, 2 ^ k), (b, 2 ^ k)]) :
    ∃ t, exec (.ifft dst a b (2 ^ k) (2 ^ k)) s = .next t ∧
      Stored s t dst (ifftCore s.modulus (loadArray s a (2 ^ k)) (loadArray s b (2 ^ k)) k) := by
  have hcheck : (ifftShape dst a b (2 ^ k) (2 ^ k)).check = none := by
    simp [ifftShape, isPowerOfTwo_two_pow, require]
  refine runData_stored (sh := ifftShape dst a b (2 ^ k) (2 ^ k)) h hcheck rfl ha ?_ (ifftCore_length ..).le
    (ifftCore_canonical h.modulus_pos _ _ k)
  rw [Nat.log2_two_pow]

/-! ### The recursion by depth, as R481 writes it -/

/-- Element `i` of `rec(depth, offset)` on a domain of 2^k elements (45_fft_interp.md R481). -/
def recElement (p : Nat) (v w : List Nat) (k depth offset i : Nat) : Nat :=
  coeff (fftRec p v w (k - 2 - depth) (2 ^ depth) offset) i

section Depth

variable {p k depth offset i : Nat} {v w : List Nat}

theorem recElement_base (hi : i < 4) :
    recElement p v w k (k - 2) offset i =
      (∑ j ∈ Finset.range 4, coeff v (offset + j * 2 ^ (k - 2)) * coeff w (i * j % 4 * 2 ^ (k - 2))) % p := by
  rw [recElement, Nat.sub_self, coeff_fftRec_zero hi]

/-- The level of a call above the base case, and the exponent of half its length, from the level of the calls it makes. -/
theorem level_eq_succ (hd : depth + 3 ≤ k) :
    k - 2 - depth = k - 2 - (depth + 1) + 1 ∧ k - depth - 1 = k - 2 - (depth + 1) + 2 := ⟨by omega, by omega⟩

theorem recElement_low (hd : depth + 3 ≤ k) (hi : i < 2 ^ (k - depth - 1)) :
    recElement p v w k depth offset i =
      (recElement p v w k (depth + 1) offset i +
        recElement p v w k (depth + 1) (offset + 2 ^ depth) i * coeff w (i * 2 ^ depth)) % p := by
  obtain ⟨hlevel, hhalf⟩ := level_eq_succ hd
  rw [recElement, hlevel, coeff_fftRec_succ_low (hhalf ▸ hi), ← pow_succ', recElement, recElement]

theorem recElement_high (hp : 0 < p) (hd : depth + 3 ≤ k) (hi : i < 2 ^ (k - depth - 1)) :
    recElement p v w k depth offset (i + 2 ^ (k - depth - 1)) =
      residue p ((recElement p v w k (depth + 1) offset i : Int) -
        recElement p v w k (depth + 1) (offset + 2 ^ depth) i * coeff w (i * 2 ^ depth)) := by
  obtain ⟨hlevel, hhalf⟩ := level_eq_succ hd
  rw [hhalf] at hi ⊢
  rw [recElement, hlevel, coeff_fftRec_succ_high hp hi, ← pow_succ', recElement, recElement]

end Depth

/-! ### The statements about FFT and IFFT -/

/-- Settles O49: the transform of the padded polynomial, its elements by depth and offset as the calls of the recursion. -/
theorem fftFollowsRecursion : Obligations.FftFollowsRecursion := by
  intro s dst a b n k h hn ha
  have hp := h.modulus_pos
  obtain ⟨t, ht, hst⟩ := fft_stored h hn ha
  refine ⟨t, _, ht, hst, fftCore_length .., ?_⟩
  intro v w
  have hv : ∀ i, v i = coeff (paddedArray s a n (2 ^ k)) i := fun i => (coeff_paddedArray s a n _ i).symm
  have hw : ∀ i, i < 2 ^ k → w i = coeff (loadArray s b (2 ^ k)) i := fun i hi =>
    ((coeff_loadArray s b _ i).trans (if_pos hi)).symm
  refine ⟨?_, ?_, fun hk => ⟨recElement s.modulus (paddedArray s a n (2 ^ k)) (loadArray s b (2 ^ k)) k, ?_, ?_, ?_⟩⟩
  · rintro rfl
    rw [hv, fftCore]
  · rintro rfl
    rw [hv, hv, hw 0 (by decide), fftCore_one hp]
  · intro offset i hi
    rw [recElement_base hi]
    refine congrArg (· % s.modulus) (Finset.sum_congr rfl fun j _ => ?_)
    have hlt : i * j % 4 * 2 ^ (k - 2) < 2 ^ k := calc
      i * j % 4 * 2 ^ (k - 2)
          < 2 ^ 2 * 2 ^ (k - 2) := Nat.mul_lt_mul_of_pos_right (Nat.mod_lt _ (by decide)) (Nat.two_pow_pos _)
      _ = 2 ^ k := by rw [← pow_add, Nat.add_sub_cancel' hk]
    rw [hv, hw _ hlt]
  · intro depth offset i hd hi
    have hlt : i * 2 ^ depth < 2 ^ k := calc
      i * 2 ^ depth
          < 2 ^ (k - depth - 1) * 2 ^ depth := Nat.mul_lt_mul_of_pos_right hi (Nat.two_pow_pos _)
      _ ≤ 2 ^ k := by rw [← pow_add]; exact Nat.pow_le_pow_right (by decide) (by omega)
    rw [hw _ hlt]
    exact ⟨recElement_low hd hi, recElement_high hp hd hi⟩
  · intro i _
    obtain ⟨k, rfl⟩ := Nat.exists_eq_add_of_le' hk
    rfl

/-- Settles O50: the elements are canonical and, in ZMod P, the values at the roots. -/
theorem fftEvaluatesAtRoots : Obligations.FftEvaluatesAtRoots := by
  intro s dst a b n k w h hprime hn ha hroot hw
  have hfact : Fact s.modulus.Prime := ⟨hprime⟩
  have hp := h.modulus_pos
  obtain ⟨t, ht, hst⟩ := fft_stored h hn ha
  have hload : ∀ i, i < 2 ^ k → (loadF s b i : ZMod s.modulus) = (w : ZMod s.modulus) ^ i := fun i hi => by
    rw [hw i hi, ZMod.natCast_mod, Nat.cast_pow]
  have hval : fftCore s.modulus (paddedArray s a n (2 ^ k)) (loadArray s b (2 ^ k)) k =
      (List.range (2 ^ k)).map fun i => (∑ j ∈ Finset.range n, loadF s a j * loadF s b i ^ j) % s.modulus := by
    refine canonical_ext (fftCore_canonical hp (paddedArray_canonical hp a n _) _ k)
      (Canonical.map _ fun _ => Nat.mod_lt _ hp) (by simp) fun i hi => ?_
    rw [fftCore_length] at hi
    rw [natCast_coeff_fftCore hroot.isPrimitiveRoot
      (fun i hi => by rw [coeff_loadArray, if_pos hi, hload i hi]) hi, coeff_map_range, if_pos hi, ZMod.natCast_mod,
      Nat.cast_sum, ← hload i hi]
    refine (Finset.sum_subset (Finset.range_subset_range.2 hn) fun j _ hj => ?_).symm.trans
      (Finset.sum_congr rfl fun j hj => ?_)
    · rw [coeff_paddedArray, if_neg (by simpa using hj), Nat.cast_zero, zero_mul]
    · rw [coeff_paddedArray, if_pos (Finset.mem_range.1 hj), Nat.cast_mul, Nat.cast_pow]
  exact ⟨t, ht, hval ▸ hst⟩

/-- Settles O51: `rev` of the loaded roots is written out, and the scale is a field product. -/
theorem ifftCompletes : Obligations.IfftCompletes := by
  intro s dst a b k h ha
  have hrev : reversedRoots (loadArray s a (2 ^ k)) =
      (List.range (2 ^ k)).map fun j => if j = 0 then 1 else loadF s a (2 ^ k - j) := by
    rw [reversedRoots, loadArray_length]
    refine List.map_congr_left fun j hj => ?_
    have hlt := List.mem_range.1 hj
    split
    · rfl
    · rw [coeff_loadArray, if_pos (by omega)]
  obtain ⟨t, ht, hst⟩ := ifft_stored h ha
  rw [ifftCore, hrev] at hst
  exact ⟨t, ht, hst⟩

/-- Settles O52: both lists are canonical and, in ZMod P, their elements are the coefficients. -/
theorem ifftInvertsFft : Obligations.IfftInvertsFft := by
  intro s dst a b k w c h hprime ha hroot hw hlen hc hys
  have hfact : Fact s.modulus.Prime := ⟨hprime⟩
  obtain ⟨t, ht, hst⟩ := ifft_stored h ha
  have hval : ifftCore s.modulus (loadArray s a (2 ^ k)) (loadArray s b (2 ^ k)) k = c := by
    refine canonical_ext (ifftCore_canonical h.modulus_pos _ _ k) hc (by simp [hlen]) fun i hi => ?_
    rw [ifftCore_length] at hi
    refine natCast_coeff_ifftCore hroot.isPrimitiveRoot (loadArray_length ..) (fun i hi => ?_)
      (fun l => (coeff c l : ZMod s.modulus)) (fun j hj => ?_) hi
    · rw [coeff_loadArray, if_pos hi, hw i hi, ZMod.natCast_mod, Nat.cast_pow]
    · rw [coeff_loadArray, if_pos hj, hys j hj, ZMod.natCast_mod]
      push_cast
      rfl
  exact ⟨t, ht, hval ▸ hst⟩

end Sys2Proof

/-! PROOFS of the statements about the interpolations (45_fft_interp.md R485 to R488). -/

namespace Sys2Proof

open Machine
open Polynomial (X C)
open Lagrange (nodal)

/-! ### Lists of coefficients as polynomials -/

/-- Canonical lists of one length that stand for the same polynomial are equal. -/
theorem eq_of_toPolynomial_eq {p : Nat} {l m : List Nat} (hl : Canonical p l) (hm : Canonical p m)
    (hlen : l.length = m.length) (h : toPolynomial p l = toPolynomial p m) : l = m :=
  canonical_ext hl hm hlen fun i _ => by rw [← coeff_toPolynomial, h, coeff_toPolynomial]

/-- `poly_eval` is the value of the polynomial the list stands for (44_polynomial.md R469). -/
theorem natCast_polyEval (p : Nat) (l : List Nat) (x : Nat) :
    (polyEval p l x : ZMod p) = (toPolynomial p l).eval (x : ZMod p) := by
  induction l with
  | nil => simp [polyEval, toPolynomial]
  | cons c l ih =>
    rw [polyEval_cons, ZMod.natCast_mod, Nat.cast_add, Nat.cast_mul, ih, toPolynomial]
    simp [mul_comm]

theorem natCast_fieldAdd (p x y : Nat) : (fieldAdd p x y : ZMod p) = x + y := by
  rw [fieldAdd_eq, ZMod.natCast_mod, Nat.cast_add]

theorem natCast_fieldNeg {p : Nat} (hp : 0 < p) (x : Nat) : (fieldNeg p x : ZMod p) = -x := by
  rw [fieldNeg_eq_residue hp, natCast_residue hp, Int.cast_neg, Int.cast_natCast]

/-- One update of the result adds a multiple of the numerator (45_fft_interp.md R485 step 5). -/
theorem toPolynomial_accumulate (p f : Nat) {acc num : List Nat} (hlen : num.length ≤ acc.length) :
    toPolynomial p (accumulate p acc f num) = toPolynomial p acc + C (f : ZMod p) * toPolynomial p num := by
  ext j
  rw [coeff_toPolynomial, accumulate, coeff_map_range, Polynomial.coeff_add, Polynomial.coeff_C_mul, coeff_toPolynomial,
    coeff_toPolynomial]
  split
  · rw [natCast_fieldAdd, natCast_fieldMul]
  · rw [coeff_of_length_le (l := acc) (by omega), coeff_of_length_le (l := num) (by omega)]
    simp

theorem toPolynomial_replicate_zero (p n : Nat) : toPolynomial p (List.replicate n 0) = 0 := by
  ext j
  rw [← List.nil_append (List.replicate n 0), coeff_toPolynomial, coeff_append_replicate_zero]
  simp [coeff]

/-! ### The sum over the points, with given numerators -/

/-- The accumulation that R485 and R487 share: each numerator times its y and the inverse of its value at its own x. -/
def interpolant (p n : Nat) (x y : Nat → Nat) (num : Nat → List Nat) : List Nat :=
  (List.range n).foldl
    (fun acc i => accumulate p acc (fieldMul p (y i) (fieldInv p (polyEval p (num i) (x i)))) (num i)) (List.replicate n 0)

/-- The points x as elements of ZMod p. -/
def nodes (p : Nat) (x : Nat → Nat) (i : Nat) : ZMod p := x i

/-- The Lagrange sum of R485 over ZMod p, with 0⁻¹ = 0. -/
noncomputable def lagrangeSum (p n : Nat) [Fact p.Prime] (x y : Nat → Nat) : Polynomial (ZMod p) :=
  ∑ i ∈ Finset.range n, C ((y i : ZMod p) * (∏ m ∈ (Finset.range n).erase i, (nodes p x i - nodes p x m))⁻¹) *
    nodal ((Finset.range n).erase i) (nodes p x)

/-- The numerators are the products of the `X - x_m` over the other points (45_fft_interp.md R485, R487). -/
structure Numerators (p n : Nat) (x : Nat → Nat) (num : Nat → List Nat) : Prop where
  length_le : ∀ i, i < n → (num i).length ≤ n
  toPolynomial_eq : ∀ i, i < n → toPolynomial p (num i) = nodal ((Finset.range n).erase i) (nodes p x)

section Interpolant

variable {p n : Nat} {x y : Nat → Nat} {num : Nat → List Nat}

theorem foldl_accumulate_length (l : List Nat) (f : Nat → Nat) (acc : List Nat) :
    (l.foldl (fun acc i => accumulate p acc (f i) (num i)) acc).length = acc.length := by
  induction l generalizing acc with
  | nil => rfl
  | cons i l ih => rw [List.foldl_cons, ih, accumulate_length]

/-- The accumulation from zero stands for the sum of the weighted numerators. -/
theorem toPolynomial_foldl_accumulate (f : Nat → Nat) (k : Nat) (hlen : ∀ i, i < k → (num i).length ≤ n) :
    toPolynomial p ((List.range k).foldl (fun acc i => accumulate p acc (f i) (num i)) (List.replicate n 0)) =
      ∑ i ∈ Finset.range k, C (f i : ZMod p) * toPolynomial p (num i) := by
  induction k with
  | zero => exact toPolynomial_replicate_zero p n
  | succ k ih =>
    have hk : (num k).length ≤
        ((List.range k).foldl (fun acc i => accumulate p acc (f i) (num i)) (List.replicate n 0)).length := by
      rw [foldl_accumulate_length, List.length_replicate]
      exact hlen k k.lt_succ_self
    rw [List.range_succ, List.foldl_concat, toPolynomial_accumulate p _ hk, ih fun i hi => hlen i (by omega),
      Finset.sum_range_succ]

variable [Fact p.Prime]

theorem toPolynomial_interpolant (h : Numerators p n x num) :
    toPolynomial p (interpolant p n x y num) = lagrangeSum p n x y := by
  have hp : 0 < p := (Fact.out : p.Prime).pos
  rw [interpolant, toPolynomial_foldl_accumulate _ n h.length_le]
  refine Finset.sum_congr rfl fun i hi => ?_
  have hnum := h.toPolynomial_eq i (Finset.mem_range.1 hi)
  rw [natCast_fieldMul, natCast_fieldInv (polyEval_lt hp _ _), natCast_polyEval, hnum]
  exact congrArg (fun d => C ((y i : ZMod p) * d⁻¹) * _) Lagrange.eval_nodal

/-- At a point whose x no other point has, the Lagrange sum takes the value y. -/
theorem eval_lagrangeSum {i : Nat} (hi : i < n) (hx : ∀ m, m < n → m ≠ i → nodes p x i ≠ nodes p x m) :
    (lagrangeSum p n x y).eval (nodes p x i) = y i := by
  rw [lagrangeSum, Polynomial.eval_finsetSum]
  refine (Finset.sum_eq_single_of_mem i (Finset.mem_range.2 hi) fun m _ hmi => ?_).trans ?_
  · rw [Polynomial.eval_mul,
      Lagrange.eval_nodal_at_node (Finset.mem_erase.2 ⟨hmi.symm, Finset.mem_range.2 hi⟩), mul_zero]
  · have hden : ∏ m ∈ (Finset.range n).erase i, (nodes p x i - nodes p x m) ≠ 0 :=
      Finset.prod_ne_zero_iff.2 fun m hm => by
        obtain ⟨hne, hlt⟩ := Finset.mem_erase.1 hm
        exact sub_ne_zero.2 (hx m (Finset.mem_range.1 hlt) hne)
    rw [Polynomial.eval_mul, Polynomial.eval_C, Lagrange.eval_nodal, inv_mul_cancel_right₀ hden]

end Interpolant

/-! ### `lagrange` (45_fft_interp.md R485) -/

section LagrangeFunction

variable {p n : Nat} {x y : Nat → Nat}

/-- The vanishing polynomial of the points is Mathlib's nodal polynomial. -/
theorem toPolynomial_vanishing_map (hp : 0 < p) :
    toPolynomial p (vanishing p ((List.range n).map x)) = nodal (Finset.range n) (nodes p x) := by
  rw [toPolynomial_vanishing hp, List.map_map]
  rfl

/-- The divisor `x - x_i` of R485. -/
theorem toPolynomial_linear (hp : 0 < p) (a : Nat) : toPolynomial p [fieldNeg p a, 1] = X - C (a : ZMod p) := by
  simp [toPolynomial, natCast_fieldNeg hp, sub_eq_add_neg]

theorem lastNonzero_linear (a : Nat) : lastNonzero [a, 1] = some 1 := lastNonzero_eq_some one_ne_zero fun _ hi =>
  coeff_of_length_le hi

variable [Fact p.Prime]

/-- The vanishing polynomial of n points is monic of degree n. -/
theorem coeff_vanishing_ne_zero : coeff (vanishing p ((List.range n).map x)) n ≠ 0 := fun h => by
  have hcoeff : (nodal (Finset.range n) (nodes p x)).coeff n = 1 := by
    simpa using (Lagrange.nodal_monic (s := Finset.range n) (v := nodes p x)).coeff_natDegree
  rw [← toPolynomial_vanishing_map (Fact.out : p.Prime).pos, coeff_toPolynomial, h, Nat.cast_zero] at hcoeff
  exact zero_ne_one hcoeff

/-- A quotient by `X - a` that leaves a constant is the cofactor, where `X - a` is a factor. -/
theorem quotient_eq_cofactor {f q r : Polynomial (ZMod p)} {a : ZMod p} (hf : f = (X - C a) * r)
    (hrem : ∀ j, 1 ≤ j → (f - (X - C a) * q).coeff j = 0) : q = r := by
  have hmonic := Polynomial.monic_X_sub_C a
  have hdegree : (f - (X - C a) * q).degree < (X - C a).degree := by
    rw [Polynomial.degree_X_sub_C]
    exact (Polynomial.degree_lt_iff_coeff_zero _ 1).2 hrem
  have hq := (Polynomial.div_modByMonic_unique q _ hmonic ⟨sub_add_cancel f _, hdegree⟩).1
  have hr := (Polynomial.div_modByMonic_unique r 0 hmonic ⟨(zero_add _).trans hf.symm, by simp⟩).1
  exact hq.symm.trans hr

/-- Numerator `i` of R485, over the points x. -/
def lagrangeNum (p n : Nat) (x : Nat → Nat) (i : Nat) : List Nat :=
  lagrangeNumerator p (vanishing p ((List.range n).map x)) (x i)

/-- The division of R485 is exact: its divisor is a factor of the vanishing polynomial. -/
theorem numerators_lagrangeNum : Numerators p n x (lagrangeNum p n x) := by
  have hp : p.Prime := Fact.out
  have habove : ∀ j, n < j → coeff (vanishing p ((List.range n).map x)) j = 0 := fun j hj =>
    coeff_of_length_le (by simpa using hj)
  have hquot : ∀ i, i < n → lagrangeNum p n x i =
      longDivision p (vanishing p ((List.range n).map x)) [fieldNeg p (x i), 1] n 1 := fun i hi => by
    rw [lagrangeNum, lagrangeNumerator,
      polyDiv_eq_ok (lastNonzero_linear _) (lastNonzero_eq_some coeff_vanishing_ne_zero habove) (by omega)]
  refine ⟨fun i hi => ?_, fun i hi => ?_⟩
  · rw [hquot i hi, longDivision_length]
    omega
  · have hlead : Nat.Coprime (coeff [fieldNeg p (x i), 1] 1) p := Nat.coprime_one_left p
    have hrem := coeff_remainder_longDivision hp.two_le hlead (fun j hj => coeff_of_length_le hj)
      coeff_vanishing_ne_zero habove (by omega)
    simp only [remainder, toPolynomial_linear hp.pos, toPolynomial_vanishing_map hp.pos] at hrem
    rw [hquot i hi]
    exact quotient_eq_cofactor (Lagrange.nodal_eq_mul_nodal_erase (Finset.mem_range.2 hi)) hrem

theorem batchInv_eq_map_of_canonical {v : List Nat} (hv : Canonical p v) : batchInv p v = v.map (fieldInv p) :=
  batchInv_eq_map fun a ha => (eq_or_ne a 0).imp_right fun h0 => (Nat.coprime_of_lt_prime h0 (hv a ha) Fact.out).symm

/-- `lagrange` is the accumulation with the numerators of its division. -/
theorem lagrange_eq_interpolant :
    lagrange p ((List.range n).map x) ((List.range n).map y) = interpolant p n x y (lagrangeNum p n x) := by
  have hp : p.Prime := Fact.out
  simp only [lagrange]
  rw [batchInv_eq_map_of_canonical (Canonical.map _ fun _ => polyEval_lt hp.pos _ _)]
  simp only [List.map_map, List.zip_map', List.foldl_map, List.length_map, List.length_range]
  rfl

/-- `lagrange` stands for the Lagrange sum, repeated points included. -/
theorem toPolynomial_lagrange :
    toPolynomial p (lagrange p ((List.range n).map x) ((List.range n).map y)) = lagrangeSum p n x y := by
  rw [lagrange_eq_interpolant, toPolynomial_interpolant numerators_lagrangeNum]

end LagrangeFunction

/-! ### `qbatch` (45_fft_interp.md R487) -/

section QuarticBatch

variable {p n : Nat} {x y : Nat → Nat}

/-- The expanded form of R487 is the product of the linear factors of the row's other three points. -/
theorem toPolynomial_quarticCubic (hp : 0 < p) (row : List Nat) (k : Nat) :
    toPolynomial p (quarticCubic p row k) =
      (X - C (coeff (row.eraseIdx k) 0 : ZMod p)) *
        ((X - C (coeff (row.eraseIdx k) 1 : ZMod p)) * (X - C (coeff (row.eraseIdx k) 2 : ZMod p))) := by
  simp only [quarticCubic, toPolynomial, natCast_fieldNeg hp, natCast_fieldAdd, natCast_fieldMul, Nat.cast_one, map_neg,
    map_add, map_mul, map_one]
  ring

/-- The product over all points but one, as the product of a list. -/
theorem nodal_erase_eq_list_prod {R : Type*} [CommRing R] (n i : Nat) (v : Nat → R) :
    nodal ((Finset.range n).erase i) v = (((List.range n).erase i).map fun m => X - C (v m)).prod := rfl

/-- The cubics of a row are its numerators (45_fft_interp.md R487). -/
theorem numerators_quarticCubic (hp : 0 < p) : Numerators p 4 x (quarticCubic p ((List.range 4).map x)) := by
  refine ⟨fun _ _ => Nat.le_refl 4, fun i hi => ?_⟩
  have herase : ∀ i < 4, (List.range 4).erase i = (List.range 4).eraseIdx i := by decide
  obtain ⟨l, m, r, hothers⟩ : ∃ l m r, (List.range 4).eraseIdx i = [l, m, r] :=
    List.length_eq_three.1 (by simp [List.length_eraseIdx, hi])
  rw [toPolynomial_quarticCubic hp, List.eraseIdx_map, nodal_erase_eq_list_prod, herase i hi, hothers]
  simp [nodes]

variable [Fact p.Prime]

/-- A row's accumulation, with the inverses of its own four denominators, is what `lagrange` gives for the row. -/
theorem quarticRow_eq_lagrange {invs : List Nat}
    (h : ∀ k, k < 4 → coeff invs k = fieldInv p (polyEval p (quarticCubic p ((List.range 4).map x) k) (x k))) :
    quarticRow p ((List.range 4).map x) ((List.range 4).map y) invs =
      lagrange p ((List.range 4).map x) ((List.range 4).map y) := by
  have hp : 0 < p := (Fact.out : p.Prime).pos
  have hrow : quarticRow p ((List.range 4).map x) ((List.range 4).map y) invs =
      interpolant p 4 x y (quarticCubic p ((List.range 4).map x)) := by
    refine List.foldl_ext _ _ _ fun acc k hk => ?_
    rw [h k (List.mem_range.1 hk), coeff_map_range, if_pos (List.mem_range.1 hk)]
  refine eq_of_toPolynomial_eq (quarticRow_canonical hp _ _ _) (lagrange_canonical hp _ _) (by simp) ?_
  rw [hrow, toPolynomial_interpolant (numerators_quarticCubic hp), toPolynomial_lagrange]

/-- An inverse of row `r` in the one batch inversion stands at its row-major index (45_fft_interp.md R487). -/
theorem coeff_take_drop_rowMajor (f : Nat → Nat → Nat) {r k : Nat} (hr : r < n) (hk : k < 4) :
    coeff ((((List.range n).flatMap fun r => (List.range 4).map (f r)).drop (4 * r)).take 4) k = f r k := by
  rw [coeff, List.getD_eq_getElem?_getD, List.getElem?_take_of_lt hk, List.getElem?_drop, Nat.mul_comm,
    rowMajor_getElem? f hr hk, Option.getD_some]

/-- `qbatch` is `lagrange` row by row (45_fft_interp.md R487). -/
theorem quarticBatch_eq_flatMap_lagrange (x y : Nat → Nat → Nat) :
    quarticBatch p ((List.range n).map fun r => (List.range 4).map (x r))
        ((List.range n).map fun r => (List.range 4).map (y r)) =
      (List.range n).flatMap fun r => lagrange p ((List.range 4).map (x r)) ((List.range 4).map (y r)) := by
  have hp : 0 < p := (Fact.out : p.Prime).pos
  simp only [quarticBatch, List.length_map, List.length_range]
  rw [batchInv_eq_map_of_canonical (Canonical.flatMap _ fun _ => Canonical.map _ fun _ => polyEval_lt hp _ _),
    List.flatMap_map, List.map_flatMap]
  simp only [List.map_map]
  refine List.flatMap_congr fun r hr => ?_
  have hlt := List.mem_range.1 hr
  have hrow : ∀ z : Nat → Nat → Nat,
      ((List.range n).map fun r => (List.range 4).map (z r)).getD r [] = (List.range 4).map (z r) := fun z => by simp [hlt]
  rw [hrow, hrow]
  refine quarticRow_eq_lagrange fun k hk => ?_
  rw [coeff_take_drop_rowMajor _ hlt hk, Function.comp_apply, coeff_map_range, if_pos hk]

end QuarticBatch

/-! ### The statements about LAGRANGE and QBATCH -/

/-- LAGRANGE, ready and admitted, stores what `lagrange` gives (45_fft_interp.md R486). -/
theorem lagrange_stored {s : State} {dst a b n : Nat} (h : Ready s) (ha : Admitted s dst n [(a, n), (b, n)]) :
    ∃ t, exec (.lagrange dst a b n n) s = .next t ∧
      Stored s t dst (lagrange s.modulus (loadArray s a n) (loadArray s b n)) :=
  vv_stored h rfl ha rfl (by simp) (lagrange_canonical h.modulus_pos _ _)

/-- Settles O53: the elements are the coefficients of the Lagrange sum. -/
theorem lagrangeFormula : Obligations.LagrangeFormula := by
  intro s dst a b n h ha
  obtain ⟨t, ht, hst⟩ := lagrange_stored h ha
  refine ⟨t, _, ht, hst, by simp, lagrange_canonical h.modulus_pos _ _, fun hprime => ?_⟩
  have hfact : Fact s.modulus.Prime := ⟨hprime⟩
  intro x y j _
  rw [← coeff, ← coeff_toPolynomial, loadArray, loadArray, toPolynomial_lagrange]
  rfl

/-- Settles O54: the Lagrange sum takes the value y_i at x_i, where no other point has that x. -/
theorem lagrangeInterpolates : Obligations.LagrangeInterpolates := by
  intro s dst a b n h hprime ha hdistinct
  have hfact : Fact s.modulus.Prime := ⟨hprime⟩
  have hp := h.modulus_pos
  have hinj := CharP.natCast_injOn_Iio (ZMod s.modulus) s.modulus
  obtain ⟨t, ht, hst⟩ := lagrange_stored h ha
  have hlen : (lagrange s.modulus (loadArray s a n) (loadArray s b n)).length = n := by simp
  refine ⟨t, _, ht, hst, hlen, fun i hi => ?_⟩
  have hnodes : ∀ m, m < n → m ≠ i → nodes s.modulus (loadF s a) i ≠ nodes s.modulus (loadF s a) m :=
    fun m hm hne heq => hne (hdistinct m i hm hi (hinj (loadF_lt hp a i) (loadF_lt hp a m) heq).symm)
  have heval : polyEval s.modulus (lagrange s.modulus (loadArray s a n) (loadArray s b n)) (loadF s a i) = loadF s b i := by
    refine hinj (polyEval_lt hp _ _) (loadF_lt hp b i) ?_
    rw [natCast_polyEval, loadArray, loadArray, toPolynomial_lagrange]
    exact eval_lagrangeSum hi hnodes
  rw [polyEval_eq, hlen] at heval
  exact heval

/-- Settles O55: the cubics of a row are its numerators, and the one batch inversion inverts each denominator. -/
theorem qbatchIsRowwiseLagrange : Obligations.QbatchIsRowwiseLagrange := by
  intro s dst a b n h ha
  have hmany : decide (2 ^ 32 ≤ 4 * n) = false := decide_eq_false (Nat.not_le.2 (count_lt h ha.1 ha.2.1))
  have hlen : (quarticBatch s.modulus (loadRows s a n 4) (loadRows s b n 4)).length = 4 * n := by simp [loadRows]
  have hcanon := quarticBatch_canonical h.modulus_pos (loadRows s a n 4) (loadRows s b n 4)
  obtain ⟨t, ht, hst⟩ : ∃ t, exec (.qbatch dst a b n n) s = .next t ∧ Stored s t dst _ :=
    runData_stored h (require_beq_self n _) hmany ha rfl hlen.le hcanon
  refine ⟨t, _, ht, hst, hlen, hcanon, fun hprime => ?_⟩
  have hfact : Fact s.modulus.Prime := ⟨hprime⟩
  simp only [loadRows, quarticBatch_eq_flatMap_lagrange, Nat.mul_comm 4]

end Sys2Proof

/-! PROOFS of the statements about power cycles and roots of unity (46_roots_twiddle.md). -/

namespace Sys2Proof

open Machine

/-! ### The power cycle (46_roots_twiddle.md R500) -/

section Cycle

variable {p w : Nat}

/-- The cycle ends before a 1, whatever the room. -/
@[simp] theorem cycleFrom_one (p w room : Nat) : cycleFrom p w room 1 = some [] := by cases room <;> exact if_pos rfl

/-- A power other than 1 needs one element of the room, and the cycle goes on from the next power. -/
theorem cycleFrom_succ {room j : Nat} (h : w ^ j % p ≠ 1) :
    cycleFrom p w (room + 1) (w ^ j % p) = (cycleFrom p w room (w ^ (j + 1) % p)).map (w ^ j % p :: ·) := by
  rw [cycleFrom, if_neg h, fieldMul_eq, Nat.mod_mul_mod, ← pow_succ]

/-- Where the `m`-th next power is the next one that is 1 and the room holds those before it, the cycle is these. -/
theorem cycleFrom_eq_some {room j m : Nat} (hm : m ≤ room) (hone : w ^ (j + m) % p = 1)
    (hne : ∀ i, j ≤ i → i < j + m → w ^ i % p ≠ 1) :
    cycleFrom p w room (w ^ j % p) = some ((List.range' j m).map fun i => w ^ i % p) := by
  induction m generalizing room j with
  | zero => rw [Nat.add_zero] at hone; rw [hone, cycleFrom_one]; rfl
  | succ m ih =>
    obtain ⟨room, rfl⟩ : ∃ r, room = r + 1 := ⟨room - 1, by omega⟩
    rw [cycleFrom_succ (hne j (Nat.le_refl j) (by omega)),
      ih (by omega) (by rwa [Nat.add_right_comm]) fun i hi hlt => hne i (by omega) (by omega)]
    rfl

/-- Where none of the powers the room reaches is 1, the cycle does not fit. -/
theorem cycleFrom_eq_none {room j : Nat} (hne : ∀ i, j ≤ i → i ≤ j + room → w ^ i % p ≠ 1) :
    cycleFrom p w room (w ^ j % p) = none := by
  have hj := hne j (Nat.le_refl j) (Nat.le_add_right j room)
  induction room generalizing j with
  | zero => exact if_neg hj
  | succ room ih =>
    rw [cycleFrom_succ hj, ih (fun i hi hle => hne i (by omega) (by omega)) (hne _ (by omega) (by omega))]
    rfl

/-- With the least `l ≥ 1` that has `w^l = 1` within the capacity, the power cycle is the powers below `l`. -/
theorem powerCycle_eq_ok {cap l : Nat} (hp : 2 ≤ p) (hw : w < p) (hl : 1 ≤ l) (hcap : l ≤ cap) (hone : w ^ l % p = 1)
    (hmin : ∀ j, 1 ≤ j → j < l → w ^ j % p ≠ 1) :
    powerCycle p w cap = .ok ((List.range l).map fun i => w ^ i % p) := by
  obtain ⟨m, rfl⟩ : ∃ m, l = 1 + m := ⟨l - 1, by omega⟩
  obtain ⟨room, rfl⟩ : ∃ r, cap = r + 1 := ⟨cap - 1, by omega⟩
  have hrest := cycleFrom_eq_some (room := room) (by omega) hone hmin
  rw [pow_one, Nat.mod_eq_of_lt hw] at hrest
  rw [powerCycle, hrest, List.range_eq_range', Nat.add_comm, List.range'_succ, List.map_cons, pow_zero, Nat.mod_eq_of_lt hp]

/-- With no `w^j = 1` among the exponents from 1 to the capacity, the power cycle does not fit. -/
theorem powerCycle_eq_error {cap : Nat} (hw : w < p) (hne : ∀ j, 1 ≤ j → j ≤ cap → w ^ j % p ≠ 1) :
    powerCycle p w cap = .error .capacityExceeded := by
  cases cap with
  | zero => rfl
  | succ room =>
    have hrest := cycleFrom_eq_none (room := room) fun i hi hle => hne i hi (by omega)
    rw [pow_one, Nat.mod_eq_of_lt hw] at hrest
    rw [powerCycle, hrest]

end Cycle

/-- Settles O56: the evaluation is the power cycle of the loaded element, whose exponent is the least that gives 1. -/
theorem pcycleCompletes : Obligations.PcycleCompletes := by
  intro s dst b n h ha
  have hw := loadF_lt h.modulus_pos b 0
  refine ⟨fun l hl hn hone hmin => ?_, fun hne => ?_⟩
  · exact runData_stored h rfl rfl ha (powerCycle_eq_ok h.modulus_ge hw hl hn hone hmin) (by simpa using hn)
      (Canonical.map _ fun _ => Nat.mod_lt _ h.modulus_pos)
  · exact runData_error h.idle h.configured rfl rfl ha (powerCycle_eq_error hw hne)

/-! ### The search for a root (46_roots_twiddle.md R501) -/

/-- What the candidate `i` gives for the order 2^k: `i^floor((p−1)/2^k) mod p` (46_roots_twiddle.md R501). -/
def rootCandidate (p k i : Nat) : Nat := i ^ ((p - 1) / 2 ^ k) % p

/-- `i` is a candidate of the search for the order 2^k, and the search stops at it (46_roots_twiddle.md R501). -/
def Qualifies (p k i : Nat) : Prop :=
  2 ≤ i ∧ i < p ∧ rootCandidate p k i ^ 2 ^ k % p = 1 ∧ rootCandidate p k i ^ 2 ^ (k - 1) % p ≠ 1

/-- The search is for the first candidate whose power is a root of the order, and answers that power. -/
theorem rootSearch_eq_find? (p order fuel i : Nat) :
    rootSearch p order fuel i =
      ((List.range' i fuel).find? fun j => isRootOfOrder p order (fieldPow p j ((p - 1) / order))).map
        fun j => fieldPow p j ((p - 1) / order) := by
  induction fuel generalizing i with
  | zero => rfl
  | succ fuel ih =>
    rw [rootSearch, List.range'_succ, List.find?_cons]
    cases isRootOfOrder p order (fieldPow p i ((p - 1) / order)) with
    | true => rfl
    | false => exact ih (i + 1)

section Search

variable {p k : Nat}

theorem Qualifies.rootOfUnity {i : Nat} (h : Qualifies p k i) : RootOfUnity p k (rootCandidate p k i) := by
  obtain ⟨-, -, hone, hhalf⟩ := h
  exact ⟨hone, fun _ => hhalf⟩

/-- The test of the search passes for a candidate exactly when it qualifies, for the orders above 1. -/
theorem isRootOfOrder_rootCandidate_iff (hp : 2 ≤ p) (hk : k ≠ 0) {i : Nat} (hlo : 2 ≤ i) (hhi : i < p) :
    isRootOfOrder p (2 ^ k) (rootCandidate p k i) = true ↔ Qualifies p k i := by
  have hhalf : 2 ^ k / 2 = 2 ^ (k - 1) := by rw [← Nat.pow_div (Nat.one_le_iff_ne_zero.2 hk) two_pos, pow_one]
  simp [isRootOfOrder, Qualifies, fieldPow_eq hp, hhalf, hlo, hhi]

/-- For an order above 1 the literal search is over the candidates 2 to p − 1 (46_roots_twiddle.md R501). -/
theorem literalRoot_eq_find? (hp : 2 ≤ p) (hk : k ≠ 0) :
    literalRoot p (2 ^ k) =
      ((List.range' 2 (p - 2)).find? fun j => isRootOfOrder p (2 ^ k) (rootCandidate p k j)).map (rootCandidate p k) := by
  have horder : 2 ^ k ≠ 1 := (Nat.one_lt_two_pow hk).ne'
  simp only [literalRoot, if_neg horder, rootSearch_eq_find?, fieldPow_eq hp]
  rfl

/-- The literal search answers the power of the least candidate that qualifies. -/
theorem literalRoot_eq_some (hp : 2 ≤ p) (hk : k ≠ 0) {i : Nat} (hi : Qualifies p k i)
    (hmin : ∀ j, j < i → ¬Qualifies p k j) : literalRoot p (2 ^ k) = some (rootCandidate p k i) := by
  obtain ⟨hlo, hhi, -⟩ := id hi
  rw [literalRoot_eq_find? hp hk, Option.map_eq_some_iff]
  refine ⟨i, List.find?_range'_eq_some.2 ⟨(isRootOfOrder_rootCandidate_iff hp hk hlo hhi).2 hi, ?_, fun j hj hlt => ?_⟩, rfl⟩
  · rw [List.mem_range'_1]; omega
  · rw [Bool.not_eq_true', Bool.eq_false_iff, ne_eq, isRootOfOrder_rootCandidate_iff hp hk hj (hlt.trans hhi)]
    exact hmin j hlt

/-- The literal search fails when no candidate qualifies. -/
theorem literalRoot_eq_none (hp : 2 ≤ p) (hk : k ≠ 0) (hnone : ∀ i, ¬Qualifies p k i) : literalRoot p (2 ^ k) = none := by
  rw [literalRoot_eq_find? hp hk, Option.map_eq_none_iff, List.find?_range'_eq_none]
  intro j hj hlt
  rw [Bool.not_eq_true', Bool.eq_false_iff, ne_eq, isRootOfOrder_rootCandidate_iff hp hk hj (by omega)]
  exact hnone j

end Search

/-! ### Roots of unity of a prime field -/

section Prime

variable {p k : Nat} [Fact p.Prime]

/-- A power of a natural number is 1 in ZMod p exactly where its remainder is 1. -/
theorem natCast_pow_eq_one_iff (w m : Nat) : (w : ZMod p) ^ m = 1 ↔ w ^ m % p = 1 := by
  rw [← Nat.cast_pow, ← Nat.cast_one, ZMod.natCast_eq_natCast_iff', Nat.mod_eq_of_lt (Fact.out : p.Prime).one_lt]

/-- A primitive root of the field is a root of unity of the statements: the converse of `RootOfUnity.isPrimitiveRoot`. -/
theorem rootOfUnity_of_isPrimitiveRoot {w : Nat} (h : IsPrimitiveRoot (w : ZMod p) (2 ^ k)) : RootOfUnity p k w := by
  refine ⟨(natCast_pow_eq_one_iff w _).1 h.pow_eq_one, fun hk hone => ?_⟩
  have hlt : 2 ^ (k - 1) < 2 ^ k := Nat.pow_lt_pow_right one_lt_two (Nat.sub_one_lt hk)
  exact h.pow_ne_one_of_pos_of_lt (Nat.two_pow_pos _).ne' hlt ((natCast_pow_eq_one_iff w _).2 hone)

/-- A root of unity of order 2^k exists only where 2^k divides p − 1 (Lagrange's theorem, 46_roots_twiddle.md R501). -/
theorem RootOfUnity.dvd_sub_one {w : Nat} (h : RootOfUnity p k w) : 2 ^ k ∣ p - 1 := by
  have hz := h.isPrimitiveRoot
  rw [hz.eq_orderOf]
  exact ZMod.orderOf_dvd_card_sub_one (hz.ne_zero (Nat.two_pow_pos k).ne')

/-- The multiplicative group of the field is cyclic, so that it has a primitive root of order p − 1. -/
theorem exists_isPrimitiveRoot_sub_one (p : Nat) [Fact p.Prime] : ∃ z : ZMod p, IsPrimitiveRoot z (p - 1) := by
  obtain ⟨u, hu⟩ := IsCyclic.exists_ofOrder_eq_natCard (α := (ZMod p)ˣ)
  rw [Nat.card_eq_fintype_card, ZMod.card_units] at hu
  exact ⟨u, IsPrimitiveRoot.coe_units_iff.2 (IsPrimitiveRoot.iff_orderOf.2 hu)⟩

/-- Where the order 2^k ≥ 2 divides p − 1, a generator of the group qualifies (46_roots_twiddle.md R501). -/
theorem exists_qualifies (hk : k ≠ 0) (hdvd : 2 ^ k ∣ p - 1) : ∃ i, Qualifies p k i := by
  obtain ⟨z, hz⟩ := exists_isPrimitiveRoot_sub_one p
  have hpos : 0 < p - 1 := Nat.sub_pos_of_lt (Fact.out : p.Prime).one_lt
  have hle : 2 ≤ p - 1 := (Nat.le_self_pow hk 2).trans (Nat.le_of_dvd hpos hdvd)
  have h0 : z.val ≠ 0 := (ZMod.val_ne_zero z).2 (hz.ne_zero hpos.ne')
  have h1 : z.val ≠ 1 := fun h => hz.ne_one hle ((ZMod.val_eq_one (Fact.out : p.Prime).one_lt z).1 h)
  have hroot : RootOfUnity p k (rootCandidate p k z.val) := rootOfUnity_of_isPrimitiveRoot <| by
    rw [rootCandidate, ZMod.natCast_mod, Nat.cast_pow, ZMod.natCast_zmod_val]
    exact hz.pow hpos (Nat.div_mul_cancel hdvd).symm
  exact ⟨z.val, by omega, z.val_lt, hroot.1, hroot.2 hk⟩

end Prime

/-- Settles O58: the listed moduli are prime, and a root of an order above 1 that the search finds has it divide p − 1. -/
theorem rootShortcutIsLiteral : Obligations.RootShortcutIsLiteral := by
  intro p k
  rw [rootOfUnity]
  split
  case isFalse => rfl
  case isTrue h =>
    simp only [Bool.and_eq_true, List.contains_iff_mem, bne_iff_ne, ne_eq, ← Nat.dvd_iff_mod_eq_zero] at h
    obtain ⟨⟨hmem, horder⟩, hdvd⟩ := h
    have hprime := Laws.certifiedPrimes_prime p hmem
    have hfact : Fact p.Prime := ⟨hprime⟩
    have hk : k ≠ 0 := by rintro rfl; exact horder (pow_zero 2)
    exact (literalRoot_eq_none hprime.two_le hk fun i hi => hdvd hi.rootOfUnity.dvd_sub_one).symm

/-! ### ROOT -/

/-- ROOT, ready and admitted, stores the root the search finds (46_roots_twiddle.md R501). -/
theorem root_stored {s : State} {dst n g : Nat} (h : Ready s) (ha : Admitted s dst 1 []) (hn : isPowerOfTwo n = true)
    (hg : rootOfUnity s.modulus n = some g) : ∃ t, exec (.root dst n) s = .next t ∧ Stored s t dst [g] :=
  runData_stored (sh := ⟨require (isPowerOfTwo n) .invalidArgument, dst, 1, [], false⟩) h (by rw [hn]; rfl) rfl ha
    (by rw [rootElements, hg]) (Nat.le_refl 1) ((Canonical.nil _).cons (rootOfUnity_lt h.modulus_ge hg))

/-- ROOT, ready and admitted, raises NOT_FOUND when the search fails (46_roots_twiddle.md R501). -/
theorem root_raises {s : State} {dst n : Nat} (h : Ready s) (ha : Admitted s dst 1 []) (hn : isPowerOfTwo n = true)
    (hg : rootOfUnity s.modulus n = none) : exec (.root dst n) s = .next (raise .notFound 0x00000055 s) :=
  runData_error (sh := ⟨require (isPowerOfTwo n) .invalidArgument, dst, 1, [], false⟩) h.idle h.configured (by rw [hn]; rfl)
    rfl ha (by rw [rootElements, hg])

/-- The order 1 has the root 1, with no search (46_roots_twiddle.md R501). -/
theorem rootOfUnity_one (p : Nat) : rootOfUnity p 1 = some 1 := rootShortcutIsLiteral p 0

/-- Settles O57: ROOT answers what the literal search gives, and that is the power of the least candidate that qualifies. -/
theorem rootCompletes : Obligations.RootCompletes := by
  intro s dst h ha
  refine ⟨root_stored h ha rfl (rootOfUnity_one _), fun k hk => ⟨fun i hi hmin => ?_, fun hnone => ?_⟩⟩
  · exact root_stored h ha (isPowerOfTwo_two_pow k)
      ((rootShortcutIsLiteral _ k).trans (literalRoot_eq_some h.modulus_ge (Nat.one_le_iff_ne_zero.1 hk) hi hmin))
  · exact root_raises h ha (isPowerOfTwo_two_pow k)
      ((rootShortcutIsLiteral _ k).trans (literalRoot_eq_none h.modulus_ge (Nat.one_le_iff_ne_zero.1 hk) hnone))

/-! ### An FFT domain (46_roots_twiddle.md R502) -/

section Domain

variable {p k : Nat} [Fact p.Prime]

/-- Where 2^k divides p − 1 the search finds a root of unity of that order. -/
theorem exists_rootOfUnity_eq_some (hdvd : 2 ^ k ∣ p - 1) : ∃ g, rootOfUnity p (2 ^ k) = some g ∧ RootOfUnity p k g := by
  have hp := (Fact.out : p.Prime).two_le
  rcases eq_or_ne k 0 with rfl | hk
  · exact ⟨1, rootOfUnity_one p, Nat.mod_eq_of_lt hp, fun h => absurd rfl h⟩
  · classical
    have hex := exists_qualifies hk hdvd
    exact ⟨_, (rootShortcutIsLiteral p k).trans (literalRoot_eq_some hp hk (Nat.find_spec hex) fun _ => Nat.find_min hex),
      (Nat.find_spec hex).rootOfUnity⟩

/-- The power cycle of a root of unity of order 2^k is its 2^k powers, for every capacity that holds them. -/
theorem RootOfUnity.powerCycle_eq {g room : Nat} (hg : RootOfUnity p k g) (hlt : g < p) (hroom : 2 ^ k ≤ room) :
    powerCycle p g room = .ok ((List.range (2 ^ k)).map fun j => g ^ j % p) :=
  powerCycle_eq_ok (Fact.out : p.Prime).two_le hlt Nat.one_le_two_pow hroom hg.1 fun j hj hjk hone =>
    hg.isPrimitiveRoot.pow_ne_one_of_pos_of_lt (Nat.one_le_iff_ne_zero.1 hj) hjk ((natCast_pow_eq_one_iff g j).2 hone)

/-- Half way round the cycle of a root of unity of order 2^k ≥ 2 stands p − 1. -/
theorem RootOfUnity.pow_half_mod {g : Nat} (hg : RootOfUnity p k g) (hk : k ≠ 0) : g ^ 2 ^ (k - 1) % p = p - 1 := by
  obtain ⟨k, rfl⟩ := Nat.exists_eq_succ_of_ne_zero hk
  have hp := (Fact.out : p.Prime).pos
  refine CharP.natCast_injOn_Iio (ZMod p) p (Nat.mod_lt _ hp) (Nat.sub_one_lt hp.ne') ?_
  rw [ZMod.natCast_mod, Nat.cast_pow, Nat.succ_sub_one, pow_half_eq_neg_one hg.isPrimitiveRoot, Nat.cast_pred hp,
    ZMod.natCast_self, zero_sub]

end Domain

/-- Settles O59: the search finds a root of unity, which in the prime field is a primitive root. -/
theorem fftDomainFromRoot : Obligations.FftDomainFromRoot := by
  intro p k hprime hdvd
  have hfact : Fact p.Prime := ⟨hprime⟩
  obtain ⟨g, hsome, hg⟩ := exists_rootOfUnity_eq_some hdvd
  exact ⟨g, hsome, hg, fun room hroom =>
    ⟨hg.powerCycle_eq (rootOfUnity_lt hprime.two_le hsome) hroom, hg.pow_half_mod⟩⟩

end Sys2Proof

/-! PROOFS of the statements about the control commands (47_control.md): SETMOD and ACK, and the words that only look like them. -/

namespace Sys2Proof

open Machine

/-! ### A word that has an opcode but is not a command of it -/

/-- A word with the OPCODE of `op` is executed only if it is the encoding of one of that opcode's commands (30_encoding.md R304):
otherwise it is illegal in IDLE and dropped in ERROR (R306, 60_exceptions.md R612). -/
theorem issue_of_not_encoding {cw : CommandWord} {op : Opcode} (s : State) (hop : cw.opcodeField = op.code)
    (h : ∀ form neg, cw ≠ encode (op.assemble cw form neg)) :
    (s.state = .idle → issue cw s = .next (raise .illegalCommand cw.w0 s)) ∧ (s.state = .error → issue cw s = .next s) := by
  rcases issue_cases cw s with ⟨i, hd, -⟩ | ⟨c, -, hs, hi⟩ | ⟨c, -, hs, hi⟩
  · obtain ⟨op', form, neg, hacc, -⟩ := decode_ok_iff_accepts.1 hd
    obtain rfl : op' = op := code_injective ((w0_eq_head_iff.1 hacc.w0).1.trans hop)
    exact absurd (encode_assemble hacc).symm (h form neg)
  · exact ⟨fun _ => hi, fun he => by simp [he] at hs⟩
  · exact ⟨fun he => absurd he hs, fun _ => hi⟩

/-! ### SETMOD (47_control.md R510) -/

theorem exec_setmod_idle {s : State} (hs : s.state = .idle) (q : Nat) : exec (.setmod q) s = .next (setmodStages q s) :=
  congrArg Host.Outcome.next (accept_idle hs)

theorem setmodStages_configured {s : State} (hc : s.configured = true) (q : Nat) :
    setmodStages q s = raise .alreadyConfigured 0x00000001 s := if_pos hc

theorem setmodStages_lt_two {s : State} (hc : s.configured = false) {q : Nat} (hq : q < 2) :
    setmodStages q s = raise .invalidArgument 0x00000001 s := by
  rw [setmodStages, if_neg (by simp [hc]), if_pos hq]; rfl

theorem setmodStages_two_le {s : State} (hc : s.configured = false) {q : Nat} (hq : 2 ≤ q) :
    setmodStages q s = configure q s := by
  rw [setmodStages, if_neg (by simp [hc]), if_neg (Nat.not_lt.2 hq)]

/-- One byte fewer than the element size does not hold the modulus (10_state.md R103). -/
theorem two_pow_elementSize_sub_one_le {q : Nat} (hq : q ≠ 0) : 2 ^ (8 * (elementSize q - 1)) ≤ q :=
  calc 2 ^ (8 * (elementSize q - 1))
    _ ≤ 2 ^ Nat.log2 q := Nat.pow_le_pow_right (by omega) (by simp only [elementSize, bitWidth]; omega)
    _ ≤ q := Nat.log2_self_le hq

/-- The element size fits ES, which has five bits (10_state.md R103). -/
theorem configure_es_toNat {q : Nat} (h : q < 2 ^ 128) (s : State) : (configure q s).es.toNat = elementSize q := by
  have hle := elementSize_le h
  rw [configure_es, BitVec.toNat_ofNat, Nat.mod_eq_of_lt (by omega)]

/-- Settles O31: the stages of SETMOD in their order; ES is the least number of bytes by the bounds on log2. -/
theorem setmodConfigures : Obligations.SetmodConfigures := by
  refine ⟨fun s q hs hlt => ?_, fun s cw hs hop hbad => ?_⟩
  · rw [exec_setmod_idle hs]
    refine ⟨fun hc => by rw [setmodStages_configured hc], fun hc hq => by rw [setmodStages_lt_two hc hq], fun hc hq => ?_⟩
    refine ⟨configure q s, by rw [setmodStages_two_le hc hq], rfl, (BitVec.toNat_ofNat _ _).trans (Nat.mod_eq_of_lt hlt), ?_⟩
    rw [configure_es_toNat hlt]
    exact ⟨elementSize_pos q, elementSize_le hlt, by rw [Nat.pow_mul]; exact lt_elementSize q,
      .inr (two_pow_elementSize_sub_one_le (by omega))⟩
  · refine (issue_of_not_encoding (op := .setmod) s hop fun form neg h => ?_).1 hs
    rw [h] at hbad
    simp [Opcode.assemble, encode] at hbad

/-! ### ACK (47_control.md R511) -/

theorem exec_ack {s : State} (hs : s.state ≠ .busy) : exec .ack s = .next (acknowledge s) := by
  cases h : s.state with
  | busy => exact absurd h hs
  | idle | error => simp only [exec, execAck, h]

/-- Settles O32: outside BUSY an ACK is `acknowledge`, and the only word with its opcode that is executed is its encoding. -/
theorem ackAcknowledges : Obligations.AckAcknowledges :=
  ⟨fun _ hs => exec_ack hs, fun s _ hop hbad => issue_of_not_encoding (op := .ack) s hop fun _ _ => hbad⟩

end Sys2Proof

/-! PROOFS of the statements about error entry, dropped words and the order of checks (60_exceptions.md) and about the reset event
(70_reset_and_hazards.md). -/

namespace Sys2Proof

open Machine

/-! ### Words outside IDLE (60_exceptions.md R612, 10_state.md R121) -/

theorem exec_next (i : Instr) (s : State) : ∃ t, exec i s = .next t := by
  rcases exec_cases i s with ⟨-, he⟩ | ⟨-, -, he⟩ | ⟨-, _, he, -⟩ | ⟨-, -, _, -, -, he⟩ | ⟨-, -, _, _, -, -, -, he, -⟩ <;>
    exact ⟨_, he⟩

/-- In BUSY no command acts, in ERROR none but ACK. -/
theorem exec_dropped {i : Instr} {s : State} (hs : s.state ≠ .idle) (hack : s.state = .error → i ≠ .ack) :
    exec i s = .next s := by
  rcases exec_cases i s with ⟨-, he⟩ | ⟨rfl, hbusy, -⟩ | ⟨hidle, -⟩ | ⟨hidle, -⟩ | ⟨hidle, -⟩
  · exact he
  · cases hst : s.state with
    | idle => exact absurd hst hs
    | busy => exact absurd hst hbusy
    | error => exact absurd rfl (hack hst)
  all_goals exact absurd hidle hs

/-- In BUSY no word acts, in ERROR none but the word of ACK. -/
theorem issue_dropped {cw : CommandWord} {s : State} (hs : s.state ≠ .idle) (hack : s.state = .error → cw ≠ encode .ack) :
    issue cw s = .next s := by
  rcases issue_cases cw s with ⟨i, hd, hi⟩ | ⟨-, -, hidle, -⟩ | ⟨-, -, -, hi⟩
  · rw [hi]
    exact exec_dropped hs fun he hi => hack he ((encodeOfDecode cw i hd).2.symm.trans (congrArg encode hi))
  · exact absurd hidle hs
  · exact hi

theorem issue_ack {s : State} (hs : s.state ≠ .busy) : issue (encode .ack) s = .next (acknowledge s) :=
  (issue_ok (decode_encode (i := .ack) rfl) s).trans (exec_ack hs)

/-! ### Error entry (60_exceptions.md R610) -/

/-- A word accepted in IDLE that leaves the block in ERROR has taken error entry with its own W0. -/
theorem issue_enters_error {s t : State} {cw : CommandWord} (hs : s.state = .idle) (ht : issue cw s = .next t)
    (hte : t.state = .error) : ∃ e, t = raise e cw.w0 s := by
  rcases issue_cases cw s with ⟨i, hd, hi⟩ | ⟨-, -, -, hi⟩ | ⟨-, -, hidle, -⟩
  · rw [hi] at ht
    rcases exec_cases i s with ⟨-, he⟩ | ⟨-, -, he⟩ | ⟨-, e, he, -⟩ | ⟨-, -, q, -, -, he⟩ | ⟨-, -, sh, vals, -, -, -, he, -⟩ <;>
      cases he.symm.trans ht
    · simp [hs] at hte
    · simp at hte
    · exact ⟨e, by rw [(encodeOfDecode cw i hd).2]⟩
    · simp at hte
    · simp at hte
  · cases hi.symm.trans ht
    exact ⟨.illegalCommand, rfl⟩
  · exact absurd hs hidle

/-! ### The stages before the evaluation (60_exceptions.md R620 stages 3 to 6) -/

section Stages

variable {i : Instr} {sh : Shape} {eval : State → Except ErrorCode (List Nat)} {s : State}

theorem runData_unconfigured (hs : s.state = .idle) (hc : s.configured = false) :
    runData i sh eval s = .next (raise .notConfigured (encode i).w0 s) := by
  simp [runData, accept_idle hs, dataStages, hc]

theorem runData_check (hs : s.state = .idle) (hc : s.configured = true) {e : ErrorCode} (hk : sh.check = some e) :
    runData i sh eval s = .next (raise e (encode i).w0 s) := by
  simp [runData, accept_idle hs, dataStages, hc, hk]

theorem runData_outOfBounds (hs : s.state = .idle) (hc : s.configured = true) (hk : sh.check = none)
    (hb : sh.outOfBounds s.es.toNat s.memBytes = true) :
    runData i sh eval s = .next (raise .badAddress (encode i).w0 s) := by
  simp [runData, accept_idle hs, dataStages, hc, hk, hb]

theorem runData_aliased (hs : s.state = .idle) (hc : s.configured = true) (hk : sh.check = none)
    (hb : sh.outOfBounds s.es.toNat s.memBytes = false) (ha : sh.aliased s.es.toNat = true) :
    runData i sh eval s = .next (raise .overlap (encode i).w0 s) := by
  simp [runData, accept_idle hs, dataStages, hc, hk, hb, ha]

end Stages

/-! ### The errors an evaluation can raise (60_exceptions.md R620 stage 7) -/

/-- The errors that depend on the data a command reads. -/
def evaluationErrors : List ErrorCode := [.invalidArgument, .notFound, .capacityExceeded]

theorem collect_eq_error {l : List (Except ErrorCode Nat)} {e : ErrorCode} (h : collect l = .error e) : .error e ∈ l := by
  induction l with
  | nil => cases h
  | cons x l ih =>
    cases x with
    | error c => cases h; exact List.mem_cons_self
    | ok v =>
      rw [collect] at h
      cases hl : collect l with
      | error c => rw [hl] at h; cases h; exact List.mem_cons_of_mem _ (ih hl)
      | ok vs => rw [hl] at h; cases h

theorem fieldExp_error {p b : Nat} {x : Int} {e : ErrorCode} (hp : 2 ≤ p) (h : fieldExp p b x = .error e) :
    e ∈ evaluationErrors := by
  rcases fieldExp_cases hp b x with ⟨-, -, hx⟩ | ⟨v, -, hx⟩ <;> cases hx.symm.trans h
  decide

theorem lanes_error {p n : Nat} {b : Nat → Nat} {x : Nat → Int} {e : ErrorCode} (hp : 2 ≤ p)
    (h : collect ((List.range n).map fun j => fieldExp p (b j) (x j)) = .error e) : e ∈ evaluationErrors := by
  obtain ⟨j, -, hj⟩ := List.mem_map.1 (collect_eq_error h)
  exact fieldExp_error hp hj

theorem polyDiv_error {p : Nat} {a b : List Nat} {e : ErrorCode} (hp : 2 ≤ p) (h : polyDiv p a b = .error e) :
    e ∈ evaluationErrors := by
  have hpos : 0 < p := by omega
  rcases polyDiv_cases hpos a b with hd | ⟨_, _, q, -, -, -, hd, -⟩ <;> cases hd.symm.trans h
  decide

theorem powerCycle_error {p w cap : Nat} {e : ErrorCode} (hp : 2 ≤ p) (hw : w < p) (h : powerCycle p w cap = .error e) :
    e ∈ evaluationErrors := by
  rcases powerCycle_cases hp hw cap with hc | ⟨vals, hc, -⟩ <;> cases hc.symm.trans h
  decide

theorem rootElements_error {p n : Nat} {e : ErrorCode} (h : rootElements p n = .error e) : e ∈ evaluationErrors := by
  rw [rootElements] at h
  split at h <;> cases h
  decide

/-- The evaluation raises data-dependent errors only. -/
def RaisesDataErrors (eval : State → Except ErrorCode (List Nat)) : Prop :=
  ∀ (s : State) (e : ErrorCode), 2 ≤ s.modulus → eval s = .error e → e ∈ evaluationErrors

theorem raisesDataErrors_ok (f : State → List Nat) : RaisesDataErrors fun s => .ok (f s) := fun _ _ _ he => by cases he

/-- Every data command runs the stages over the shape its rule lists, with an evaluation that raises data-dependent errors only:
the powers, the division and the searches may raise, every other evaluation gives a list. -/
theorem exec_evaluation {i : Instr} {sh : Shape} (h : i.shape = some sh) :
    ∃ eval, (∀ s, exec i s = runData i sh eval s) ∧ RaisesDataErrors eval := by
  suffices ∃ sh' eval, sh' = sh ∧ (∀ s, exec i s = runData i sh' eval s) ∧ RaisesDataErrors eval by
    obtain ⟨_, eval, rfl, hrun, herr⟩ := this
    exact ⟨eval, hrun, herr⟩
  cases i with
  | setmod p | ack => cases h
  | fadd | fsub | fmul | fdiv | finv | fneg | vaddVS | vsubVS | vmulVS | vdivVS | vinv | vneg | pseries | padd | psub | peval
  | zpoly =>
    cases h
    exact ⟨_, _, rfl, fun _ => rfl, raisesDataErrors_ok _⟩
  | vaddVV d a b n m | vsubVV d a b n m | vmulVV d a b n m | vdivVV d a b n m | lagrange d a b n m | matmul d a b n m k q
  | combine d a b n m | qbatch d a b n m =>
    cases h
    refine ⟨_, _, ?_, fun _ => rfl, raisesDataErrors_ok _⟩
    simp only [vvShape, lagrangeShape, require_beq]
  | fexp neg d a b =>
    cases h
    exact ⟨_, _, rfl, fun _ => rfl, fun s e hp he => lanes_error (n := 1) (b := fun _ => loadF s a 0)
      (x := fun _ => signedExponent neg (loadRaw s b 0)) hp he⟩
  | vexpVV d a b n m =>
    cases h
    refine ⟨_, _, ?_, fun _ => rfl, fun _ _ => lanes_error⟩
    simp only [vvShape, require_beq]
  | vexpVS d a n =>
    cases h
    exact ⟨_, _, rfl, fun _ => rfl, fun _ _ => lanes_error⟩
  | pmul d a b n m =>
    cases h
    refine ⟨_, _, ?_, fun _ => rfl, raisesDataErrors_ok _⟩
    by_cases hn : n = 0 <;> simp [require, hn]
  | pdiv d a b n m =>
    cases h
    refine ⟨_, _, ?_, fun _ => rfl, fun _ _ => polyDiv_error⟩
    by_cases hmn : m ≤ n <;> simp [require, hmn]
  | fft d a b n m =>
    cases h
    refine ⟨_, _, ?_, fun _ => rfl, raisesDataErrors_ok _⟩
    simp [fftShape, require, ← isPowerOfTwo_iff]
  | ifft d a b n m =>
    cases h
    refine ⟨_, _, ?_, fun _ => rfl, raisesDataErrors_ok _⟩
    simp only [ifftShape, require_beq, ← isPowerOfTwo_iff]
  | pcycle d b n =>
    cases h
    exact ⟨_, _, rfl, fun _ => rfl, fun s e hp he => powerCycle_error hp (loadF_lt (by omega) b 0) he⟩
  | root d n =>
    cases h
    refine ⟨_, _, ?_, fun _ => rfl, fun _ _ _ => rootElements_error⟩
    simp [require, ← isPowerOfTwo_iff]

/-- An admitted data command completes, storing no more than its destination region holds, or raises a data-dependent error. -/
theorem exec_admitted {s : State} {i : Instr} {sh : Shape} (h : Ready s) (hsh : i.shape = some sh) (hk : sh.check = none)
    (ha : Admitted s sh.dst sh.count sh.sources) :
    (∃ t vals, exec i s = .next t ∧ Stored s t sh.dst vals ∧ vals.length ≤ sh.count) ∨
      ∃ e, exec i s = .next (raise e (encode i).w0 s) ∧ e ∈ evaluationErrors := by
  obtain ⟨eval, hrun, herr⟩ := exec_evaluation hsh
  have hm := tooMany_of_admitted h hsh ha
  cases he : eval s with
  | error e => exact .inr ⟨e, (hrun s).trans (runData_error h.idle h.configured hk hm ha he), herr s e h.modulus_ge he⟩
  | ok vals =>
    have hcommit := (hrun s).trans (runData_ok h.idle h.configured hk hm ha he)
    rcases exec_bytes_or_stored h.inv hcommit with ⟨-, herror⟩ | ⟨sh', stored, hsh', -, hlen, -, hst⟩
    · cases (herror sh hsh h.idle).1
    · cases hsh.symm.trans hsh'
      exact .inl ⟨_, stored, hcommit, hst, hlen⟩

/-! ### The reset event (70_reset_and_hazards.md R700) -/

/-- The state after the reset event is fixed by the fields that are not the block's to reset. -/
theorem applyReset_congr {s s' : State} (hbytes : s'.memBytes = s.memBytes) (hresets : s'.resets = s.resets)
    (hpending : s'.pending = s.pending) (hseen : s'.seen = s.seen) : applyReset s' = applyReset s := by
  rw [applyReset, applyReset, hbytes, hresets, hpending, hseen]

theorem byteAt_applyReset (s : State) (a : Nat) : (applyReset s).byteAt a = Config.freeByte (s.resets + 1) a := rfl

theorem step_reset {s : State} {rest : List PortEvent} (h : s.pending = .reset :: rest) :
    step s = .next (applyReset (s.withPending rest)) := step_cons h

/-! ### The statements -/

/-- Settles O16: the stages run over the shape the command's rule lists; the checks of bounds and overlap are those the statement
spells out; an admitted command completes or raises a data-dependent error. -/
theorem stageOrder : Obligations.StageOrder := by
  intro s i sh h hs hsh
  obtain ⟨eval, hrun, -⟩ := exec_evaluation hsh
  refine ⟨fun hc => ?_, fun hc e hk => ?_, fun hc hk hb => ?_, fun hc hk hb ha => ?_, fun hc hk ha => ?_⟩
  · exact (hrun s).trans (runData_unconfigured hs hc)
  · exact (hrun s).trans (runData_check hs hc hk)
  · rw [← outOfBounds_iff, Bool.not_eq_false] at hb
    exact (hrun s).trans (runData_outOfBounds hs hc hk hb)
  · rw [← outOfBounds_iff] at hb
    rw [← aliased_iff, Bool.not_eq_false] at ha
    exact (hrun s).trans (runData_aliased hs hc hk hb ha)
  · exact exec_admitted ⟨h, hs, hc⟩ hsh hk ha

/-- Settles O14: of what a word can do in IDLE, only error entry leaves the block in ERROR. -/
theorem errorEntry : Obligations.ErrorEntry :=
  ⟨⟨rfl, rfl, rfl, rfl, rfl, rfl, rfl, rfl, rfl, rfl, rfl⟩, fun _ _ _ hs ht hte => issue_enters_error hs ht hte⟩

/-- Settles O15: outside IDLE every word is dropped, but for the word of ACK in ERROR, which acknowledges. -/
theorem wordsDroppedOutsideIdle : Obligations.WordsDroppedOutsideIdle := by
  intro s cw
  refine ⟨fun hs => ?_, fun hs hack => ?_, fun hs => ?_⟩
  · exact issue_dropped (by simp [hs]) (by simp [hs])
  · exact issue_dropped (by simp [hs]) fun _ => hack
  · exact issue_ack (by simp [hs])

/-- Settles O13: a word that decodes is executed, and any other is error entry or dropped. -/
theorem commandPortNeverStops : Obligations.CommandPortNeverStops := by
  intro s cw
  rcases issue_cases cw s with ⟨i, -, hi⟩ | ⟨-, -, -, hi⟩ | ⟨-, -, -, hi⟩
  · rw [hi]
    exact exec_next i s
  · exact ⟨_, hi⟩
  · exact ⟨_, hi⟩

/-- Settles O10: the step is `applyReset`, which keeps the fields outside the block and reads no other. -/
theorem resetEventForgets : Obligations.ResetEventForgets := by
  intro s rest h
  refine ⟨_, step_reset h, rfl, rfl, rfl, rfl, rfl, rfl, rfl, rfl, rfl, rfl, rfl, byteAt_applyReset _, ?_⟩
  intro s' hpending hbytes hseen hresets
  rw [step_reset (hpending.trans h)]
  exact congrArg Host.Outcome.next (applyReset_congr hbytes hresets rfl hseen)

end Sys2Proof
